-- ==== Sys2Proof/Word.lean ====
section
/-! DEFINITION. The word types of MPADEC: bytes, 16-bit PCM words and 32-bit registers (`00_scope.md` R14). -/

namespace Sys2Proof

/-- One byte of a buffer or of the bitstream. -/
abbrev Byte := BitVec 8

/-- One PCM sample: 16-bit two's complement (R14). -/
abbrev Half := BitVec 16

/-- A host register, a command word, a frame-header word, or a binary32 pattern (R14, R15). -/
abbrev Word := BitVec 32

end Sys2Proof
end

