-- ==== Sys2Proof/Syntax.lean ====
section
/-! DEFINITION. The instructions of MPADEC: one constructor per row of `opcode_table.json`. There are two
kinds of word: the command words the host writes to CMD (`30_encoding.md` R100, R101) and the frame-header
words of the bitstream, which the spec calls "the opcodes of the bitstream" (R117, R118). -/

namespace Sys2Proof

/-- The header fields below sync, version and layer, high bits first (R110). -/
structure HeaderFields where
  /-- H[16]: 0 when a 16-bit CRC follows. -/
  protection : BitVec 1
  /-- H[15:12]. -/
  bitrate : BitVec 4
  /-- H[11:10]. -/
  sr : BitVec 2
  /-- H[9]. -/
  padding : BitVec 1
  /-- H[8], ignored. -/
  privBit : BitVec 1
  /-- H[7:6]. -/
  mode : BitVec 2
  /-- H[5:4]. -/
  modeExt : BitVec 2
  /-- H[3], ignored. -/
  copyright : BitVec 1
  /-- H[2], ignored. -/
  original : BitVec 1
  /-- H[1:0], ignored. -/
  emphasis : BitVec 2
  deriving DecidableEq, Repr, Inhabited

/-- The two kinds of instruction word. -/
inductive Space where
  /-- A 32-bit word written to CMD (R100). -/
  | command
  /-- Four bytes of the bitstream at the engine's scan position (R110). -/
  | header
  deriving DecidableEq, Repr, Inhabited

inductive Instr where
  /-- RESET (R380). -/
  | reset
  /-- DECODE (R360). -/
  | decode
  /-- DECODE.nw: decode and discard (R361). -/
  | decodeNw
  /-- PROBE (R210). -/
  | probe
  /-- GETBITS n (R167). -/
  | getbits (n : BitVec 6)
  /-- Any reserved command word (R101, R401). -/
  | illegal (w : Word)
  | mpeg1L3 (f : HeaderFields)
  | mpeg2L3 (f : HeaderFields)
  | mpeg25L3 (f : HeaderFields)
  | mpeg1L1 (f : HeaderFields)
  | mpeg1L2 (f : HeaderFields)
  | mpeg2L1 (f : HeaderFields)
  | mpeg2L2 (f : HeaderFields)
  /-- Version code 01; `rest` is H[18:0] (R118). -/
  | invalidVersion01 (rest : BitVec 19)
  /-- Layer code 00 under MPEG-1; `rest` is H[16:0] (R118). -/
  | invalidLayer00Mpeg1 (rest : BitVec 17)
  | invalidLayer00Mpeg2 (rest : BitVec 17)
  | invalidLayer00Mpeg25 (rest : BitVec 17)
  /-- MPEG-2.5 with Layer I; `rest` is H[16:0] (R118). -/
  | invalidMpeg25L1 (rest : BitVec 17)
  | invalidMpeg25L2 (rest : BitVec 17)
  /-- Bitrate index 15 under any version and layer: `hi` is H[20:16], `lo` is H[11:0] (R118). -/
  | invalidBitrate15 (hi : BitVec 5) (lo : BitVec 12)
  /-- Sample-rate index 3 under any version and layer: `hi` is H[20:12], `lo` is H[9:0] (R118). -/
  | invalidSr3 (hi : BitVec 9) (lo : BitVec 10)
  deriving DecidableEq, Repr, Inhabited

/-- Which kind of word an instruction is. -/
def Instr.space : Instr → Space
  | .reset | .decode | .decodeNw | .probe | .getbits _ | .illegal _ => .command
  | .mpeg1L3 _ | .mpeg2L3 _ | .mpeg25L3 _ | .mpeg1L1 _ | .mpeg1L2 _ | .mpeg2L1 _ | .mpeg2L2 _ => .header
  | .invalidVersion01 _ | .invalidLayer00Mpeg1 _ | .invalidLayer00Mpeg2 _ | .invalidLayer00Mpeg25 _ => .header
  | .invalidMpeg25L1 _ | .invalidMpeg25L2 _ | .invalidBitrate15 _ _ | .invalidSr3 _ _ => .header

end Sys2Proof
end

