-- ==== Sys2Proof/WellFormed.lean ====
section
/-! DEFINITION. Which terms of `Instr` are instructions of `opcode_table.json`: the operand ranges and the
conditions the table's rows put on the bits that their masks leave free. -/

namespace Sys2Proof

/-- A row of the table: the word agrees with `pattern` on the bits of `mask`. -/
def matchesRow (w mask pattern : Word) : Bool := w &&& mask == pattern

/-- The legal command rows of the table (R100), each by its mask and match; GETBITS also needs `N <= 32`. -/
def isCommandRow (w : Word) : Bool :=
  matchesRow w 0xFFFFFFFF 0x00000001 || matchesRow w 0xFFFFFFFF 0x00000002
    || matchesRow w 0xFFFFFFFF 0x00000012 || matchesRow w 0xFFFFFFFF 0x00000003
    || (matchesRow w 0xFFFFF81F 0x00000004 && (w.extractLsb' 5 6).toNat ≤ 32)

/-- R111: bitrate index 15 and sample-rate index 3 are no header of any kind. -/
def HeaderFields.wf (f : HeaderFields) : Bool := f.bitrate != 15 && f.sr != 3

/-- The low bits of an invalid-kind row that are its own: neither of the two index rows claims the word
(log entry 2). -/
def indexBitsFree (bitrate : BitVec 4) (sr : BitVec 2) : Bool := bitrate != 15 && sr != 3

def Instr.wf : Instr → Bool
  | .reset | .decode | .decodeNw | .probe => true
  | .getbits n => n.toNat ≤ 32
  | .illegal w => !isCommandRow w
  | .mpeg1L3 f | .mpeg2L3 f | .mpeg25L3 f | .mpeg1L1 f | .mpeg1L2 f | .mpeg2L1 f | .mpeg2L2 f => f.wf
  | .invalidVersion01 r => indexBitsFree (r.extractLsb' 12 4) (r.extractLsb' 10 2)
  | .invalidLayer00Mpeg1 r | .invalidLayer00Mpeg2 r | .invalidLayer00Mpeg25 r => indexBitsFree (r.extractLsb' 12 4) (r.extractLsb' 10 2)
  | .invalidMpeg25L1 r | .invalidMpeg25L2 r => indexBitsFree (r.extractLsb' 12 4) (r.extractLsb' 10 2)
  | .invalidBitrate15 _ _ => true
  | .invalidSr3 hi _ => hi.extractLsb' 0 4 != 15

end Sys2Proof
end

