-- ==== Sys2Proof/Decode.lean ====
section
/-! DEFINITION. The decoder of both kinds of word, total, and after it the encoder.
`decodeCommand` is R101; `decodeHeader` reads R110's fields and names the kinds of R117 and R118. -/

namespace Sys2Proof

/-- Command decode, total on every 32-bit word (R101). -/
def decodeCommand (w : Word) : Instr :=
  let op := w.extractLsb' 0 4
  if w.extractLsb' 11 21 ≠ 0 then .illegal w
  else if op = 1 ∧ w.extractLsb' 4 7 = 0 then .reset
  else if op = 2 ∧ w.extractLsb' 5 6 = 0 then (if w.getLsbD 4 then .decodeNw else .decode)
  else if op = 3 ∧ w.extractLsb' 4 7 = 0 then .probe
  else if op = 4 ∧ w.getLsbD 4 = false ∧ (w.extractLsb' 5 6).toNat ≤ 32 then .getbits (w.extractLsb' 5 6)
  else .illegal w

/-- Why four bytes are no row of the header table (R118): they hold no sync. -/
inductive NoSync where
  /-- `h[0] != 0xFF`. -/
  | firstByte
  /-- `H[23:21] != 0b111`. -/
  | syncBits
  deriving DecidableEq, Repr

/-- The fields of R110 below the layer code. -/
def headerFields (h : Word) : HeaderFields where
  protection := h.extractLsb' 16 1
  bitrate := h.extractLsb' 12 4
  sr := h.extractLsb' 10 2
  padding := h.extractLsb' 9 1
  privBit := h.extractLsb' 8 1
  mode := h.extractLsb' 6 2
  modeExt := h.extractLsb' 4 2
  copyright := h.extractLsb' 3 1
  original := h.extractLsb' 2 1
  emphasis := h.extractLsb' 0 2

/-- The kind of a synchronised header word whose indexes are legal, by version and layer code (R117, R118). -/
def headerKind (h : Word) : Instr :=
  let rest := h.extractLsb' 0 17
  let f := headerFields h
  match (h.extractLsb' 19 2).toNat, (h.extractLsb' 17 2).toNat with
  | 3, 3 => .mpeg1L1 f
  | 3, 2 => .mpeg1L2 f
  | 3, 1 => .mpeg1L3 f
  | 3, _ => .invalidLayer00Mpeg1 rest
  | 2, 3 => .mpeg2L1 f
  | 2, 2 => .mpeg2L2 f
  | 2, 1 => .mpeg2L3 f
  | 2, _ => .invalidLayer00Mpeg2 rest
  | 0, 3 => .invalidMpeg25L1 rest
  | 0, 2 => .invalidMpeg25L2 rest
  | 0, 1 => .mpeg25L3 f
  | 0, _ => .invalidLayer00Mpeg25 rest
  | _, _ => .invalidVersion01 (h.extractLsb' 0 19)

/-- Header decode, total on every 32-bit word `H` (R110, R117, R118). Where a word belongs to several invalid
rows the bitrate row is named first, then the sample-rate row (log entry 2; every one of them is passed over). -/
def decodeHeader (h : Word) : Except NoSync Instr :=
  if h.extractLsb' 24 8 ≠ 0xFF then .error .firstByte
  else if h.extractLsb' 21 3 ≠ 7 then .error .syncBits
  else if h.extractLsb' 12 4 = 15 then .ok (.invalidBitrate15 (h.extractLsb' 16 5) (h.extractLsb' 0 12))
  else if h.extractLsb' 10 2 = 3 then .ok (.invalidSr3 (h.extractLsb' 12 9) (h.extractLsb' 0 10))
  else .ok (headerKind h)

/-- One decoder for both kinds of word. -/
def decodeIn (sp : Space) (w : Word) : Option Instr :=
  match sp with
  | .command => some (decodeCommand w)
  | .header => (decodeHeader w).toOption

/-- The eleven sync bits of a header word (R110). -/
def hasSync (w : Word) : Bool := w.extractLsb' 21 11 == 0x7FF

/-- Which kind of word a bare table word is: one with the sync is a header row's, any other a command row's
(log entry 1; no legal command word has bits 31:21 set). -/
def tableSpace (w : Word) : Space := if hasSync w then .header else .command

/-- The word of a table row: `w` cut to its `nbits` bits. -/
def tableWord (nbits w : Nat) : Word := BitVec.ofNat 32 (w % 2 ^ nbits)

/-- What the decoder reads from a table row's word. Every instruction has 32 bits. -/
def decodeTableWord (nbits w : Nat) : Option Instr :=
  if nbits ≤ 32 then decodeIn (tableSpace (tableWord nbits w)) (tableWord nbits w) else none

/-- H of the four bytes at increasing offsets: `h[0]` in bits 31:24 (R83, R110). -/
def headerWord (h0 h1 h2 h3 : Byte) : Word := h0 ++ h1 ++ h2 ++ h3

/-- Byte `i` of a header word, `h[i]` (R110). -/
def headerByte (h : Word) (i : Nat) : Byte := h.extractLsb' (24 - 8 * i) 8

/-- H[16:0] of R110's field list. -/
def HeaderFields.encode (f : HeaderFields) : BitVec 17 :=
  f.protection ++ f.bitrate ++ f.sr ++ f.padding ++ f.privBit ++ f.mode ++ f.modeExt ++ f.copyright ++ f.original ++ f.emphasis

/-- H from its sync, version and layer bits and the rest. -/
def headerOf (top : BitVec 15) (rest : BitVec 17) : Word := top ++ rest

/-- The word of an instruction, from the match column of the opcode table (R100, R117, R118). -/
def encode : Instr → Word
  | .reset => 0x00000001
  | .decode => 0x00000002
  | .decodeNw => 0x00000012
  | .probe => 0x00000003
  | .getbits n => (0 : BitVec 21) ++ n ++ (4 : BitVec 5)
  | .illegal w => w
  | .mpeg1L3 f => headerOf 0x7FFD f.encode
  | .mpeg2L3 f => headerOf 0x7FF9 f.encode
  | .mpeg25L3 f => headerOf 0x7FF1 f.encode
  | .mpeg1L1 f => headerOf 0x7FFF f.encode
  | .mpeg1L2 f => headerOf 0x7FFE f.encode
  | .mpeg2L1 f => headerOf 0x7FFB f.encode
  | .mpeg2L2 f => headerOf 0x7FFA f.encode
  | .invalidVersion01 r => (0x1FFD : BitVec 13) ++ r
  | .invalidLayer00Mpeg1 r => headerOf 0x7FFC r
  | .invalidLayer00Mpeg2 r => headerOf 0x7FF8 r
  | .invalidLayer00Mpeg25 r => headerOf 0x7FF0 r
  | .invalidMpeg25L1 r => headerOf 0x7FF3 r
  | .invalidMpeg25L2 r => headerOf 0x7FF2 r
  | .invalidBitrate15 hi lo => (0x7FF : BitVec 11) ++ hi ++ (15 : BitVec 4) ++ lo
  | .invalidSr3 hi lo => (0x7FF : BitVec 11) ++ hi ++ (3 : BitVec 2) ++ lo

end Sys2Proof
end

