-- ==== Sys2Proof/Config.lean ====
section
/-! DEFINITION. What one MPADEC fixes (`00_scope.md` R10) and the values the spec leaves open.
A parameter with a value is a `def`; a parameter the spec calls OPEN and every `draw()` is an `opaque`
constant with no body, so that no proof can learn anything of it. -/

namespace Sys2Proof

/-- The exact-real right side of one real-valued rule, as data: what R13 calls exact real arithmetic, written
over the rule's real operands. The parameter `P_FP` (R15) evaluates it in binary32; `Machine/Exact.lean`
gives its exact real value. -/
inductive RExpr where
  /-- The rule's real operand number `i`. -/
  | opd (i : Nat)
  /-- The rational `n / d`. -/
  | ratio (n : Int) (d : Nat)
  /-- `m ^ (4/3)` (R270). -/
  | pow43 (m : Nat)
  /-- `2 ^ (n/d)`. -/
  | exp2 (n : Int) (d : Nat)
  /-- `sin (π * n / d)`. -/
  | sinPi (n : Int) (d : Nat)
  /-- `cos (π * n / d)`. -/
  | cosPi (n : Int) (d : Nat)
  | sqrt (a : RExpr)
  | neg (a : RExpr)
  | add (a b : RExpr)
  | sub (a b : RExpr)
  | mul (a b : RExpr)
  | div (a b : RExpr)
  deriving DecidableEq, Repr, Inhabited

/-- One real-valued rule (R15): the numbered rule, with the integers that its right side is written in. Its real operands
are given beside it, `Rule.rhs` is its exact-real right side, and `ms` is R274's leave: whether MS stereo is on
in the frame, for an implementation that folds the MS gain into the requantisation and undoes it in intensity bands
(log entry 17, DESIGN CHOICE). -/
inductive Rule where
  /-- R271: `q[l]`, `global_gain`, `scalefac_scale`, `sf_l[s]`, `preflag`, `PRETAB[s]`. -/
  | requantLong (q : Int) (globalGain : Nat) (scalefacScale : Bool) (sf : Nat) (preflag : Bool) (pretab : Nat) (ms : Bool)
  /-- R272: `q[l]`, `global_gain`, `subblock_gain[w]`, `scalefac_scale`, `sf_s[s][w]`. -/
  | requantShort (q : Int) (globalGain subblockGain : Nat) (scalefacScale : Bool) (sf : Nat) (ms : Bool)
  /-- R281, the left output. -/
  | msLeft
  /-- R281, the right output. -/
  | msRight
  /-- R289 with R287's coefficient of the left or right output. -/
  | intensityMpeg1 (right : Bool) (isPos : Nat) (ms : Bool)
  /-- R289 with R288's coefficient of the left or right output. -/
  | intensityLsf (right : Bool) (intensityScale isPos : Nat) (ms : Bool)
  /-- R303, the line below the boundary, with R302's coefficient pair `i`. -/
  | antialiasLow (i : Nat)
  /-- R303, the line above the boundary. -/
  | antialiasHigh (i : Nat)
  /-- R305, output `i` of length `n`. -/
  | imdct (n i : Nat)
  /-- R307 with R306's window `win[bt][i]`. -/
  | longWindow (bt i : Nat)
  /-- R308, `z[i]`. -/
  | shortWindows (i : Nat)
  /-- R316. -/
  | overlapAdd
  /-- R317. -/
  | invert
  /-- R331, `Vn[i]`. -/
  | matrixing (i : Nat)
  /-- R331, `y[j]`. -/
  | sample (j : Nat)
  deriving DecidableEq, Repr, Inhabited

/-- A complete prefix code as its binary tree: every infinite bit string reaches exactly one leaf, which is
what R255 requires of `P_HUFF`. Bit 0 takes the first branch, bit 1 the second. -/
inductive PrefixCode (α : Type) where
  | leaf (a : α)
  | node (zero one : PrefixCode α)
  deriving DecidableEq, Repr, Inhabited

namespace Config

/-- `P_RES_MAX`: capacity of the bit reservoir in bytes. -/
def resMax : Nat := 511
/-- `P_SYNC_MATCHES`: following headers checked before a candidate is accepted. -/
def syncMatches : Nat := 10
/-- `P_OVERLAP_WORDS`: overlap words per channel in the architectural form (`90_conflicts.md` C1). -/
def overlapWords : Nat := 576
/-- Rows of synthesis history per channel (R55); with 64 values a row, R332 packs them in `P_QMF_WORDS` = 960. -/
def historyRows : Nat := 15
/-- `P_QMF_WORDS`: words of DOC's storage of the history of both channels (R332). -/
def qmfWords : Nat := 960
/-- `P_BIG_VALUES_MAX`. -/
def bigValuesMax : Nat := 288
/-- `P_MAX_FF`: bound of the free-format stride search, and of the cached size (R194, R52). -/
def maxFreeFormat : Nat := 2304
/-- `P_SCRATCH`: capacity of the main-data buffer in bytes (R62). -/
def scratch : Nat := resMax + maxFreeFormat
/-- `P_IN_BUF_SIZE` in bytes. -/
def inBufSize : Nat := 16384
/-- `P_PCM_WORDS`: 16-bit words of PCM_BUF. -/
def pcmWords : Nat := 2304
/-- `P_MPEG25`: MPEG-2.5 Layer III is decoded (D11). -/
def mpeg25 : Bool := true

/-- `P_FP`, OPEN (R15, D9): the binary32 evaluation of a real-valued rule, given the rule, its exact-real right
side (which the rule determines) and its real operands. Use `Machine.evalRule`, which adds the one property R15
assumes. -/
opaque fp : Rule → RExpr → List Word → Word

/-- `P_SYNTH_D`, OPEN (R334): coefficient `D[m]`, as numerator and denominator. -/
opaque synthD : Nat → Int × Nat

/-- `P_HUFF`, OPEN for codebooks 5-13, 15, 16 and 24 (R151). -/
opaque openCodebook : Nat → PrefixCode (Nat × Nat)

/-- `draw()` of one bit of MD at or past the valid length (R62, R164). -/
opaque drawBit : Nat → Bool

/-- `draw()` of the value a host read returns while BUSY = 1 (R91). -/
opaque drawWord : Nat → Word

/-- The power-on content of the byte at a window offset (R430: "each byte is `draw()`"). -/
opaque powerOnByte : Nat → Byte

/-- Which agent moves next when a host access meets BUSY = 1: the time a command takes is not specified
(R447), so either may (true: the engine). -/
opaque engineFirst : Nat → Bool

/-- The PCM word of a sample that is no finite number: R335 states none, and R15 does not exclude that
`P_FP` gives one. -/
opaque pcmOfNonFinite : Word → Half

end Config
end Sys2Proof
end

