-- ==== Sys2Proof/Machine/State.lean ====
section
/-! DEFINITION. Everything the spec gives MPADEC as state (`10_state.md`), as plain data, and its value after
power-on reset (`70_reset_and_hazards.md` R430). -/

namespace Sys2Proof.Machine

/-- The reasons a step could stop with a fault: none. MPADEC never stops a program and has no bus error
(`60_exceptions.md` R420, `20_memory.md` R86); every failure of a command is a result code (R400). -/
inductive Fault : Type
  deriving DecidableEq, Repr

/-- The reasons a step is refused. All are safe: a run that meets one proves nothing. -/
inductive Refusal where
  /-- Raised by an arm of `exec` whose instruction has no meaning yet: by none in this model. Safe. -/
  | notModelled (mnemonic : String)
  /-- Raised by a host access at an offset that is no multiple of its width (R86, R440.1). Safe. -/
  | misaligned
  /-- Raised by a host access of a width its region does not accept (R80, R86, R440.1). Safe. -/
  | badWidth
  /-- Raised by a host write of IN_BUF, IN_OFF, IN_LEN, BR_POS or BR_LIMIT while BUSY = 1 (R91, R440.2). Safe. -/
  | hostRace
  /-- Raised by a header row outside a scanning command: the spec gives a header no effect there (R92). Safe. -/
  | headerNotScanned
  deriving DecidableEq, Repr

/-- Result codes of a command (R400). -/
inductive ResultCode where
  | ok | noFrame | corrupt | resUnderflow | unsupported | illegalCmd | badArgs
  deriving DecidableEq, Repr, Inhabited

/-- Which command a header scan belongs to. -/
inductive ScanMode where
  /-- PROBE (R210). -/
  | probe
  /-- DECODE, or DECODE.nw when `nowrite` (R360, R361). -/
  | decode (nowrite : Bool)
  deriving DecidableEq, Repr, Inhabited

/-- Where the engine stands: R33's command-local position, which plays the role of a program counter (R30).
STATUS.BUSY is 1 exactly when it is not `idle`. -/
inductive Engine where
  /-- No command: BUSY = 0. -/
  | idle
  /-- A command word was accepted into CMD and has not run yet. -/
  | command
  /-- The frame search of a command stands before the header at slice offset `pos` (R190). -/
  | scan (mode : ScanMode) (pos : Nat)
  deriving DecidableEq, Repr, Inhabited

/-- Width of a host access (R80). -/
inductive Width where
  | b1 | b2 | b4
  deriving DecidableEq, Repr, Inhabited

/-- One host step (R446): a bus access at a 16-bit window offset (R80), or R103's WAIT. A narrow write takes the
low bits of `value`. -/
inductive HostOp where
  | read (width : Width) (off : BitVec 16)
  | write (width : Width) (off : BitVec 16) (value : Word)
  | wait
  deriving DecidableEq, Repr, Inhabited

/-- The persistent signal state of one channel (R54, R55). -/
structure Channel where
  /-- `overlap[ch][sb][i]` at index `18*sb + i`. -/
  overlap : Vector Word 576
  /-- `V[ch][r][i]`, row 0 the most recent. -/
  history : Vector (Vector Word 64) 15
  deriving DecidableEq, Repr

/-- All 0.0 (R54, R55). -/
def Channel.zero : Channel := ⟨Vector.replicate 576 0, Vector.replicate 15 (Vector.replicate 64 0)⟩

/-- The two buffers of the host window, as the bytes that have been written, by window offset (R80). -/
abbrev Memory := List Host.Cell

/-- The canonical form: offsets strictly rising. An unlisted offset holds no written value, so no entry can
equal it. -/
abbrev Memory.wf (m : Memory) : Prop := m.Pairwise (fun a b => a.1 < b.1)

structure State where
  /-- CMD: the last accepted command word (R31). -/
  cmd : Word
  /-- The engine's position; gives STATUS.BUSY (R32, R33). -/
  engine : Engine
  /-- STATUS.DONE. -/
  done : Bool
  /-- STATUS.OVERRUN. -/
  overrun : Bool
  /-- STATUS.RESULT. -/
  result : ResultCode
  /-- IRQ_EN bit 0, DONE_IE. -/
  irqEn : Bool
  inOff : Word
  inLen : Word
  resOffset : Word
  resFrameBytes : Word
  resSamples : Word
  resInfo : Word
  resHz : Word
  resKbps : Word
  brPos : Word
  brLimit : Word
  brData : Word
  /-- `last_header` as H, byte 0 in the high bits (R51). -/
  lastHeader : Word
  /-- `free_format_frame_size` (R52). -/
  freeFormat : Nat
  /-- The valid bytes of `reservoir_buf`; their number is `reservoir_len` (R53). -/
  reservoir : List Byte
  /-- The valid bytes of `MD`; their number is `md_len` (R62). -/
  mainData : List Byte
  /-- Channel 0 of `overlap` and `V`. -/
  chan0 : Channel
  /-- Channel 1 of `overlap` and `V`. -/
  chan1 : Channel
  /-- IN_BUF and PCM_BUF (R80). -/
  mem : Memory
  /-- The model's own: the host accesses still to come, in program order (R89). -/
  bus : List HostOp
  /-- The model's own: what the last host read returned. -/
  busData : Word
  /-- The model's own: how many free values the run has drawn. -/
  draws : Nat
  deriving DecidableEq, Repr

/-- Power-on reset (R430). `busData`, `bus` and `draws` are the model's own (log entries 5, 6, 7). -/
def State.reset : State where
  cmd := 0
  engine := .idle
  done := false
  overrun := false
  result := .ok
  irqEn := false
  inOff := 0
  inLen := 0
  resOffset := 0
  resFrameBytes := 0
  resSamples := 0
  resInfo := 0
  resHz := 0
  resKbps := 0
  brPos := 0
  brLimit := 0
  brData := 0
  lastHeader := 0
  freeFormat := 0
  reservoir := []
  mainData := []
  chan0 := Channel.zero
  chan1 := Channel.zero
  mem := []
  bus := []
  busData := 0
  draws := 0

/-- STATUS.BUSY (R32). -/
def State.busy (s : State) : Bool := s.engine != .idle

end Sys2Proof.Machine
end

