-- ==== Sys2Proof/Machine/Flags.lean ====
section
/-! DEFINITION. The status flags: STATUS as the host reads it, and the interrupt line
(`10_state.md` R32, `60_exceptions.md` R400, R410). -/

namespace Sys2Proof.Machine

/-- The 4-bit code of a result (R400). -/
def ResultCode.code : ResultCode → BitVec 4
  | .ok => 0
  | .noFrame => 1
  | .corrupt => 2
  | .resUnderflow => 3
  | .unsupported => 4
  | .illegalCmd => 5
  | .badArgs => 6

/-- The interrupt line, and STATUS.IRQ (R410). -/
def State.irq (s : State) : Bool := s.done && s.irqEn

/-- STATUS as read (R32). -/
def State.statusWord (s : State) : Word :=
  (0 : BitVec 24) ++ s.result.code ++ BitVec.ofBool s.irq ++ BitVec.ofBool s.overrun ++ BitVec.ofBool s.done ++ BitVec.ofBool s.busy

/-- A host write of STATUS: writing 1 clears DONE (bit 1) and OVERRUN (bit 2); the other bits are read-only (R32). -/
def State.writeStatus (v : Word) (s : State) : State :=
  { s with done := s.done && !v.getLsbD 1, overrun := s.overrun && !v.getLsbD 2 }

end Sys2Proof.Machine
end

