-- ==== Sys2Proof/Machine/Ops.lean ====
section
/-! DEFINITION. The named operations over memory, the DecoderState and the result registers, and the one shared
operation by which every command ends (R34), which is MPADEC's whole exception mechanism (R420). -/

namespace Sys2Proof.Machine

/-! ### Memory (R80, R84) -/

/-- Window offset of IN_BUF (R80). -/
def inBase : Nat := 0x1000
/-- Window offset of PCM_BUF (R80). -/
def pcmBase : Nat := 0x8000

/-- The written byte at an offset, if any. -/
def Memory.find? : Memory → Nat → Option Byte
  | [], _ => none
  | c :: m, a => if c.1 = a then some c.2 else Memory.find? m a

/-- The byte at an offset: as last written, else its power-on content, which is a free value (R430; log entry
13, DESIGN CHOICE). -/
def Memory.read (m : Memory) (a : Nat) : Byte := (m.find? a).getD (Config.powerOnByte a)

/-- The cells of consecutive bytes from offset `a`. -/
def Memory.cells : Nat → List Byte → Memory
  | _, [] => []
  | a, b :: bs => (a, b) :: Memory.cells (a + 1) bs

/-- Store consecutive bytes from offset `a`. -/
def Memory.write (m : Memory) (a : Nat) (bs : List Byte) : Memory :=
  m.filter (fun c => c.1 < a) ++ Memory.cells a bs ++ m.filter (fun c => a + bs.length ≤ c.1)

/-- The low `n` bytes of a word, least significant first: host bus byte order (R84). -/
def bytesLE (n : Nat) (v : Word) : List Byte := (List.range n).map fun i => v.extractLsb' (8 * i) 8

/-- The 16-bit words' bytes in PCM_BUF order (R84, R85). -/
def halfBytes : List Half → List Byte
  | [] => []
  | w :: ws => w.extractLsb' 0 8 :: w.extractLsb' 8 8 :: halfBytes ws

/-- `n` bytes from offset `a` as a word, least significant first (R84). -/
def Memory.readLE (m : Memory) : Nat → Nat → Nat
  | _, 0 => 0
  | a, n + 1 => (m.read a).toNat + 256 * m.readLE (a + 1) n

/-- Write PCM words `[0, ws.length)` (R85, R336). -/
def State.writePcm (ws : List Half) (s : State) : State := { s with mem := s.mem.write pcmBase (halfBytes ws) }

/-! ### The end of a command -/

/-- `raise Result(code)`: the one step that ends every command (R34): RESULT, DONE and BUSY, and nothing else. No
state is saved and no control is transferred (R420). -/
def State.raiseResult (code : ResultCode) (s : State) : State := { s with result := code, done := true, engine := .idle }

/-- What takes the place of a return from an exception (R420): the host's write of 1 to STATUS.DONE. -/
def State.acknowledge (s : State) : State := s.writeStatus 2

/-! ### DecoderState and result registers -/

/-- `state_reset()` (R381). -/
def State.stateReset (s : State) : State :=
  { s with lastHeader := 0, freeFormat := 0, reservoir := [], chan0 := .zero, chan1 := .zero }

/-- RES_OFFSET, RES_FRAME_BYTES and RES_SAMPLES. -/
def State.setResult (off bytes samples : Nat) (s : State) : State :=
  { s with resOffset := BitVec.ofNat 32 off, resFrameBytes := BitVec.ofNat 32 bytes, resSamples := BitVec.ofNat 32 samples }

/-- RES_INFO, RES_HZ and RES_KBPS. -/
def State.setFormat (info hz kbps : Word) (s : State) : State := { s with resInfo := info, resHz := hz, resKbps := kbps }

/-! ### Vectors -/

/-- A vector from its entries. -/
def tabulate {α : Type} (n : Nat) (f : Nat → α) : Vector α n := Vector.ofFn fun i => f i.val

/-- Entry `i`, or `d` past the end. -/
def entry {α : Type} {n : Nat} (v : Vector α n) (i : Nat) (d : α) : α := if h : i < n then v[i] else d

end Sys2Proof.Machine
end

