-- ==== Sys2Proof/Machine/Operands.lean ====
section
/-! DEFINITION. The operand forms of the commands: the input slice (R82, R83) and the bit reader with its two read
primitives (`40_bitreader.md` R160-R166). -/

namespace Sys2Proof.Machine

/-! ### The input slice -/

/-- `S = IN_BUF[IN_OFF, IN_OFF + IN_LEN)`. -/
structure Slice where
  mem : Memory
  off : Nat
  len : Nat
  deriving DecidableEq, Repr

def State.slice (s : State) : Slice := ⟨s.mem, s.inOff.toNat, s.inLen.toNat⟩

/-- Byte `S[p]`. -/
def Slice.byte (S : Slice) (p : Nat) : Byte := S.mem.read (inBase + S.off + p)

/-- The header word of `S[p..p+4)` (R83, R110). -/
def Slice.word (S : Slice) (p : Nat) : Word := headerWord (S.byte p) (S.byte (p + 1)) (S.byte (p + 2)) (S.byte (p + 3))

/-- The bytes `S[p, p + n)`. -/
def Slice.bytes (S : Slice) (p n : Nat) : List Byte := (List.range n).map fun i => S.byte (p + i)

/-- R82: `IN_OFF + IN_LEN <= P_IN_BUF_SIZE`, computed without wrap. -/
def State.argsOk (s : State) : Bool := s.inOff.toNat + s.inLen.toNat ≤ Config.inBufSize

/-! ### The bit reader -/

/-- A bit reader (R160). `draws` counts the free values its raw reads have taken. -/
structure BitReader where
  buf : List Byte
  pos : Nat
  limit : Nat
  draws : Nat
  deriving DecidableEq, Repr

/-- Bit `p` of a byte sequence: bit `7 - (p mod 8)` of byte `p div 8` (R12, R160). -/
def bitOf (buf : List Byte) (p : Nat) : Bool := (buf.getD (p / 8) 0).getLsbD (7 - p % 8)

/-- Bits `[p, p + n)` as a value, the first bit most significant (R12). -/
def bitsValue (buf : List Byte) (p : Nat) : Nat → Nat
  | 0 => 0
  | n + 1 => 2 * bitsValue buf p n + (bitOf buf (p + n)).toNat

/-- `get_bits(br, n)`: the cursor always advances, and a read that ends past the limit is 0 as a whole (R161). -/
def BitReader.getBits (r : BitReader) (n : Nat) : Nat × BitReader :=
  (if r.pos + n > r.limit then 0 else bitsValue r.buf r.pos n, { r with pos := r.pos + n })

/-- `get_bits(br, 1)` as a flag. -/
def BitReader.getFlag (r : BitReader) : Bool × BitReader :=
  let (v, r) := r.getBits 1
  (v != 0, r)

/-- `overread(br)` (R163). -/
def BitReader.overread (r : BitReader) : Bool := r.limit < r.pos

/-- `raw_bits(br, 1)`: ignores the limit; past the buffer's valid bytes the bit is a free value (R164, R62). -/
def BitReader.rawBit (r : BitReader) : Bool × BitReader :=
  if r.pos < 8 * r.buf.length then (bitOf r.buf r.pos, { r with pos := r.pos + 1 })
  else (Config.drawBit r.draws, { r with pos := r.pos + 1, draws := r.draws + 1 })

/-- `raw_bits(br, n)`, most significant bit first, on from the value `v` read so far (R164). -/
def BitReader.rawBitsOn (v : Nat) : Nat → BitReader → Nat × BitReader
  | 0, r => (v, r)
  | n + 1, r =>
    let (b, r) := r.rawBit
    BitReader.rawBitsOn (2 * v + b.toNat) n r

/-- `raw_bits(br, n)` (R164). -/
def BitReader.rawBits (r : BitReader) (n : Nat) : Nat × BitReader := BitReader.rawBitsOn 0 n r

/-- Repeat a read `n` times, collecting the values in order. -/
def BitReader.collect {α : Type} (read : BitReader → α × BitReader) : Nat → BitReader → List α × BitReader
  | 0, r => ([], r)
  | n + 1, r =>
    let (a, r) := read r
    let (as, r) := BitReader.collect read n r
    (a :: as, r)

/-- The bytes of IN_BUF, the buffer of the GETBITS reader (R167). -/
def State.inBuf (s : State) : List Byte := (List.range Config.inBufSize).map fun i => s.mem.read (inBase + i)

end Sys2Proof.Machine
end

