-- ==== Sys2Proof/Machine/Header.lean ====
section
/-! DEFINITION. The frame header parser: validity, comparison, fields, frame length (`30_encoding.md` R110-R119,
`41_framesync.md` R180-R187). A header is its 32-bit word `H`. -/

namespace Sys2Proof.Machine

/-! ### Fields (R110) -/

def hdrVersionCode (h : Word) : Nat := (h.extractLsb' 19 2).toNat
def hdrLayerCode (h : Word) : Nat := (h.extractLsb' 17 2).toNat
def hdrBitrateIndex (h : Word) : Nat := (h.extractLsb' 12 4).toNat
def hdrSrIndex (h : Word) : Nat := (h.extractLsb' 10 2).toNat
def hdrPadded (h : Word) : Bool := h.getLsbD 9
def hdrMode (h : Word) : Nat := (h.extractLsb' 6 2).toNat

/-- A 16-bit CRC follows the header: protection bit 0 (R110, R119). -/
def hdrCrc (h : Word) : Bool := !h.getLsbD 16

/-- Free-format: bitrate index 0 (R110). -/
def hdrFree (h : Word) : Bool := hdrBitrateIndex h == 0

/-- `hdr_valid(h)` (R111). -/
def hdrValid (h : Word) : Bool :=
  h.extractLsb' 24 8 == 0xFF && h.extractLsb' 21 3 == 7
    && (h.getLsbD 20 || (Config.mpeg25 && hdrVersionCode h == 0 && hdrLayerCode h == 1))
    && hdrLayerCode h != 0 && hdrBitrateIndex h != 15 && hdrSrIndex h != 3

/-- `hdr_compare(a, b)` (R112). -/
def hdrCompare (a b : Word) : Bool :=
  hdrValid b && hdrVersionCode a == hdrVersionCode b && hdrLayerCode a == hdrLayerCode b
    && hdrSrIndex a == hdrSrIndex b && hdrFree a == hdrFree b

/-! ### Derived values (R113-R116, R182) -/

/-- 1, 2 or 3. -/
def hdrLayer (h : Word) : Nat := 4 - hdrLayerCode h

/-- 0 for MPEG-1, 1 for MPEG-2, 2 for MPEG-2.5; also `vgroup` of R114. -/
def hdrVersion (h : Word) : Nat := if hdrVersionCode h = 3 then 0 else if hdrVersionCode h = 2 then 1 else 2

/-- The bitrate row of a version and layer, in kbit/s, entry 0 standing for free-format (R113, D39). -/
def bitrateRow (version layer : Nat) : List Nat :=
  if version = 0 then
    if layer = 1 then [0, 32, 64, 96, 128, 160, 192, 224, 256, 288, 320, 352, 384, 416, 448]
    else if layer = 2 then [0, 32, 48, 56, 64, 80, 96, 112, 128, 160, 192, 224, 256, 320, 384]
    else [0, 32, 40, 48, 56, 64, 80, 96, 112, 128, 160, 192, 224, 256, 320]
  else if layer = 1 then [0, 32, 48, 56, 64, 80, 96, 112, 128, 144, 160, 176, 192, 224, 256]
  else [0, 8, 16, 24, 32, 40, 48, 56, 64, 80, 96, 112, 128, 144, 160]

/-- Bitrate in kbit/s, 0 for free-format (R182). -/
def hdrKbps (h : Word) : Nat := (bitrateRow (hdrVersion h) (hdrLayer h)).getD (hdrBitrateIndex h) 0

/-- The nine sample rates by `sfreq` (R114). -/
def rateTable : List Nat := [44100, 48000, 32000, 22050, 24000, 16000, 11025, 12000, 8000]

/-- `sfreq = 3*vgroup + sr_index` (R114). -/
def hdrSfreq (h : Word) : Nat := 3 * hdrVersion h + hdrSrIndex h

/-- Sample rate in Hz (R182). -/
def hdrHz (h : Word) : Nat := rateTable.getD (hdrSfreq h) 0

/-- `channel_count` (R115). -/
def hdrChannels (h : Word) : Nat := if hdrMode h = 3 then 1 else 2

/-- MS stereo is on for a Layer III frame (R115). -/
def hdrMsOn (h : Word) : Bool := hdrMode h == 1 && h.getLsbD 5

/-- Intensity stereo is on for a Layer III frame (R115). -/
def hdrIntensityOn (h : Word) : Bool := hdrMode h == 1 && h.getLsbD 4

/-- Granules of a Layer III frame: 2 for MPEG-1, 1 for MPEG-2 and 2.5 (R116, R330). -/
def hdrGranules (h : Word) : Nat := if hdrVersion h = 0 then 2 else 1

/-- `frame_samples(h)` (R116, R187). -/
def hdrSamples (h : Word) : Nat :=
  if hdrLayer h = 1 then 384 else if hdrLayer h = 2 then 1152 else 576 * hdrGranules h

/-! ### Frame length (R183-R186) -/

/-- `pad(h)` (R183). -/
def hdrPad (h : Word) : Nat := if !hdrPadded h then 0 else if hdrLayer h = 1 then 4 else 1

/-- `cbr_bytes(h)` (R184). -/
def hdrCbrBytes (h : Word) : Nat :=
  if hdrLayer h = 1 then 4 * (12000 * hdrKbps h / hdrHz h)
  else if hdrLayer h = 2 ∨ hdrVersion h = 0 then 144000 * hdrKbps h / hdrHz h
  else 72000 * hdrKbps h / hdrHz h

/-- `frame_bytes(h, ff)` (R185). -/
def hdrFrameBytes (h : Word) (ff : Nat) : Nat := if hdrFree h then ff else hdrCbrBytes h

/-- `frame_len(h, ff)` (R186). -/
def hdrFrameLen (h : Word) (ff : Nat) : Nat := if hdrFrameBytes h ff = 0 then 0 else hdrFrameBytes h ff + hdrPad h

/-! ### Result registers written from a header -/

/-- RES_INFO of a header (R35, R182): MODEXT, MODE, PAD, CRC, FREE, VERSION, LAYER, CHANNELS from high to low. -/
def hdrInfo (h : Word) : Word :=
  (0 : BitVec 19) ++ h.extractLsb' 4 2 ++ h.extractLsb' 6 2 ++ BitVec.ofBool (hdrPadded h) ++ BitVec.ofBool (hdrCrc h)
    ++ BitVec.ofBool (hdrFree h) ++ BitVec.ofNat 2 (hdrVersion h) ++ BitVec.ofNat 2 (hdrLayer h) ++ BitVec.ofNat 2 (hdrChannels h)

/-- Write RES_INFO, RES_HZ, RES_KBPS from `h` (R182). -/
def State.setFormatOf (h : Word) (s : State) : State :=
  s.setFormat (hdrInfo h) (BitVec.ofNat 32 (hdrHz h)) (BitVec.ofNat 32 (hdrKbps h))

end Sys2Proof.Machine
end

