-- ==== Sys2Proof/Machine/FrameSync.lean ====
section
/-! DEFINITION. Frame synchronisation: the genuineness walk, the free-format probe, the search and the fast path
(`41_framesync.md` R190-R201). -/

namespace Sys2Proof.Machine

/-- The loop of `genuine` (R192): `fuel` matches may still follow, `m` have been found, the frame at `p` has
length `len`. -/
def genuineFrom (S : Slice) (h0 : Word) (ff : Nat) : Nat → Nat → Nat → Nat → Bool
  | 0, _, _, _ => true
  | fuel + 1, m, p, len =>
    let q := p + len
    if q + 4 > S.len then decide (m ≥ 1) || q == S.len
    else if !hdrCompare h0 (S.word q) then false
    else genuineFrom S h0 ff fuel (m + 1) q (hdrFrameLen (S.word q) ff)

/-- `genuine(S, L, i, fl, ff)` for the header `h0` at `i` (R192): true after `P_SYNC_MATCHES` matches. -/
def genuine (S : Slice) (h0 : Word) (i fl ff : Nat) : Bool := genuineFrom S h0 ff Config.syncMatches 0 i fl

/-- The stride loop of `free_format_probe` (R194): `n` strides left to try, from `k` on. -/
def freeProbeFrom (S : Slice) (i : Nat) (h : Word) : Nat → Nat → Nat × Nat
  | 0, _ => (0, 0)
  | n + 1, k =>
    if i + k + 4 > S.len then (0, 0)
    else
      let fb := k - hdrPad h
      let nfl := fb + hdrPad (S.word (i + k))
      if hdrCompare h (S.word (i + k)) && decide (hdrPad h < k) && decide (i + k + nfl + 4 ≤ S.len)
          && hdrCompare h (S.word (i + k + nfl)) then (k, fb)
      else freeProbeFrom S i h n (k + 1)

/-- `free_format_probe(S, L, i, h)`: frame length and free-format size, `(0, 0)` if none (R194). -/
def freeProbe (S : Slice) (i : Nat) (h : Word) : Nat × Nat := freeProbeFrom S i h (Config.maxFreeFormat - 4) 4

/-- The body of `find_frame`'s loop at candidate `i` with header `h`: frame length and free-format size if a genuine
frame starts there (R190). -/
def candidate (S : Slice) (i : Nat) (h : Word) : Option (Nat × Nat) :=
  if !hdrValid h then none
  else
    let found := if hdrFree h then freeProbe S i h else (hdrFrameLen h 0, 0)
    if found.1 > 0 && genuine S h i found.1 found.2 then some found else none

/-- `find_frame` from candidate `i` on, with `n` candidates left. -/
def findFrom (S : Slice) : Nat → Nat → Option (Nat × Nat × Nat)
  | 0, _ => none
  | n + 1, i =>
    match candidate S i (S.word i) with
    | some (fl, ff) => some (i, fl, ff)
    | none => findFrom S n (i + 1)

/-- `find_frame(S, L)`: offset, length and free-format size of the first genuine frame; candidates are `[0, L - 4)`
(R190). -/
def findFrame (S : Slice) : Option (Nat × Nat × Nat) := findFrom S (S.len - 4) 0

/-- The skip reported when no frame is found (R191). -/
def noFrameSkip (S : Slice) : Nat := S.len - 4

/-- `fast_path(S, L)`: the length of the compatible frame at offset 0, if any (R200). -/
def fastPath (s : State) : Option Nat :=
  let S := s.slice
  let h := S.word 0
  if S.len > 4 && s.lastHeader.extractLsb' 24 8 == 0xFF && hdrCompare s.lastHeader h then
    let fl := hdrFrameLen h s.freeFormat
    if fl = 0 then none
    else if fl = S.len then some fl
    else if fl + 4 > S.len || !hdrCompare h (S.word fl) then none
    else some fl
  else none

end Sys2Proof.Machine
end

