-- ==== Sys2Proof/Machine/Tables.lean ====
section
/-! DEFINITION. The read-only tables: scalefactor bands (parameter `P_SFB`, R225-R227), scalefactor lengths (R240,
R244), Huffman table map and codebooks (R150-R152), PRETAB (R273), antialias coefficients (R302). -/

namespace Sys2Proof.Machine

/-! ### Scalefactor bands -/

/-- Widths of the 22 long bands by `sfreq` (R225). -/
def longWidths (sfreq : Nat) : List Nat :=
  match sfreq with
  | 0 => [4, 4, 4, 4, 4, 4, 6, 6, 8, 8, 10, 12, 16, 20, 24, 28, 34, 42, 50, 54, 76, 158]
  | 1 => [4, 4, 4, 4, 4, 4, 6, 6, 6, 8, 10, 12, 16, 18, 22, 28, 34, 40, 46, 54, 54, 192]
  | 2 => [4, 4, 4, 4, 4, 4, 6, 6, 8, 10, 12, 16, 20, 24, 30, 38, 46, 56, 68, 84, 102, 26]
  | 4 => [6, 6, 6, 6, 6, 6, 8, 10, 12, 14, 16, 18, 22, 26, 32, 38, 46, 54, 62, 70, 76, 36]
  | 8 => [12, 12, 12, 12, 12, 12, 16, 20, 24, 28, 32, 40, 48, 56, 64, 76, 90, 2, 2, 2, 2, 2]
  | _ => [6, 6, 6, 6, 6, 6, 8, 10, 12, 14, 16, 20, 24, 28, 32, 38, 46, 52, 60, 68, 58, 54]

/-- Widths of the 13 short bands of one window by `sfreq` (R226). -/
def shortWidths (sfreq : Nat) : List Nat :=
  match sfreq with
  | 0 => [4, 4, 4, 4, 6, 8, 10, 12, 14, 18, 22, 30, 56]
  | 1 => [4, 4, 4, 4, 6, 6, 10, 12, 14, 16, 20, 26, 66]
  | 2 => [4, 4, 4, 4, 6, 8, 12, 16, 20, 26, 34, 42, 12]
  | 3 => [4, 4, 4, 6, 6, 8, 10, 14, 18, 26, 32, 42, 18]
  | 4 => [4, 4, 4, 6, 8, 10, 12, 14, 18, 24, 32, 44, 12]
  | 8 => [8, 8, 8, 12, 16, 20, 24, 28, 36, 2, 2, 2, 26]
  | _ => [4, 4, 4, 6, 8, 10, 12, 14, 18, 24, 30, 40, 18]

/-- Cumulative sums from `a`: the starts of the bands and, last, their end. -/
def bandStarts (a : Nat) : List Nat → List Nat
  | [] => [a]
  | w :: ws => a :: bandStarts (a + w) ws

/-- `lstart` (R223). -/
def longStarts (sfreq : Nat) : List Nat := bandStarts 0 (longWidths sfreq)

/-- `sstart` (R223). -/
def shortStarts (sfreq : Nat) : List Nat := bandStarts 0 (shortWidths sfreq)

/-- The band that holds position `x`: the last one that starts at or before it. -/
def bandAt (starts : List Nat) (x : Nat) : Nat := (starts.filter (fun a => a ≤ x)).length - 1

/-- Block kind of a granule (R134, R222). -/
inductive BlockKind where
  | long | short | mixed
  deriving DecidableEq, Repr, Inhabited

/-- Where a granule line lies: a long band, or a short band, window and per-window frequency (R223). -/
inductive Line where
  | long (s : Nat)
  | short (s w f : Nat)
  deriving DecidableEq, Repr, Inhabited

/-- The short-block line `l` (R223). -/
def shortLine (sfreq l : Nat) : Line :=
  let s := bandAt ((shortStarts sfreq).map (3 * ·)) l
  let start := (shortStarts sfreq).getD s 0
  let width := (shortWidths sfreq).getD s 1
  .short s ((l - 3 * start) / width) (start + (l - 3 * start) % width)

/-- Line mapping (R223); the long part of a mixed granule is lines `[0, 36)` (R227). -/
def lineOf (sfreq : Nat) (kind : BlockKind) (l : Nat) : Line :=
  match kind with
  | .long => .long (bandAt (longStarts sfreq) l)
  | .short => shortLine sfreq l
  | .mixed => if l < 36 then .long (bandAt (longStarts sfreq) l) else shortLine sfreq l

/-- The Huffman-order line of window `w` at per-window frequency `f` (R223, R300). -/
def lineAt (sfreq w f : Nat) : Nat :=
  let s := bandAt (shortStarts sfreq) f
  let start := (shortStarts sfreq).getD s 0
  3 * start + w * (shortWidths sfreq).getD s 1 + (f - start)

/-- `PRETAB` (R273). -/
def pretab : List Nat := [0, 0, 0, 0, 0, 0, 0, 0, 0, 0, 0, 1, 1, 1, 1, 2, 2, 3, 3, 3, 2, 0]

/-! ### Scalefactor lengths -/

/-- `SLEN`: slen1 and slen2 by scalefac_compress (R240). -/
def slenTable : List (Nat × Nat) :=
  [(0, 0), (0, 1), (0, 2), (0, 3), (3, 0), (1, 1), (1, 2), (1, 3), (2, 1), (2, 2), (2, 3), (3, 1), (3, 2), (3, 3), (4, 2), (4, 3)]

/-- `NSFB[tn][kind]` (R244). -/
def nsfb (tn : Nat) (kind : BlockKind) : List Nat :=
  match tn, kind with
  | 0, .long => [6, 5, 5, 5]
  | 0, .short => [9, 9, 9, 9]
  | 0, .mixed => [6, 9, 9, 9]
  | 1, .long => [6, 5, 7, 3]
  | 1, .short => [9, 9, 12, 6]
  | 1, .mixed => [6, 9, 12, 6]
  | 2, .long => [11, 10, 0, 0]
  | 2, .short => [18, 18, 0, 0]
  | 2, .mixed => [15, 18, 0, 0]
  | 3, .long => [7, 7, 7, 0]
  | 3, .short => [12, 12, 12, 0]
  | 3, .mixed => [6, 15, 12, 0]
  | 4, .long => [6, 6, 6, 3]
  | 4, .short => [12, 9, 9, 6]
  | 4, .mixed => [6, 12, 9, 6]
  | _, .long => [8, 8, 5, 0]
  | _, .short => [15, 12, 9, 0]
  | _, .mixed => [6, 18, 9, 0]

/-! ### Huffman tables -/

/-- Codebook and linbits of a `table_select` (R150); none for tables 0, 4 and 14, which have no codebook. -/
def huffTable (t : Nat) : Option (Nat × Nat) :=
  if t = 0 ∨ t = 4 ∨ t = 14 then none
  else if t < 16 then some (t, 0)
  else if t < 24 then some (16, [1, 2, 3, 4, 6, 8, 10, 13].getD (t - 16) 0)
  else some (24, [4, 5, 6, 7, 8, 9, 11, 13].getD (t - 24) 0)

/-- The largest coordinate of a codebook (R150). -/
def codebookMax (cb : Nat) : Nat :=
  if cb = 1 then 1 else if cb ≤ 3 then 2 else if cb ≤ 6 then 3 else if cb ≤ 9 then 5 else if cb ≤ 12 then 7 else 15

/-- Apply a function to every leaf. -/
def mapCode {α β : Type} (f : α → β) : PrefixCode α → PrefixCode β
  | .leaf a => .leaf (f a)
  | .node z o => .node (mapCode f z) (mapCode f o)

/-- Codebook 1 (R151). -/
def codebook1 : PrefixCode (Nat × Nat) :=
  .node (.node (.node (.leaf (1, 1)) (.leaf (0, 1))) (.leaf (1, 0))) (.leaf (0, 0))

/-- The part below `000` that codebooks 2 and 3 share (R151). -/
def codebook23Low : PrefixCode (Nat × Nat) :=
  .node (.node (.node (.leaf (2, 2)) (.leaf (0, 2))) (.leaf (1, 2))) (.node (.leaf (2, 1)) (.leaf (2, 0)))

/-- Codebook 2 (R151). -/
def codebook2 : PrefixCode (Nat × Nat) :=
  .node (.node (.node codebook23Low (.leaf (1, 1))) (.node (.leaf (0, 1)) (.leaf (1, 0)))) (.leaf (0, 0))

/-- Codebook 3 (R151). -/
def codebook3 : PrefixCode (Nat × Nat) :=
  .node (.node (.node codebook23Low (.leaf (1, 0))) (.leaf (1, 1))) (.node (.leaf (0, 1)) (.leaf (0, 0)))

/-- `P_HUFF[cb]` (R151): given for 1, 2 and 3, else a free prefix code whose coordinates stay in the codebook's
range (R150). -/
def codebook (cb : Nat) : PrefixCode (Nat × Nat) :=
  match cb with
  | 1 => codebook1
  | 2 => codebook2
  | 3 => codebook3
  | n => mapCode (fun p => (min p.1 (codebookMax n), min p.2 (codebookMax n))) (Config.openCodebook n)

/-- A count1 quadruple's magnitudes `(v, w, x, y)`, from the number `vwxy` (R152). -/
def quadOf (n : Nat) : List Nat := [n / 8 % 2, n / 4 % 2, n / 2 % 2, n % 2]

/-- Count1 table A, leaves as `vwxy` (R152). -/
def count1A : PrefixCode Nat :=
  .node
    (.node
      (.node
        (.node (.node (.node (.leaf 11) (.leaf 15)) (.node (.leaf 13) (.leaf 14))) (.node (.node (.leaf 7) (.leaf 5)) (.leaf 9)))
        (.node (.node (.leaf 6) (.leaf 3)) (.node (.leaf 10) (.leaf 12))))
      (.node (.node (.leaf 2) (.leaf 1)) (.node (.leaf 4) (.leaf 8))))
    (.leaf 0)

/-! ### Antialias -/

/-- `c[0..7]` in ten-thousandths (R302). -/
def antialiasC : List Int := [-6000, -5350, -3300, -1850, -950, -410, -142, -37]

end Sys2Proof.Machine
end

