-- ==== Sys2Proof/Machine/SideInfo.lean ====
section
/-! DEFINITION. Layer III side information and its checks (`30_encoding.md` R130-R134, `42_sideinfo_huffman.md`
R220-R230). -/

namespace Sys2Proof.Machine

/-- GranuleInfo: the fields read for one granule and channel (R61, R132). -/
structure GranuleInfo where
  part23Length : Nat
  bigValues : Nat
  globalGain : Nat
  scalefacCompress : Nat
  windowSwitching : Bool
  blockType : Nat
  mixedBlock : Bool
  tableSelect : List Nat
  subblockGain : List Nat
  region0Count : Nat
  region1Count : Nat
  preflag : Bool
  scalefacScale : Bool
  count1Table : Bool
  deriving DecidableEq, Repr, Inhabited

/-- The side information of one frame (R220): `scfsi[ch][band]` and `granules[gr][ch]`. -/
structure SideInfo where
  mainDataBegin : Nat
  scfsi : List (List Bool)
  granules : List (List GranuleInfo)
  deriving DecidableEq, Repr, Inhabited

/-- `GranuleInfo[gr][ch]`. -/
def SideInfo.at (si : SideInfo) (gr ch : Nat) : GranuleInfo := (si.granules.getD gr []).getD ch default

/-- `granule(gr, ch)`, in MPEG-1 form when `v1`, else in LSF form (R132). -/
def readGranule (v1 : Bool) (r : BitReader) : GranuleInfo × BitReader :=
  let (part23Length, r) := r.getBits 12
  let (bigValues, r) := r.getBits 9
  let (globalGain, r) := r.getBits 8
  let (scalefacCompress, r) := r.getBits (if v1 then 4 else 9)
  let (windowSwitching, r) := r.getFlag
  let (blockType, r) := if windowSwitching then r.getBits 2 else (0, r)
  let (mixedBlock, r) := if windowSwitching then r.getFlag else (false, r)
  let (tables, r) := r.collect (·.getBits 5) (if windowSwitching then 2 else 3)
  let (subblockGain, r) := if windowSwitching then r.collect (·.getBits 3) 3 else ([0, 0, 0], r)
  let (region0Count, r) := if windowSwitching then (0, r) else r.getBits 4
  let (region1Count, r) := if windowSwitching then (0, r) else r.getBits 3
  let (preflag, r) := if v1 then r.getFlag else (false, r)
  let (scalefacScale, r) := r.getFlag
  let (count1Table, r) := r.getFlag
  ({ part23Length, bigValues, globalGain, scalefacCompress, windowSwitching, blockType, mixedBlock
     tableSelect := if windowSwitching then tables ++ [0] else tables
     subblockGain, region0Count, region1Count, preflag, scalefacScale, count1Table }, r)

/-- `read_side_info(fr, h)` (R220): the fields of R130 (MPEG-1) or R131 (MPEG-2 and 2.5). -/
def readSideInfo (h : Word) (r : BitReader) : SideInfo × BitReader :=
  let v1 := hdrVersion h == 0
  let nch := hdrChannels h
  let (mainDataBegin, r) := r.getBits (if v1 then 9 else 8)
  let (_, r) := r.getBits (if v1 then (if nch = 1 then 5 else 3) else nch)
  let (scfsi, r) := if v1 then r.collect (·.collect (·.getFlag) 4) nch else (List.replicate nch [false, false, false, false], r)
  let (granules, r) := r.collect (·.collect (readGranule v1) nch) (hdrGranules h)
  ({ mainDataBegin, scfsi, granules }, r)

/-- Where the side information starts in the frame: bit 32, or 48 after a CRC (R119). -/
def sideInfoStart (h : Word) : Nat := if hdrCrc h then 48 else 32

/-- Block kind (R134). -/
def GranuleInfo.kind (gi : GranuleInfo) : BlockKind :=
  if gi.blockType ≠ 2 then .long else if gi.mixedBlock then .mixed else .short

/-! ### Regions of the big-value area (R230) -/

/-- `big_end`. -/
def GranuleInfo.bigEnd (gi : GranuleInfo) : Nat := 2 * gi.bigValues

/-- `r1`, clipped: R230's pseudocode, `lstart[8]` for a start or stop block. D41 says that region 1 then starts at line 36, which
is another line in MPEG-2 and MPEG-2.5 (log entry 30, DESIGN CHOICE). -/
def GranuleInfo.region1Start (sfreq : Nat) (gi : GranuleInfo) : Nat :=
  let starts := longStarts sfreq
  let r1 := if gi.windowSwitching then (if gi.blockType = 2 then 36 else starts.getD 8 0) else starts.getD (gi.region0Count + 1) 0
  min r1 gi.bigEnd

/-- `r2`, clipped. -/
def GranuleInfo.region2Start (sfreq : Nat) (gi : GranuleInfo) : Nat :=
  let r2 := if gi.windowSwitching then 576 else (longStarts sfreq).getD (min (gi.region0Count + gi.region1Count + 2) 22) 0
  min (max r2 (gi.region1Start sfreq)) gi.bigEnd

/-- `region_len(gi, j)`. -/
def GranuleInfo.regionLen (sfreq : Nat) (gi : GranuleInfo) (j : Nat) : Nat :=
  if j = 0 then gi.region1Start sfreq
  else if j = 1 then gi.region2Start sfreq - gi.region1Start sfreq
  else gi.bigEnd - gi.region2Start sfreq

/-- The region of line `l` of the big-value area (R250). -/
def GranuleInfo.regionOf (sfreq : Nat) (gi : GranuleInfo) (l : Nat) : Nat :=
  if l < gi.region1Start sfreq then 0 else if l < gi.region2Start sfreq then 1 else 2

/-! ### Checks (R224) -/

/-- The checks of one granule and channel, in order: the result code of the first that fails. -/
def GranuleInfo.check (sfreq : Nat) (gi : GranuleInfo) : Option ResultCode :=
  if gi.bigValues > Config.bigValuesMax then some .corrupt
  else if gi.windowSwitching ∧ gi.blockType = 0 then some .corrupt
  else if [0, 1, 2].any (fun j => gi.regionLen sfreq j > 0 && [4, 14].contains (gi.tableSelect.getD j 0)) then some .corrupt
  else if gi.kind = .mixed ∧ sfreq = 8 then some .unsupported
  else none

/-- Sum of all `part2_3_length`. -/
def SideInfo.part23Total (si : SideInfo) : Nat := (si.granules.flatten.map (·.part23Length)).sum

/-- R224: the result code of the first failing check; `fr` stands at `si_end`. -/
def sideCheck (h : Word) (si : SideInfo) (fr : BitReader) : Option ResultCode :=
  if fr.overread then some .corrupt
  else
    match si.granules.flatten.findSome? (GranuleInfo.check (hdrSfreq h)) with
    | some code => some code
    | none => if si.part23Total > fr.limit - fr.pos + 8 * si.mainDataBegin then some .corrupt else none

end Sys2Proof.Machine
end

