-- ==== Sys2Proof/Machine/Huffman.lean ====
section
/-! DEFINITION. Huffman decoding of the spectrum (part 3): R250-R262. Every read here is a raw read (R165, R262). -/

namespace Sys2Proof.Machine

/-- `walk(md, code)`: one raw bit at a time until a codeword is complete (R255). -/
def walk {α : Type} : PrefixCode α → BitReader → α × BitReader
  | .leaf a, r => (a, r)
  | .node zero one, r =>
    let (b, r) := r.rawBit
    if b then walk one r else walk zero r

/-- `escape(md, v, linbits)` (R257). -/
def escape (v linbits : Nat) (r : BitReader) : Nat × BitReader :=
  if linbits > 0 ∧ v = 15 then
    let (e, r) := r.rawBits linbits
    (15 + e, r)
  else (v, r)

/-- `sign(md, v)` (R259). -/
def readSign (v : Nat) (r : BitReader) : Int × BitReader :=
  if v = 0 then (0, r)
  else
    let (s, r) := r.rawBit
    (if s then -(v : Int) else (v : Int), r)

/-- One coordinate after its codeword: escape, then sign (R251). -/
def readCoordinate (v linbits : Nat) (r : BitReader) : Int × BitReader :=
  let (m, r) := escape v linbits r
  readSign m r

/-- `decode_pair(md, t)` (R251). Tables 4 and 14 have no codebook and are never reached (R224). -/
def decodePair (t : Nat) (r : BitReader) : (Int × Int) × BitReader :=
  match huffTable t with
  | none => ((0, 0), r)
  | some (cb, linbits) =>
    let (p, r) := walk (codebook cb) r
    let (x, r) := readCoordinate p.1 linbits r
    let (y, r) := readCoordinate p.2 linbits r
    ((x, y), r)

/-- `decode_quad_code(md, sel)`: table A's walk, or table B's four bits, whose complement is `vwxy` (R252, R152). -/
def decodeQuadCode (tableB : Bool) (r : BitReader) : List Nat × BitReader :=
  if tableB then
    let (c, r) := r.rawBits 4
    (quadOf (15 - c), r)
  else
    let (n, r) := walk count1A r
    (quadOf n, r)

/-- `apply_signs`: `sign` on v, w, x, y in order (R252). -/
def applySigns : List Nat → BitReader → List Int × BitReader
  | [], r => ([], r)
  | v :: vs, r =>
    let (x, r) := readSign v r
    let (xs, r) := applySigns vs r
    (x :: xs, r)

/-- The big-value loop: `n` pairs from line `l` on (R250); it never tests the block end (D42). -/
def bigPairs (sfreq : Nat) (gi : GranuleInfo) : Nat → Nat → BitReader → List Int × BitReader
  | 0, _, r => ([], r)
  | n + 1, l, r =>
    let (p, r) := decodePair (gi.tableSelect.getD (gi.regionOf sfreq l) 0) r
    let (qs, r) := bigPairs sfreq gi n (l + 2) r
    (p.1 :: p.2 :: qs, r)

/-- The count1 loop: at most `n` quadruples; it stops at the first codeword that ends past `stop` and discards it
(R250, D25). -/
def quads (tableB : Bool) (stop : Nat) : Nat → BitReader → List Int × BitReader
  | 0, r => ([], r)
  | n + 1, r =>
    let (c, r) := decodeQuadCode tableB r
    if r.pos > stop then ([], r)
    else
      let (q, r) := applySigns c r
      let (qs, r) := quads tableB stop n r
      (q ++ qs, r)

/-- `huffman_block(md, gi, start)`: the 576 quantised values; the cursor ends at the block end (R250). -/
def huffmanBlock (sfreq : Nat) (gi : GranuleInfo) (start : Nat) (r : BitReader) : Vector Int 576 × BitReader :=
  let stop := start + gi.part23Length
  let (big, r) := bigPairs sfreq gi gi.bigValues 0 r
  let (small, r) := quads gi.count1Table stop ((576 - gi.bigEnd) / 4) r
  let q := big ++ small
  (tabulate 576 (fun l => q.getD l 0), { r with pos := stop })

end Sys2Proof.Machine
end

