-- ==== Sys2Proof/Machine/Rules.lean ====
section
/-! DEFINITION. The exact-real right side of every real-valued rule (`00_scope.md` R13, R15), and the evaluation of a rule
under the parameter `P_FP`. -/

namespace Sys2Proof
namespace Machine

/-- The sum of a rule's terms. -/
def sumTerms : List RExpr → RExpr
  | [] => .ratio 0 1
  | [e] => e
  | e :: es => .add e (sumTerms es)

/-! ### Requantisation (R271, R272) -/

/-- The sign of a quantised value as a rational. -/
def signTerm (q : Int) : RExpr := .ratio q.sign 1

/-- `2^(-mult * e)` with `mult` 0.5 or 1 (R271). -/
def scaleTerm (scalefacScale : Bool) (e : Nat) : RExpr := .exp2 (-(e : Int)) (if scalefacScale then 1 else 2)

/-- `sgn(q) * pow43(|q|) * 2^(g / 4) * 2^(-mult * e)`, the form of R271 and R272. -/
def requantRhs (q g : Int) (scalefacScale : Bool) (e : Nat) : RExpr :=
  .mul (.mul (.mul (signTerm q) (.pow43 q.natAbs)) (.exp2 g 4)) (scaleTerm scalefacScale e)

/-! ### Stereo (R281, R287, R288) -/

/-- The MPEG-1 coefficients `kL`, `kR` (R287), `θ = is_pos * π / 12`. -/
def intensityMpeg1 (p : Nat) : RExpr × RExpr :=
  (.div (.sinPi p 12) (.add (.sinPi p 12) (.cosPi p 12)), .div (.cosPi p 12) (.add (.sinPi p 12) (.cosPi p 12)))

/-- `io ^ n` (R288): `io` is `2^(-1/4)` for `intensity_scale` 0, `2^(-1/2)` for 1. -/
def ioPower (scale n : Nat) : RExpr := .exp2 (-(n : Int)) (if scale = 0 then 4 else 2)

/-- The MPEG-2/2.5 coefficients `kL`, `kR` (R288). -/
def intensityLsf (scale p : Nat) : RExpr × RExpr :=
  if p = 0 then (.ratio 1 1, .ratio 1 1)
  else if p % 2 = 1 then (ioPower scale ((p + 1) / 2), .ratio 1 1)
  else (.ratio 1 1, ioPower scale (p / 2))

/-- `kL`, or `kR` when `right` (R289). -/
def sideOf (right : Bool) (k : RExpr × RExpr) : RExpr := if right then k.2 else k.1

/-! ### Antialias (R302) -/

/-- `c[i]` (R302). -/
def aaC (i : Nat) : RExpr := .ratio (antialiasC.getD i 0) 10000
/-- `sqrt(1 + c[i]^2)` (R302). -/
def aaNorm (i : Nat) : RExpr := .sqrt (.add (.ratio 1 1) (.mul (aaC i) (aaC i)))
/-- `cs[i]` (R302). -/
def aaCs (i : Nat) : RExpr := .div (.ratio 1 1) (aaNorm i)
/-- `ca[i]` (R302). -/
def aaCa (i : Nat) : RExpr := .div (aaC i) (aaNorm i)

/-! ### Inverse MDCT and windows (R305-R308) -/

/-- Output `i` of the IMDCT of length `n`, operands `Y[0 .. n/2)` (R305). -/
def imdctRhs (n i : Nat) : RExpr :=
  sumTerms ((List.range (n / 2)).map fun k => .mul (.opd k) (.cosPi ((2 * i + 1 + n / 2) * (2 * k + 1) : Nat) (2 * n)))

/-- `win[bt][i]`, none where it is 0 (R306). -/
def longWindow (bt i : Nat) : Option RExpr :=
  let slow := RExpr.sinPi (2 * i + 1 : Nat) 72
  if bt = 1 then
    if i < 18 then some slow
    else if i < 24 then some (.ratio 1 1)
    else if i < 30 then some (.sinPi (2 * (i - 18) + 1 : Nat) 24)
    else none
  else if bt = 3 then
    if i < 6 then none
    else if i < 12 then some (.sinPi (2 * (i - 6) + 1 : Nat) 24)
    else if i < 18 then some (.ratio 1 1)
    else some slow
  else some slow

/-- `wins[i]` (R306). -/
def shortWindow (i : Nat) : RExpr := .sinPi (2 * i + 1 : Nat) 24

/-- The windows of a short subband that reach `z[i]`, with the index into each: `i = 6 + 6*w + j` (R308). -/
def shortReach (i : Nat) : List (Nat × Nat) :=
  ([0, 1, 2].filter fun w => 6 + 6 * w ≤ i && i < 18 + 6 * w).map fun w => (w, i - 6 - 6 * w)

/-! ### Synthesis (R331) -/

/-- Entry `i` of the matrixed vector, operands `s[0..31]` (R331). -/
def matrixRhs (i : Nat) : RExpr :=
  sumTerms ((List.range 32).map fun k => .mul (.cosPi ((16 + i) * (2 * k + 1) : Nat) 64) (.opd k))

/-- `D[m]` (R334, `P_SYNTH_D`). -/
def synthCoef (m : Nat) : RExpr := .ratio (Config.synthD m).1 (Config.synthD m).2

/-- The entry of `Vc[r]` that `y[j]` reads: `U[j + 32*r]` is entry `j` of an even vector, `32 + j` of an odd one (R331). -/
def tapEntry (r j : Nat) : Nat := if r % 2 = 0 then j else 32 + j

/-- `y[j]`, the sum of `U[j + 32*r] * D[j + 32*r]`: operands `s[0..31]`, of which `Vc[0]` is the matrixing, then the entry
read of `Vc[1]` to `Vc[15]` (R331). -/
def sampleRhs (j : Nat) : RExpr :=
  sumTerms ((List.range 16).map fun r => .mul (if r = 0 then matrixRhs (tapEntry 0 j) else .opd (31 + r)) (synthCoef (j + 32 * r)))

end Machine

open Machine in
/-- The exact-real right side of a rule over its real operands (R13, R15). -/
def Rule.rhs : Rule → RExpr
  | .requantLong q gain scale sf preflag pretab _ => requantRhs q ((gain : Int) - 210) scale (sf + (if preflag then pretab else 0))
  | .requantShort q gain sub scale sf _ => requantRhs q ((gain : Int) - 210 - 8 * (sub : Int)) scale sf
  | .msLeft => .div (.add (.opd 0) (.opd 1)) (.sqrt (.ratio 2 1))
  | .msRight => .div (.sub (.opd 0) (.opd 1)) (.sqrt (.ratio 2 1))
  | .intensityMpeg1 right p _ => .mul (.opd 0) (sideOf right (Machine.intensityMpeg1 p))
  | .intensityLsf right scale p _ => .mul (.opd 0) (sideOf right (Machine.intensityLsf scale p))
  | .antialiasLow i => .sub (.mul (.opd 0) (aaCs i)) (.mul (.opd 1) (aaCa i))
  | .antialiasHigh i => .add (.mul (.opd 1) (aaCs i)) (.mul (.opd 0) (aaCa i))
  | .imdct n i => imdctRhs n i
  | .longWindow bt i => .mul (.opd 0) ((Machine.longWindow bt i).getD (.ratio 0 1))
  | .shortWindows i => sumTerms ((shortReach i).zipIdx.map fun p => .mul (.opd p.2) (shortWindow p.1.2))
  | .overlapAdd => .add (.opd 0) (.opd 1)
  | .invert => .neg (.opd 0)
  | .matrixing i => matrixRhs i
  | .sample j => sampleRhs j

namespace Machine

/-! ### Evaluation (R15) -/

/-- The real number 0.0 in binary32, of either sign. -/
def isZeroWord (w : Word) : Bool := w == 0 || w == 0x80000000

/-- A real-valued rule evaluated under `P_FP`: the result depends on the rule and its operands alone, and a rule whose real
operands are all 0.0 yields 0.0 (R15). That the zero is +0.0 is a DESIGN CHOICE (log entry 15). -/
def evalRule (rule : Rule) (operands : List Word) : Word :=
  if operands.all isZeroWord then 0 else Config.fp rule rule.rhs operands

end Machine
end Sys2Proof
end

