-- ==== Sys2Proof/Machine/Scalefactor.lean ====
section
/-! DEFINITION. Scalefactors (part 2): MPEG-1 (R240) and MPEG-2/2.5 (R242-R245). -/

namespace Sys2Proof.Machine

/-- The scalefactors of one channel (R63, R241): `long[s]`, `short[3*s + w]`, and beside each the illegal
intensity position of its slot (R245). -/
structure Scalefactors where
  long : List Nat
  short : List Nat
  longMax : List Nat
  shortMax : List Nat
  deriving DecidableEq, Repr, Inhabited

/-- All zero; every entry that is read is written first, or is the band without a scalefactor (R57, R240, R242). -/
def Scalefactors.zero : Scalefactors :=
  ⟨List.replicate 22 0, List.replicate 39 0, List.replicate 22 0, List.replicate 39 0⟩

/-- A scalefactor's place: a long band, or a short band and window. -/
inductive Slot where
  | long (s : Nat)
  | short (s w : Nat)
  deriving DecidableEq, Repr, Inhabited

/-- `get_bits(md, n)` into one slot, with its `is_max` (R245). -/
def readSlot (slot : Slot) (n : Nat) (sf : Scalefactors) (r : BitReader) : Scalefactors × BitReader :=
  let (v, r) := r.getBits n
  match slot with
  | .long s => ({ sf with long := sf.long.set s v, longMax := sf.longMax.set s (2 ^ n - 1) }, r)
  | .short s w => ({ sf with short := sf.short.set (3 * s + w) v, shortMax := sf.shortMax.set (3 * s + w) (2 ^ n - 1) }, r)

/-- Read slots in order, each with its width. -/
def readSlots : List (Slot × Nat) → Scalefactors → BitReader → Scalefactors × BitReader
  | [], sf, r => (sf, r)
  | (slot, n) :: rest, sf, r =>
    let (sf, r) := readSlot slot n sf r
    readSlots rest sf r

/-- Long slots `[a, b)`. -/
def longSlots (a b : Nat) : List Slot := (List.range (b - a)).map fun i => .long (a + i)

/-- Short slots of bands `[a, b)`, windows in order within each band. -/
def shortSlots (a b : Nat) : List Slot := (List.range (3 * (b - a))).map fun i => .short (a + i / 3) (i % 3)

/-! ### MPEG-1 -/

/-- The scfsi group of a long band (R240). -/
def scfsiGroup (s : Nat) : Nat := if s < 6 then 0 else if s < 11 then 1 else if s < 16 then 2 else 3

/-- `slen1` or `slen2` of a slot (R240). -/
def mpeg1SlotBits (compress : Nat) : Slot → Nat
  | .long s => if s < 11 then (slenTable.getD compress (0, 0)).1 else (slenTable.getD compress (0, 0)).2
  | .short s _ => if s < 6 then (slenTable.getD compress (0, 0)).1 else (slenTable.getD compress (0, 0)).2

/-- The slots an MPEG-1 block reads; `keep g` says that granule 1 keeps scfsi group `g` from granule 0 (R240). -/
def mpeg1Slots (kind : BlockKind) (keep : Nat → Bool) : List Slot :=
  match kind with
  | .long => (longSlots 0 21).filter fun | .long s => !keep (scfsiGroup s) | .short _ _ => true
  | .short => shortSlots 0 12
  | .mixed => longSlots 0 8 ++ shortSlots 3 12

/-- `scfsi_eff[ch][g]` for granule `gr`: only in granule 1, and only if both granules of the channel are long (R240, D27). -/
def scfsiKeep (si : SideInfo) (gr ch g : Nat) : Bool :=
  gr == 1 && (si.scfsi.getD ch []).getD g false && decide ((si.at 0 ch).kind = .long) && decide ((si.at 1 ch).kind = .long)

/-- R240. -/
def readScalefactorsMpeg1 (si : SideInfo) (gr ch : Nat) (sf : Scalefactors) (r : BitReader) : Scalefactors × BitReader :=
  let gi := si.at gr ch
  readSlots ((mpeg1Slots gi.kind (scfsiKeep si gr ch)).map fun slot => (slot, mpeg1SlotBits gi.scalefacCompress slot)) sf r

/-! ### MPEG-2 and MPEG-2.5 -/

/-- What R243 derives from `scalefac_compress`. -/
structure LsfLengths where
  slen : List Nat
  tn : Nat
  preflag : Bool
  deriving DecidableEq, Repr, Inhabited

/-- R243; `intensity` says that intensity stereo is on and the channel is 1. -/
def lsfLengths (intensity : Bool) (sfc : Nat) : LsfLengths :=
  if intensity then
    let isc := sfc / 2
    if isc < 180 then ⟨[isc / 36, isc % 36 / 6, isc % 36 % 6, 0], 3, false⟩
    else if isc < 244 then ⟨[(isc - 180) % 64 / 16, (isc - 180) % 16 / 4, (isc - 180) % 4, 0], 4, false⟩
    else ⟨[(isc - 244) / 3, (isc - 244) % 3, 0, 0], 5, false⟩
  else if sfc < 400 then ⟨[sfc / 16 / 5, sfc / 16 % 5, sfc % 16 / 4, sfc % 4], 0, false⟩
  else if sfc < 500 then ⟨[(sfc - 400) / 4 / 5, (sfc - 400) / 4 % 5, (sfc - 400) % 4, 0], 1, false⟩
  else ⟨[(sfc - 500) / 3, (sfc - 500) % 3, 0, 0], 2, true⟩

/-- `intensity_scale` (R243). -/
def intensityScale (sfc : Nat) : Nat := sfc % 2

/-- The slot sequence of a granule (R242). -/
def lsfSlots (kind : BlockKind) : List Slot :=
  match kind with
  | .long => longSlots 0 21
  | .short => shortSlots 0 12
  | .mixed => longSlots 0 6 ++ shortSlots 3 12

/-- The width of each slot in order: `NSFB[tn][kind][p]` slots of `slen[p]` bits for each partition (R245). -/
def lsfSlotBits (len : LsfLengths) (kind : BlockKind) : List Nat :=
  ((nsfb len.tn kind).zip len.slen).flatMap fun p => List.replicate p.1 p.2

/-- Whether a block is the intensity channel of R243. -/
def isIntensityChannel (h : Word) (ch : Nat) : Bool := hdrIntensityOn h && ch == 1

/-- R245. -/
def readScalefactorsLsf (h : Word) (si : SideInfo) (gr ch : Nat) (sf : Scalefactors) (r : BitReader) : Scalefactors × BitReader :=
  let gi := si.at gr ch
  let len := lsfLengths (isIntensityChannel h ch) gi.scalefacCompress
  readSlots ((lsfSlots gi.kind).zip (lsfSlotBits len gi.kind)) sf r

/-- Part 2 of block `(gr, ch)`. -/
def readScalefactors (h : Word) (si : SideInfo) (gr ch : Nat) (sf : Scalefactors) (r : BitReader) : Scalefactors × BitReader :=
  if hdrVersion h = 0 then readScalefactorsMpeg1 si gr ch sf r else readScalefactorsLsf h si gr ch sf r

/-- The block's `preflag`: the side-information bit in MPEG-1, else derived (R243). -/
def preflagOf (h : Word) (gi : GranuleInfo) (ch : Nat) : Bool :=
  if hdrVersion h = 0 then gi.preflag else (lsfLengths (isIntensityChannel h ch) gi.scalefacCompress).preflag

end Sys2Proof.Machine
end

