-- ==== Sys2Proof/Machine/Requant.lean ====
section
/-! DEFINITION. Requantisation (R270-R275). -/

namespace Sys2Proof.Machine

/-- The rule of a line, R271 or R272, with each of its operands; `ms` says that MS stereo is on in the frame, which R274 lets
an implementation fold in (log entry 17, DESIGN CHOICE). -/
def requantRule (ms : Bool) (gi : GranuleInfo) (preflag : Bool) (sf : Scalefactors) (line : Line) (q : Int) : Rule :=
  match line with
  | .long s => .requantLong q gi.globalGain gi.scalefacScale (sf.long.getD s 0) preflag (pretab.getD s 0) ms
  | .short s w _ => .requantShort q gi.globalGain (gi.subblockGain.getD w 0) gi.scalefacScale (sf.short.getD (3 * s + w) 0) ms

/-- One requantised value. The rule's one real-valued operand is `q`: it yields 0.0 when `q` is 0 (R15), else what
`P_FP` gives for the rule. -/
def requantLine (ms : Bool) (gi : GranuleInfo) (preflag : Bool) (sf : Scalefactors) (line : Line) (q : Int) : Word :=
  let rule := requantRule ms gi preflag sf line q
  if q = 0 then 0 else Config.fp rule rule.rhs []

/-- `xr[0..575]` of one block. -/
def requantise (ms : Bool) (sfreq : Nat) (gi : GranuleInfo) (preflag : Bool) (sf : Scalefactors) (q : Vector Int 576) : Vector Word 576 :=
  tabulate 576 fun l => requantLine ms gi preflag sf (lineOf sfreq gi.kind l) (entry q l 0)

end Sys2Proof.Machine
end

