-- ==== Sys2Proof/Machine/Imdct.lean ====
section
/-! DEFINITION. Reorder, antialias, IMDCT, overlap-add and frequency inversion (`44_imdct.md` R300-R320). -/

namespace Sys2Proof.Machine

/-! ### Antialias (R301-R303) -/

/-- Line `l` after every butterfly of the boundaries `18*sb`, `sb` in `[1, last]`: the boundaries touch disjoint
lines, so each line is in at most one pair (R303). -/
def antialiasLine (last : Nat) (x : Vector Word 576) (l : Nat) : Word :=
  let sb := l / 18
  let k := l % 18
  if k < 8 ∧ 1 ≤ sb ∧ sb ≤ last then
    evalRule (.antialiasHigh k) [entry x (18 * sb - 1 - k) 0, entry x l 0]
  else if 10 ≤ k ∧ sb + 1 ≤ last then
    evalRule (.antialiasLow (17 - k)) [entry x l 0, entry x (18 * (sb + 1) + (17 - k)) 0]
  else entry x l 0

/-- The last boundary antialias applies to (R301). -/
def antialiasLast : BlockKind → Nat
  | .long => 31
  | .mixed => 1
  | .short => 0

def antialias (kind : BlockKind) (x : Vector Word 576) : Vector Word 576 :=
  tabulate 576 (antialiasLine (antialiasLast kind) x)

/-! ### Inverse MDCT and windows (R305-R309) -/

/-- `z[i]` of a long subband: `y[i] * win[bt][i]` (R307); 0.0 where the window is 0, whatever the input (R320(c)). -/
def longZ (bt : Nat) (X : List Word) (i : Nat) : Word :=
  match longWindow bt i with
  | none => 0
  | some _ => evalRule (.longWindow bt i) [evalRule (.imdct 36 i) X]

/-- `z[i]` of a short subband, from the outputs of the windows that reach it (R308); 0.0 where none does. -/
def shortZ (Xw : Nat → List Word) (i : Nat) : Word :=
  evalRule (.shortWindows i) ((shortReach i).map fun p => evalRule (.imdct 12 p.2) (Xw p.1))

/-- Whether subband `sb` takes the long transform (R300, R309). -/
def longSubband (kind : BlockKind) (sb : Nat) : Bool :=
  match kind with
  | .long => true
  | .short => false
  | .mixed => sb < 2

/-- `X[sb]` of a long subband (R300). -/
def longInputs (x : Vector Word 576) (sb : Nat) : List Word := (List.range 18).map fun k => entry x (18 * sb + k) 0

/-- `Xw[sb][w]` of a short subband (R300). -/
def shortInputs (sfreq : Nat) (x : Vector Word 576) (sb w : Nat) : List Word :=
  (List.range 6).map fun j => entry x (lineAt sfreq w (6 * sb + j)) 0

/-- `z[0..35]` of subband `sb` (R309); `x` has been antialiased. -/
def subbandZ (sfreq : Nat) (gi : GranuleInfo) (x : Vector Word 576) (sb : Nat) : Vector Word 36 :=
  if longSubband gi.kind sb then
    let X := longInputs x sb
    tabulate 36 (longZ (if gi.kind = .mixed then 0 else gi.blockType) X)
  else tabulate 36 (shortZ (shortInputs sfreq x sb))

/-! ### Overlap-add and frequency inversion (R316-R318) -/

/-- `out[sb][i]` from `z[i]` and the stored overlap (R316, R317). -/
def overlapOut (sb i : Nat) (z ov : Word) : Word :=
  let v := evalRule .overlapAdd [z, ov]
  if sb % 2 = 1 ∧ i % 2 = 1 then evalRule .invert [v] else v

/-- `transform(xr[ch])` (R300-R318): the subband samples, `S[t][sb]` at index `18*sb + t`, and the new overlap. -/
def transform (sfreq : Nat) (gi : GranuleInfo) (x : Vector Word 576) (overlap : Vector Word 576) : Vector Word 576 × Vector Word 576 :=
  let y := antialias gi.kind x
  let z := tabulate 32 (subbandZ sfreq gi y)
  let zAt := fun sb i => entry (entry z sb (Vector.replicate 36 0)) i 0
  (tabulate 576 fun l => overlapOut (l / 18) (l % 18) (zAt (l / 18) (l % 18)) (entry overlap l 0),
   tabulate 576 fun l => zAt (l / 18) (18 + l % 18))

end Sys2Proof.Machine
end

