-- ==== Sys2Proof/Machine/Reservoir.lean ====
section
/-! DEFINITION. The bit reservoir (`46_reservoir_decode.md` R350-R356). -/

namespace Sys2Proof.Machine

/-- `underflow`: fewer reservoir bytes than `main_data_begin` (R351). -/
def reservoirUnderflow (reservoir : List Byte) (mainDataBegin : Nat) : Bool := reservoir.length < mainDataBegin

/-- MD after the restore: the last `min(reservoir_len, main_data_begin)` saved bytes, then the fresh ones (R351). -/
def reservoirRestore (reservoir : List Byte) (mainDataBegin : Nat) (fresh : List Byte) : List Byte :=
  reservoir.drop (reservoir.length - mainDataBegin) ++ fresh

/-- The saved bytes when `p` bytes of MD count as consumed: what is left, clipped to its last `P_RES_MAX` bytes (R353). -/
def reservoirSave (md : List Byte) (p : Nat) : List Byte :=
  let remains := md.length - p
  md.drop (p + (remains - Config.resMax))

/-- `ceil(pos / 8)` (R353). -/
def bytesConsumed (pos : Nat) : Nat := (pos + 7) / 8

end Sys2Proof.Machine
end

