-- ==== Sys2Proof/Machine/Stereo.lean ====
section
/-! DEFINITION. Stereo reconstruction: MS and intensity (`43_stereo.md` R280-R290). -/

namespace Sys2Proof.Machine

/-- What one granule's stereo step reads beside the two spectra: all of it is the right channel's (R285, R290). -/
structure StereoCtx where
  msOn : Bool
  intensityOn : Bool
  mpeg1 : Bool
  sfreq : Nat
  kind : BlockKind
  sf : Scalefactors
  scale : Nat
  q : Vector Int 576
  deriving DecidableEq, Repr

/-- The lines of the right channel that are not zero, as places in its band structure. -/
def nonzeroLines (c : StereoCtx) : List Line :=
  ((List.range 576).filter fun l => entry c.q l 0 != 0).map (lineOf c.sfreq c.kind)

/-- One more than the highest nonzero long band, 0 if none: `s_nz + 1` of R282, `s_nzl + 1` of R284. -/
def longBound (c : StereoCtx) : Nat :=
  (nonzeroLines c).foldl (fun b line => match line with | .long s => max b (s + 1) | .short _ _ _ => b) 0

/-- One more than the highest nonzero short band of window `w`: `s_nz[w] + 1` of R283; at least 3 in a mixed
granule, whose short bands start at 3 (R284). -/
def shortBound (c : StereoCtx) (w : Nat) : Nat :=
  (nonzeroLines c).foldl (fun b line => match line with | .long _ => b | .short s v _ => if v = w then max b (s + 1) else b)
    (if c.kind = .mixed then 3 else 0)

/-- Whether long bands can be intensity bands at all: always in a long granule, in a mixed one only if no window has a
nonzero short band (R284). -/
def longExamined (c : StereoCtx) : Bool :=
  decide (c.kind = .long) || (shortBound c 0 == 3 && shortBound c 1 == 3 && shortBound c 2 == 3)

/-- The bounds of R282-R284, worked out once a granule. -/
structure Bounds where
  long : Nat
  longOk : Bool
  short : List Nat
  deriving DecidableEq, Repr

def boundsOf (c : StereoCtx) : Bounds := ⟨longBound c, longExamined c, [shortBound c 0, shortBound c 1, shortBound c 2]⟩

/-- Whether a line lies in an intensity band (R282-R284). -/
def inIntensityBand (b : Bounds) : Line → Bool
  | .long s => b.longOk && decide (b.long ≤ s)
  | .short s w _ => decide (b.short.getD w 0 ≤ s)

/-- `is_pos` of a line's band; the last band takes the one below (R285, R286). -/
def isPos (c : StereoCtx) : Line → Nat
  | .long s => c.sf.long.getD (min s 20) 0
  | .short s w _ => c.sf.short.getD (3 * min s 11 + w) 0

/-- `is_max` of a line's band (R245, R286). -/
def isMax (c : StereoCtx) : Line → Nat
  | .long s => c.sf.longMax.getD (min s 20) 0
  | .short s w _ => c.sf.shortMax.getD (3 * min s 11 + w) 0

/-- Legality of an intensity position (R285). -/
def isLegal (c : StereoCtx) (line : Line) : Bool :=
  if c.mpeg1 then decide (isPos c line < 7) else isPos c line != isMax c line

/-- The rule that gives the left output of an intensity line, or the right one (R287-R289). -/
def intensityRule (c : StereoCtx) (line : Line) (right : Bool) : Rule :=
  if c.mpeg1 then .intensityMpeg1 right (isPos c line) c.msOn else .intensityLsf right c.scale (isPos c line) c.msOn

/-- The two values of one line after stereo processing (R281, R289). -/
def stereoLine (c : StereoCtx) (b : Bounds) (l : Nat) (x0 x1 : Word) : Word × Word :=
  let line := lineOf c.sfreq c.kind l
  if c.intensityOn && inIntensityBand b line && isLegal c line then
    (evalRule (intensityRule c line false) [x0], evalRule (intensityRule c line true) [x0])
  else if c.msOn then (evalRule .msLeft [x0, x1], evalRule .msRight [x0, x1])
  else (x0, x1)

/-- `stereo(xr)` of a two-channel granule (R280). -/
def stereo (c : StereoCtx) (x0 x1 : Vector Word 576) : Vector Word 576 × Vector Word 576 :=
  if c.msOn || c.intensityOn then
    let b := boundsOf c
    (tabulate 576 fun l => (stereoLine c b l (entry x0 l 0) (entry x1 l 0)).1,
     tabulate 576 fun l => (stereoLine c b l (entry x0 l 0) (entry x1 l 0)).2)
  else (x0, x1)

end Sys2Proof.Machine
end

