-- ==== Sys2Proof/Machine/Synthesis.lean ====
section
/-! DEFINITION. The polyphase synthesis filter bank and the PCM conversion (`45_synthesis.md` R330-R338). -/

namespace Sys2Proof.Machine

/-- Row of the synthesis history. -/
abbrev Row := Vector Word 64

/-- `Vn` (R331). -/
def matrixing (s : List Word) : Row := tabulate 64 fun i => evalRule (.matrixing i) s

/-- The 16 vectors of a call, newest first: `Vc[0] = Vn`, `Vc[r] = V[r - 1]` (R331). -/
def callVector (vn : Row) (hist : Vector Row 15) (r : Nat) : Row :=
  if r = 0 then vn else entry hist (r - 1) (Vector.replicate 64 0)

/-- The operands of `y[j]`: the call's input, whose matrixing is `Vc[0]`, and the entry read of `Vc[1]` to `Vc[15]` (R331). -/
def sampleOperands (s : List Word) (hist : Vector Row 15) (j : Nat) : List Word :=
  s ++ (List.range 15).map fun r => entry (entry hist r (Vector.replicate 64 0)) (tapEntry (r + 1) j) 0

/-- One synthesis call: 32 output samples and the new history (R331). -/
def synthCall (s : List Word) (hist : Vector Row 15) : List Word × Vector Row 15 :=
  ((List.range 32).map fun j => evalRule (.sample j) (sampleOperands s hist j), tabulate 15 (callVector (matrixing s) hist))

/-- The 32 subband samples of time slot `t`: `S[t][sb]` stands at index `18*sb + t` (R318, R330). -/
def slot (S : Vector Word 576) (t : Nat) : List Word := (List.range 32).map fun sb => entry S (18 * sb + t) 0

/-- The calls of time slots `t`, `t + 1`, ... of one granule and channel, `n` of them (R330). -/
def synthFrom (S : Vector Word 576) : Nat → Nat → Vector Row 15 → List Word × Vector Row 15
  | 0, _, hist => ([], hist)
  | n + 1, t, hist =>
    let (y, hist) := synthCall (slot S t) hist
    let (ys, hist) := synthFrom S n (t + 1) hist
    (y ++ ys, hist)

/-- The 18 calls of one granule and channel: 576 samples in time order (R330, R333). -/
def synthGranule (S : Vector Word 576) (hist : Vector Row 15) : List Word × Vector Row 15 := synthFrom S 18 0 hist

/-! ### PCM conversion (R335) -/

/-- A finite binary32 value as `m * 2^e`; none for an infinity or NaN. -/
def binary32Value (w : Word) : Option (Int × Int) :=
  let e := (w.extractLsb' 23 8).toNat
  let f := (w.extractLsb' 0 23).toNat
  let sg := fun (m : Nat) => if w.getLsbD 31 then -(m : Int) else (m : Int)
  if e = 255 then none
  else if e = 0 then some (sg f, -149)
  else some (sg (f + 8388608), (e : Int) - 150)

/-- `round_half_away(m * 2^e)` (R335). -/
def roundHalfAway (m e : Int) : Int :=
  if 0 ≤ e then m * 2 ^ e.toNat
  else m.sign * ((m.natAbs + 2 ^ ((-e).toNat - 1)) / 2 ^ (-e).toNat : Nat)

/-- `sat16` (R335). -/
def sat16 (v : Int) : Int := if v < -32768 then -32768 else if v > 32767 then 32767 else v

/-- `pcm = sat16(round_half_away(32768 * y))` (R335), exact on the binary32 sample (log entries 19, DEDUCED, and 20, DESIGN
CHOICE). -/
def pcmOf (y : Word) : Half :=
  match binary32Value y with
  | none => Config.pcmOfNonFinite y
  | some (m, e) => BitVec.ofInt 16 (sat16 (roundHalfAway m (e + 15)))

/-- The words of one granule in PCM_BUF order: `n * nch + ch` (R85, R336). -/
def interleave : List Word → List Word → List Half
  | y0 :: ys0, y1 :: ys1 => pcmOf y0 :: pcmOf y1 :: interleave ys0 ys1
  | _, _ => []

/-- The PCM words of one granule from the samples of each decoded channel (R336). -/
def pcmWords : List (List Word) → List Half
  | [y0] => y0.map pcmOf
  | [y0, y1] => interleave y0 y1
  | _ => []

end Sys2Proof.Machine
end

