-- ==== Sys2Proof/Machine/Frame.lean ====
section
/-! DEFINITION. One frame: the granule pipeline of DECODE, the failures of a located frame, and what DECODE and PROBE
do once a frame is located (`46_reservoir_decode.md` R360-R372, `41_framesync.md` R210). -/

namespace Sys2Proof.Machine

/-! ### Main data of one frame -/

/-- One decoded block: quantised values and their requantisation. -/
structure Block where
  q : Vector Int 576
  xr : Vector Word 576
  deriving DecidableEq, Repr

/-- What the granules of one frame pass on to each other: the main-data reader, each channel's scalefactors and signal
state, and the PCM words so far. -/
structure FrameWork where
  md : BitReader
  sf0 : Scalefactors
  sf1 : Scalefactors
  chan0 : Channel
  chan1 : Channel
  pcm : List Half
  deriving DecidableEq, Repr

/-- Block `(gr, ch)`: scalefactors, Huffman decoding, requantisation (R140, R360). -/
def decodeBlock (h : Word) (si : SideInfo) (gr ch : Nat) (sf : Scalefactors) (md : BitReader) : Block × Scalefactors × BitReader :=
  let gi := si.at gr ch
  let start := md.pos
  let (sf, md) := readScalefactors h si gr ch sf md
  let (q, md) := huffmanBlock (hdrSfreq h) gi start md
  (⟨q, requantise (hdrMsOn h) (hdrSfreq h) gi (preflagOf h gi ch) sf q⟩, sf, md)

/-- Transform and synthesis of one channel of one granule: its 576 samples and its new signal state (R318, R330). -/
def channelOut (h : Word) (gi : GranuleInfo) (x : Vector Word 576) (c : Channel) : List Word × Channel :=
  let (S, overlap) := transform (hdrSfreq h) gi x c.overlap
  let (y, history) := synthGranule S c.history
  (y, ⟨overlap, history⟩)

/-- What the stereo step of granule `gr` reads of the right channel. -/
def stereoCtx (h : Word) (si : SideInfo) (gr : Nat) (q1 : Vector Int 576) (sf1 : Scalefactors) : StereoCtx where
  msOn := hdrMsOn h
  intensityOn := hdrIntensityOn h
  mpeg1 := hdrVersion h == 0
  sfreq := hdrSfreq h
  kind := (si.at gr 1).kind
  sf := sf1
  scale := intensityScale (si.at gr 1).scalefacCompress
  q := q1

/-- One granule of a mono frame, and its samples; channel 1 is neither read nor written (R319). -/
def granuleMono (h : Word) (si : SideInfo) (gr : Nat) (w : FrameWork) : FrameWork × List (List Word) :=
  let (b0, sf0, md) := decodeBlock h si gr 0 w.sf0 w.md
  let (y0, chan0) := channelOut h (si.at gr 0) b0.xr w.chan0
  ({ w with md, sf0, chan0 }, [y0])

/-- One granule of a two-channel frame, and the samples of each channel. -/
def granuleDual (h : Word) (si : SideInfo) (gr : Nat) (w : FrameWork) : FrameWork × List (List Word) :=
  let (b0, sf0, md) := decodeBlock h si gr 0 w.sf0 w.md
  let (b1, sf1, md) := decodeBlock h si gr 1 w.sf1 md
  let (x0, x1) := stereo (stereoCtx h si gr b1.q sf1) b0.xr b1.xr
  let (y0, chan0) := channelOut h (si.at gr 0) x0 w.chan0
  let (y1, chan1) := channelOut h (si.at gr 1) x1 w.chan1
  ({ w with md, sf0, sf1, chan0, chan1 }, [y0, y1])

/-- Granule `gr` of the frame: what it passes on, and the samples of each decoded channel (R330, R360). -/
def granuleOut (h : Word) (si : SideInfo) (gr : Nat) (w : FrameWork) : FrameWork × List (List Word) :=
  if hdrChannels h = 1 then granuleMono h si gr w else granuleDual h si gr w

/-- Granule `gr` of the frame, its PCM words after those of the granules before it (R333, R360). -/
def decodeGranule (h : Word) (si : SideInfo) (gr : Nat) (w : FrameWork) : FrameWork :=
  let (w, ys) := granuleOut h si gr w
  { w with pcm := w.pcm ++ pcmWords ys }

/-- Granules `gr`, `gr + 1`, ..., `n` of them. -/
def decodeGranules (h : Word) (si : SideInfo) : Nat → Nat → FrameWork → FrameWork
  | 0, _, w => w
  | n + 1, gr, w => decodeGranules h si n (gr + 1) (decodeGranule h si gr w)

/-- The main-data reader over MD (R166, R351). -/
def mainReader (md : List Byte) (draws : Nat) : BitReader := ⟨md, 0, 8 * md.length, draws⟩

/-- What the first granule of a frame meets: the main-data reader at its start and the machine's signal state (R360). -/
def frameStart (md : List Byte) (s : State) : FrameWork := ⟨mainReader md s.draws, .zero, .zero, s.chan0, s.chan1, []⟩

/-- All the granules of a frame, from the machine's DecoderState (R360). -/
def decodeMainData (h : Word) (si : SideInfo) (md : List Byte) (s : State) : FrameWork :=
  decodeGranules h si (hdrGranules h) 0 (frameStart md s)

/-! ### Outcomes of a located Layer III frame -/

/-- PCM words `[0, frame_samples(h) * nch) <- 0` (R370, R372). -/
def zeroPcm (h : Word) : List Half := List.replicate (hdrSamples h * hdrChannels h) 0

/-- Write PCM words unless NOWRITE (R336, R361). -/
def State.emitPcm (nowrite : Bool) (ws : List Half) (s : State) : State := if nowrite then s else s.writePcm ws

/-- CORRUPT (R370). -/
def frameCorrupt (nowrite : Bool) (h : Word) (s : State) : State :=
  ({ s.emitPcm nowrite (zeroPcm h) with resSamples := 0 }).stateReset.raiseResult .corrupt

/-- UNSUPPORTED (R371). -/
def frameUnsupported (s : State) : State := ({ s with resSamples := 0 }).stateReset.raiseResult .unsupported

/-- RES_UNDERFLOW: the best-effort decode leaves no trace and is not run (R372, U23; log entry 21, DEDUCED); the
reservoir is saved with nothing consumed (R354). Of a mono frame too, `overlap` and `V` of both channels become 0.0: R372's
pseudocode against R319, by which a mono frame does not write channel 1 (log entry 31, DESIGN CHOICE). -/
def frameUnderflow (nowrite : Bool) (h : Word) (md : List Byte) (s : State) : State :=
  ({ s.emitPcm nowrite (zeroPcm h) with
      resSamples := 0, chan0 := .zero, chan1 := .zero, mainData := md, reservoir := reservoirSave md 0 }).raiseResult .resUnderflow

/-- OK: PCM, signal state, reservoir (R353) and RES_SAMPLES (R360). -/
def frameOk (nowrite : Bool) (h : Word) (md : List Byte) (w : FrameWork) (s : State) : State :=
  ({ s.emitPcm nowrite w.pcm with
      resSamples := BitVec.ofNat 32 (576 * hdrGranules h), chan0 := w.chan0, chan1 := w.chan1, draws := w.md.draws,
      mainData := md, reservoir := reservoirSave md (bytesConsumed w.md.pos) }).raiseResult .ok

/-- The frame reader, at the start of the side information (R166, R119, R220). -/
def frameReader (S : Slice) (off fl : Nat) (h : Word) : BitReader := ⟨S.bytes off fl, sideInfoStart h, 8 * fl, 0⟩

/-- The frame's fresh main-data bytes (R350). -/
def freshBytes (S : Slice) (off fl siEnd : Nat) : List Byte := S.bytes (off + siEnd / 8) (fl - siEnd / 8)

/-- DECODE of a located Layer III frame from its side information on (R360). -/
def decodeLayer3 (nowrite : Bool) (off fl : Nat) (h : Word) (s : State) : State :=
  let (si, fr) := readSideInfo h (frameReader s.slice off fl h)
  match sideCheck h si fr with
  | some .unsupported => frameUnsupported s
  | some _ => frameCorrupt nowrite h s
  | none =>
    let md := reservoirRestore s.reservoir si.mainDataBegin (freshBytes s.slice off fl fr.pos)
    if reservoirUnderflow s.reservoir si.mainDataBegin then frameUnderflow nowrite h md s
    else frameOk nowrite h md (decodeMainData h si md s) s

/-! ### A located frame -/

/-- DECODE once the frame with header `h` is located at `off`, length `fl` (R360). -/
def decodeLocated (nowrite : Bool) (off fl : Nat) (h : Word) (s : State) : State :=
  let s := ({ s with lastHeader := h }).setFormatOf h |>.setResult off (off + fl) 0
  if hdrLayer h = 3 then decodeLayer3 nowrite off fl h s else frameUnsupported s

/-- PROBE once the frame is located (R210). -/
def probeLocated (off fl : Nat) (h : Word) (s : State) : State :=
  ((s.setFormatOf h).setResult off (off + fl) (hdrSamples h)).raiseResult .ok

/-- A command that locates no frame (R191, R210, R360). -/
def noFrame (s : State) : State :=
  ((s.setFormat 0 0 0).setResult 0 (noFrameSkip s.slice) 0).raiseResult .noFrame

/-- What a command does with the frame its search located: a search caches the free-format size for DECODE (R201), and
PROBE touches no DecoderState (R210). -/
def onLocated (mode : ScanMode) (off fl ff : Nat) (h : Word) (s : State) : State :=
  match mode with
  | .probe => probeLocated off fl h s
  | .decode nowrite => decodeLocated nowrite off fl h { s with freeFormat := ff }

/-- A command's search and what follows it (R190, R210, R360). -/
def searchAndRun (mode : ScanMode) (s : State) : State :=
  match findFrame s.slice with
  | some (off, fl, ff) => onLocated mode off fl ff (s.slice.word off) s
  | none => noFrame s

end Sys2Proof.Machine
end

