-- ==== Sys2Proof/Machine/Commands.lean ====
section
/-! DEFINITION. The meanings of the command words: RESET, DECODE, DECODE.nw, PROBE, GETBITS and the reserved words.
A command is one atomic transition (`10_state.md` R33, `20_memory.md` R90, D50; log entry 4, DEDUCED). -/

namespace Sys2Proof.Machine

/-- The outcomes of a step of this machine. -/
abbrev StepOutcome := Host.Outcome State Fault Refusal

/-- RESET (R380). -/
def execReset (s : State) : StepOutcome := .next (s.stateReset.raiseResult .ok)

/-- DECODE with its NOWRITE bit (R360, R361): the slice check, the fast path, else a full resync and a search. -/
def decodeCommandRun (nowrite : Bool) (s : State) : State :=
  if !s.argsOk then s.raiseResult .badArgs
  else
    match fastPath s with
    | some fl => decodeLocated nowrite 0 fl (s.slice.word 0) s
    | none => searchAndRun (.decode nowrite) s.stateReset

/-- DECODE (R360). -/
def execDecode (s : State) : StepOutcome := .next (decodeCommandRun false s)

/-- DECODE.nw (R361). -/
def execDecodeNw (s : State) : StepOutcome := .next (decodeCommandRun true s)

/-- PROBE (R210). -/
def execProbe (s : State) : StepOutcome :=
  .next (if !s.argsOk then s.raiseResult .badArgs else searchAndRun .probe s)

/-- The reader of GETBITS (R167). -/
def State.bitReader (s : State) : BitReader := ⟨s.inBuf, s.brPos.toNat, s.brLimit.toNat, 0⟩

/-- GETBITS n (R167). The cursor is BR_POS as it stands, so after a wrap the next read starts at the wrapped value, as R167's
pseudocode says and not as its corner-case sentence has it (log entry 29, DESIGN CHOICE). -/
def execGetbits (n : BitVec 6) (s : State) : StepOutcome :=
  .next (({ s with
    brData := BitVec.ofNat 32 (s.bitReader.getBits n.toNat).1, brPos := s.brPos + BitVec.ofNat 32 n.toNat }).raiseResult .ok)

/-- Any reserved word (R401): nothing changes but STATUS. CMD took the word when it was written (R34). -/
def execIllegal (_ : Word) (s : State) : StepOutcome := .next (s.raiseResult .illegalCmd)

end Sys2Proof.Machine
end

