-- ==== Sys2Proof/Machine/Bus.lean ====
section
/-! DEFINITION. The host's side: the register map and the host window (`10_state.md` R31-R34, `20_memory.md` R80-R91). -/

namespace Sys2Proof.Machine

/-- Bytes of an access. -/
def Width.bytes : Width → Nat
  | .b1 => 1
  | .b2 => 2
  | .b4 => 4

/-- The regions of the host window (R80). -/
inductive Region where
  | reg | inBuf | pcm | unmapped
  deriving DecidableEq, Repr, Inhabited

def regionOf (off : Nat) : Region :=
  if off < 0x100 then .reg
  else if inBase ≤ off ∧ off < inBase + Config.inBufSize then .inBuf
  else if pcmBase ≤ off ∧ off < pcmBase + 2 * Config.pcmWords then .pcm
  else .unmapped

/-- The register at a REG offset as the host reads it; reserved offsets read 0 (R31). -/
def State.readReg (s : State) (off : Nat) : Word :=
  match off with
  | 0x00 => s.cmd
  | 0x04 => s.statusWord
  | 0x08 => if s.irqEn then 1 else 0
  | 0x0C => s.inOff
  | 0x10 => s.inLen
  | 0x14 => s.resOffset
  | 0x18 => s.resFrameBytes
  | 0x1C => s.resSamples
  | 0x20 => s.resInfo
  | 0x24 => s.resHz
  | 0x28 => s.resKbps
  | 0x2C => s.brPos
  | 0x30 => s.brLimit
  | 0x34 => s.brData
  | 0x38 => s.lastHeader
  | 0x3C => BitVec.ofNat 32 s.freeFormat
  | 0x40 => BitVec.ofNat 32 s.reservoir.length
  | 0x44 => 0x4D504144
  | _ => 0

/-- The result registers, whose value is open while BUSY = 1: RES_* and BR_DATA (R91, R440.2; log entry 9, DESIGN
CHOICE). Every other register reads as the machine holds it: a command is one transition (R90; log entry 4, DEDUCED). -/
def isResultReg (off : Nat) : Bool := (0x14 ≤ off && off < 0x2C) || off == 0x34

/-- A host write of CMD (R34): accepted when BUSY = 0, else dropped with OVERRUN set. -/
def State.writeCmd (w : Word) (s : State) : State :=
  if s.busy then { s with overrun := true } else { s with cmd := w, engine := .command }

/-- `min(v, 8 * P_IN_BUF_SIZE)`: what a write of BR_LIMIT stores (R31). -/
def clampLimit (v : Word) : Word := if v.toNat ≤ 8 * Config.inBufSize then v else BitVec.ofNat 32 (8 * Config.inBufSize)

/-- A host write of a register; read-only and reserved offsets ignore it (R31). -/
def State.writeReg (off : Nat) (v : Word) (s : State) : State :=
  match off with
  | 0x00 => s.writeCmd v
  | 0x04 => s.writeStatus v
  | 0x08 => { s with irqEn := v.getLsbD 0 }
  | 0x0C => { s with inOff := v }
  | 0x10 => { s with inLen := v }
  | 0x2C => { s with brPos := v }
  | 0x30 => { s with brLimit := clampLimit v }
  | _ => s

/-- Registers a running command reads: a write of one while BUSY = 1 is a race (R91, R440.2), which the model refuses (log
entry 11, DESIGN CHOICE). -/
def isCommandInput (off : Nat) : Bool := off == 0x0C || off == 0x10 || off == 0x2C || off == 0x30

/-- Whether a region accepts a read of this width (R80): REG 32 bits only, PCM_BUF 16 or 32. -/
def readable : Region → Width → Bool
  | .reg, w => w == .b4
  | .pcm, w => w != .b1
  | _, _ => true

/-- Whether a region accepts a write of this width (R80): REG 32 bits only; PCM_BUF ignores writes of every width, as
unmapped offsets do (log entry 12, DEDUCED). -/
def writable : Region → Width → Bool
  | .reg, w => w == .b4
  | _, _ => true

/-- The host reads `v`. -/
def State.returnData (v : Word) (s : State) : State := { s with busData := v }

/-- What a read of `w` returns of a value: its low bytes, zero-extended to the 32 bits of `busData` (log entry 5, DESIGN
CHOICE: R84 says which bytes a narrow access reads, and nothing of the bits above them). -/
def Width.cut (w : Width) (v : Nat) : Word := BitVec.ofNat 32 (v % 2 ^ (8 * w.bytes))

/-- The host reads a free value of width `w` (R91). -/
def State.returnOpen (w : Width) (s : State) : State :=
  { s with busData := w.cut (Config.drawWord s.draws).toNat, draws := s.draws + 1 }

/-- A host read (R80, R84, R86, R87, R91). A narrow one is zero-extended into `busData`, whether its value is stored or
free (log entry 5, DESIGN CHOICE). -/
def hostRead (w : Width) (off : Nat) (s : State) : StepOutcome :=
  if off % w.bytes ≠ 0 then .refused .misaligned
  else if !readable (regionOf off) w then .refused .badWidth
  else
    match regionOf off with
    | .reg => .next (if s.busy && isResultReg off then s.returnOpen w else s.returnData (s.readReg off))
    | .inBuf => .next (s.returnData (BitVec.ofNat 32 (s.mem.readLE off w.bytes)))
    | .pcm => .next (if s.busy then s.returnOpen w else s.returnData (BitVec.ofNat 32 (s.mem.readLE off w.bytes)))
    | .unmapped => .next (s.returnData 0)

/-- A host write (R80, R84, R86, R87, R91, R440). -/
def hostWrite (w : Width) (off : Nat) (v : Word) (s : State) : StepOutcome :=
  if off % w.bytes ≠ 0 then .refused .misaligned
  else if !writable (regionOf off) w then .refused .badWidth
  else
    match regionOf off with
    | .reg => if s.busy && isCommandInput off then .refused .hostRace else .next (s.writeReg off v)
    | .inBuf => if s.busy then .refused .hostRace else .next { s with mem := s.mem.write off (bytesLE w.bytes v) }
    | .pcm => .next s
    | .unmapped => .next s

/-- One host step that is the host's turn (R446). A WAIT whose turn has come finds BUSY = 0 and is over (R103). -/
def hostStep (op : HostOp) (s : State) : StepOutcome :=
  match op with
  | .read w off => hostRead w off.toNat s
  | .write w off v => hostWrite w off.toNat v s
  | .wait => .next s

end Sys2Proof.Machine
end

