-- ==== Sys2Proof/Machine/HeaderKinds.lean ====
section
/-! DEFINITION. The meanings of the frame-header kinds (R117, R118): what the engine does when the search of a scanning
command stands before such a header (`41_framesync.md` R190). -/

namespace Sys2Proof.Machine

/-- On to the next candidate, or NO_FRAME when none is left in `[0, L - 4)` (R190, R191). -/
def scanNext (mode : ScanMode) (pos : Nat) (s : State) : State :=
  if pos + 1 + 4 < s.inLen.toNat then { s with engine := .scan mode (pos + 1) } else noFrame s

/-- The loop body of `find_frame` at candidate `pos` with header `h` (R190): a genuine frame is handed to the command,
any other header is passed over. -/
def scanHeader (h : Word) (mode : ScanMode) (pos : Nat) (s : State) : State :=
  match candidate s.slice pos h with
  | some (fl, ff) => onLocated mode pos fl ff h s
  | none => scanNext mode pos s

/-- Run a step of the search where there is one; a header elsewhere is data to which the spec gives no effect (R92;
log entry 10, DESIGN CHOICE). -/
def whenScanning (act : ScanMode → Nat → State → State) (s : State) : StepOutcome :=
  match s.engine with
  | .scan mode pos => .next (act mode pos s)
  | _ => .refused .headerNotScanned

/-- MPEG-1 Layer III: decoded in full (R117). -/
def execMpeg1L3 (f : HeaderFields) (s : State) : StepOutcome := whenScanning (scanHeader (encode (.mpeg1L3 f))) s
/-- MPEG-2 Layer III: decoded in full (R117). -/
def execMpeg2L3 (f : HeaderFields) (s : State) : StepOutcome := whenScanning (scanHeader (encode (.mpeg2L3 f))) s
/-- MPEG-2.5 Layer III: decoded in full if `P_MPEG25`, else passed over as invalid (R111, R117, R118). -/
def execMpeg25L3 (f : HeaderFields) (s : State) : StepOutcome := whenScanning (scanHeader (encode (.mpeg25L3 f))) s
/-- MPEG-1 Layer I: located; DECODE ends UNSUPPORTED, PROBE ends OK (R117, R371). -/
def execMpeg1L1 (f : HeaderFields) (s : State) : StepOutcome := whenScanning (scanHeader (encode (.mpeg1L1 f))) s
/-- MPEG-1 Layer II: located; DECODE ends UNSUPPORTED, PROBE ends OK (R117, R371). -/
def execMpeg1L2 (f : HeaderFields) (s : State) : StepOutcome := whenScanning (scanHeader (encode (.mpeg1L2 f))) s
/-- MPEG-2 Layer I: located; DECODE ends UNSUPPORTED, PROBE ends OK (R117, R371). -/
def execMpeg2L1 (f : HeaderFields) (s : State) : StepOutcome := whenScanning (scanHeader (encode (.mpeg2L1 f))) s
/-- MPEG-2 Layer II: located; DECODE ends UNSUPPORTED, PROBE ends OK (R117, R371). -/
def execMpeg2L2 (f : HeaderFields) (s : State) : StepOutcome := whenScanning (scanHeader (encode (.mpeg2L2 f))) s

/-- Version code 01: never located, the search moves past it (R118). -/
def execInvalidVersion01 (_ : BitVec 19) (s : State) : StepOutcome := whenScanning scanNext s
/-- Layer code 00 under MPEG-1: never located (R118). -/
def execInvalidLayer00Mpeg1 (_ : BitVec 17) (s : State) : StepOutcome := whenScanning scanNext s
/-- Layer code 00 under MPEG-2: never located (R118). -/
def execInvalidLayer00Mpeg2 (_ : BitVec 17) (s : State) : StepOutcome := whenScanning scanNext s
/-- Layer code 00 under MPEG-2.5: never located (R118). -/
def execInvalidLayer00Mpeg25 (_ : BitVec 17) (s : State) : StepOutcome := whenScanning scanNext s
/-- MPEG-2.5 Layer I: never located (R118). -/
def execInvalidMpeg25L1 (_ : BitVec 17) (s : State) : StepOutcome := whenScanning scanNext s
/-- MPEG-2.5 Layer II: never located (R118). -/
def execInvalidMpeg25L2 (_ : BitVec 17) (s : State) : StepOutcome := whenScanning scanNext s
/-- Bitrate index 15: never located (R118). -/
def execInvalidBitrate15 (_ : BitVec 5) (_ : BitVec 12) (s : State) : StepOutcome := whenScanning scanNext s
/-- Sample-rate index 3: never located (R118). -/
def execInvalidSr3 (_ : BitVec 9) (_ : BitVec 10) (s : State) : StepOutcome := whenScanning scanNext s

end Sys2Proof.Machine
end

