-- ==== Sys2Proof/Machine/Dispatch.lean ====
section
/-! DEFINITION. exec: one arm per constructor of Instr, each one call of its meaning. -/

namespace Sys2Proof.Machine

def exec (i : Instr) (s : State) : Host.Outcome State Fault Refusal :=
  match i with
  | .reset => Sys2Proof.Machine.execReset s
  | .decode => Sys2Proof.Machine.execDecode s
  | .decodeNw => Sys2Proof.Machine.execDecodeNw s
  | .probe => Sys2Proof.Machine.execProbe s
  | .getbits n => Sys2Proof.Machine.execGetbits n s
  | .illegal w => Sys2Proof.Machine.execIllegal w s
  | .mpeg1L3 f => Sys2Proof.Machine.execMpeg1L3 f s
  | .mpeg2L3 f => Sys2Proof.Machine.execMpeg2L3 f s
  | .mpeg25L3 f => Sys2Proof.Machine.execMpeg25L3 f s
  | .mpeg1L1 f => Sys2Proof.Machine.execMpeg1L1 f s
  | .mpeg1L2 f => Sys2Proof.Machine.execMpeg1L2 f s
  | .mpeg2L1 f => Sys2Proof.Machine.execMpeg2L1 f s
  | .mpeg2L2 f => Sys2Proof.Machine.execMpeg2L2 f s
  | .invalidVersion01 r => Sys2Proof.Machine.execInvalidVersion01 r s
  | .invalidLayer00Mpeg1 r => Sys2Proof.Machine.execInvalidLayer00Mpeg1 r s
  | .invalidLayer00Mpeg2 r => Sys2Proof.Machine.execInvalidLayer00Mpeg2 r s
  | .invalidLayer00Mpeg25 r => Sys2Proof.Machine.execInvalidLayer00Mpeg25 r s
  | .invalidMpeg25L1 r => Sys2Proof.Machine.execInvalidMpeg25L1 r s
  | .invalidMpeg25L2 r => Sys2Proof.Machine.execInvalidMpeg25L2 r s
  | .invalidBitrate15 hi lo => Sys2Proof.Machine.execInvalidBitrate15 hi lo s
  | .invalidSr3 hi lo => Sys2Proof.Machine.execInvalidSr3 hi lo s

end Sys2Proof.Machine
end

