-- ==== Sys2Proof/Machine/Fetch.lean ====
section
/-! DEFINITION. Where the engine's next instruction word stands and what it is: CMD for an accepted command, the slice
bytes at the scan position for a search (`10_state.md` R30, R33, R34; `41_framesync.md` R190). -/

namespace Sys2Proof.Machine

/-- The engine's next instruction word and its kind; none when the engine is idle. -/
def fetchWord (s : State) : Option (Space × Word) :=
  match s.engine with
  | .idle => none
  | .command => some (.command, s.cmd)
  | .scan _ pos => some (.header, s.slice.word pos)

/-- One transition of the engine: the fetched word's instruction; bytes with no sync are no instruction, and the search
moves past them (R118, R190). An idle engine holds its state (R429). -/
def engineStep (s : State) : Host.Outcome State Fault Refusal :=
  match fetchWord s with
  | none => .next s
  | some (sp, w) =>
    match decodeIn sp w with
    | some i => exec i s
    | none => whenScanning scanNext s

/-- Bytes of a header word at increasing offsets (R83). -/
def headerBytes (w : Word) : List Byte := [headerByte w 0, headerByte w 1, headerByte w 2, headerByte w 3]

/-- `s` with a command word accepted and not yet run, and no host access pending. -/
def State.withCommand (w : Word) (s : State) : State := { s with cmd := w, engine := .command, bus := [] }

/-- `s` with a header word at the start of a slice that a DECODE is searching, at the search's first position; a slice of
five bytes is the shortest that has a candidate (R190). -/
def State.withHeader (w : Word) (s : State) : State :=
  { s with mem := s.mem.write inBase (headerBytes w), inOff := 0, inLen := 5, engine := .scan (.decode false) 0, bus := [] }

end Sys2Proof.Machine
end

