-- ==== Sys2Proof/Machine/Step.lean ====
section
/-! DEFINITION. One step of the two agents, host and engine (`00_scope.md` R8). Host accesses are taken in program order
(R89). While BUSY = 0 the host moves; while BUSY = 1 a waiting or silent host lets the engine move, and before any other
host access either may (R447), by a free choice (log entry 3, DESIGN CHOICE). -/

namespace Sys2Proof.Machine

def step (s : State) : Host.Outcome State Fault Refusal :=
  match s.bus with
  | [] => engineStep s
  | op :: rest =>
    if !s.busy then hostStep op { s with bus := rest }
    else if op = .wait then engineStep s
    else if Config.engineFirst s.draws then engineStep { s with draws := s.draws + 1 }
    else hostStep op { s with bus := rest, draws := s.draws + 1 }

/-- `s` with the instruction of a table row's word placed where `step` fetches its next instruction (log entry 8): a
header row's word before a search, any other in CMD. -/
def State.withFetchWord (s : State) (nbits w : Nat) : State :=
  match tableSpace (tableWord nbits w) with
  | .command => s.withCommand (tableWord nbits w)
  | .header => s.withHeader (tableWord nbits w)

end Sys2Proof.Machine
end

