-- ==== Sys2Proof/Machine/Exact.lean ====
section
/-! DEFINITION. The exact real result of a real-valued rule (`00_scope.md` R13, R15). The machine does not use it: it
evaluates the same rules in binary32 under `P_FP`, of which R15 assumes nothing that would tie it to these values. -/

namespace Sys2Proof.Machine

/-- The real value of a rule's right side over its real operands. -/
noncomputable def exactValue (operand : Nat → ℝ) : RExpr → ℝ
  | .opd i => operand i
  | .ratio n d => (n : ℝ) / d
  | .pow43 m => (m : ℝ) ^ ((4 : ℝ) / 3)
  | .exp2 n d => (2 : ℝ) ^ ((n : ℝ) / d)
  | .sinPi n d => Real.sin (Real.pi * n / d)
  | .cosPi n d => Real.cos (Real.pi * n / d)
  | .sqrt a => Real.sqrt (exactValue operand a)
  | .neg a => -exactValue operand a
  | .add a b => exactValue operand a + exactValue operand b
  | .sub a b => exactValue operand a - exactValue operand b
  | .mul a b => exactValue operand a * exactValue operand b
  | .div a b => exactValue operand a / exactValue operand b

/-- The real number a finite binary32 word stands for. -/
noncomputable def wordValue (w : Word) : Option ℝ := (binary32Value w).map fun p => (p.1 : ℝ) * (2 : ℝ) ^ p.2

/-- `round_half_away(x) = sign(x) * floor(|x| + 0.5)` of R335, on the reals. -/
noncomputable def realRoundHalfAway (x : ℝ) : Int := if x < 0 then -⌊|x| + 1 / 2⌋ else ⌊|x| + 1 / 2⌋

end Sys2Proof.Machine
end

