-- ==== Sys2Proof/Machine/Invariant.lean ====
section
/-! DEFINITION. What holds of the machine's state in every run: the ranges `10_state.md` states for its fields and the
canonical form of memory. -/

namespace Sys2Proof.Machine

/-- Only the two buffers hold bytes (R80). -/
def Memory.inWindow (m : Memory) : Prop := ∀ c ∈ m, regionOf c.1 = .inBuf ∨ regionOf c.1 = .pcm

/-- `last_header` is the reset value or a valid header (R51). -/
def lastHeaderOk (h : Word) : Prop := h = 0 ∨ hdrValid h = true

/-- A search in progress has a legal slice and stands at one of its candidates (R82, R190). -/
def scanOk (s : State) : Prop :=
  match s.engine with
  | .scan _ pos => s.argsOk = true ∧ pos + 4 < s.inLen.toNat
  | _ => True

/-- The state invariant. -/
structure StateInv (s : State) : Prop where
  memWf : Memory.wf s.mem
  memWindow : Memory.inWindow s.mem
  brLimit : s.brLimit.toNat ≤ 8 * Config.inBufSize
  freeFormat : s.freeFormat < Config.maxFreeFormat
  reservoir : s.reservoir.length ≤ Config.resMax
  mainData : s.mainData.length ≤ Config.scratch
  lastHeader : lastHeaderOk s.lastHeader
  scan : scanOk s

end Sys2Proof.Machine
end

