-- ==== Sys2Proof/Safety.lean ====
section
/-! DEFINITION. What counts as a safe run, in the terms the claims use: the host keeps the duties of
`70_reset_and_hazards.md` R440, no step is refused, and the state invariant holds. -/

namespace Sys2Proof.Machine

/-- The host access keeps R440.1: aligned, and of a width its region accepts. -/
def HostOp.wellPlaced : HostOp → Bool
  | .read w off => off.toNat % w.bytes == 0 && readable (regionOf off.toNat) w
  | .write w off _ => off.toNat % w.bytes == 0 && writable (regionOf off.toNat) w
  | .wait => true

/-- The host access is none of the writes that race with a running command (R440.2). -/
def HostOp.raceFree : HostOp → Bool
  | .write _ off _ => !(regionOf off.toNat == .inBuf || (regionOf off.toNat == .reg && isCommandInput off.toNat))
  | _ => true

/-- A host access the machine admits in its present state (R440). -/
def HostOp.admitted (busy : Bool) (op : HostOp) : Bool := op.wellPlaced && (!busy || op.raceFree)

/-- Whether a command may be running after a host access, `busy` saying whether one may be before it: a CMD write starts
one (R34), and a WAIT is over only when none runs (R103). -/
def HostOp.busyAfter (busy : Bool) : HostOp → Bool
  | .wait => false
  | .write _ off _ => busy || off == 0
  | .read _ _ => busy

/-- A host program that keeps R440 however long its commands take: each access is admitted, and one that would race with
a command stands before every CMD write, or behind a WAIT with no CMD write between. -/
def keepsDuties : Bool → List HostOp → Bool
  | _, [] => true
  | busy, op :: ops => op.admitted busy && keepsDuties (op.busyAfter busy) ops

/-- The host access that the machine's next step takes, if it takes one. -/
def State.nextAccess (s : State) : Option HostOp :=
  match s.bus with
  | [] => none
  | op :: _ =>
    if !s.busy then some op
    else if op = .wait ∨ Config.engineFirst s.draws then none
    else some op

/-- The outcome of a step is a next state. -/
def isNext (o : Host.Outcome State Fault Refusal) : Prop := ∃ t, o = .next t

/-- A safe state: the host's program keeps its duties, and the invariant holds. -/
def SafeState (s : State) : Prop := StateInv s ∧ keepsDuties s.busy s.bus = true

end Sys2Proof.Machine
end

