-- ==== Sys2Proof/Certificates/Slice0/Obligations.lean ====
section
/-! DEFINITION. The statements for the provers. Terms they share stand first, in `Sys2Proof.Claims`. -/

namespace Sys2Proof.Claims
open Sys2Proof.Machine

/-- DECODE, or DECODE.nw when `nw`. -/
def decodeInstr (nw : Bool) : Instr := if nw then .decodeNw else .decode

/-- The seven valid header kinds (R117). -/
def isValidKind : Instr → Bool
  | .mpeg1L3 _ | .mpeg2L3 _ | .mpeg25L3 _ | .mpeg1L1 _ | .mpeg1L2 _ | .mpeg2L1 _ | .mpeg2L2 _ => true
  | _ => false

/-- The Layer III kinds (R117). -/
def isLayer3Kind : Instr → Bool
  | .mpeg1L3 _ | .mpeg2L3 _ | .mpeg25L3 _ => true
  | _ => false

/-- The Layer I and II kinds (R117). -/
def isLayer12Kind : Instr → Bool
  | .mpeg1L1 _ | .mpeg1L2 _ | .mpeg2L1 _ | .mpeg2L2 _ => true
  | _ => false

/-- The invalid header rows of the opcode table (R118). -/
def isInvalidKind (i : Instr) : Bool := i.space == .header && !isValidKind i

/-- No DecoderState item differs (R50). -/
def SameDecoderState (s t : State) : Prop :=
  t.lastHeader = s.lastHeader ∧ t.freeFormat = s.freeFormat ∧ t.reservoir = s.reservoir ∧ t.chan0 = s.chan0 ∧ t.chan1 = s.chan1

/-- Every DecoderState item has its reset value (R381). -/
def DecoderReset (t : State) : Prop :=
  t.lastHeader = 0 ∧ t.freeFormat = 0 ∧ t.reservoir = [] ∧ t.chan0 = .zero ∧ t.chan1 = .zero

/-- The registers no command writes, and the host's side of the model. -/
def SameInputs (s t : State) : Prop :=
  t.cmd = s.cmd ∧ t.overrun = s.overrun ∧ t.irqEn = s.irqEn ∧ t.inOff = s.inOff ∧ t.inLen = s.inLen ∧ t.brLimit = s.brLimit
    ∧ t.bus = s.bus ∧ t.busData = s.busData

/-- The GETBITS registers a command other than GETBITS leaves alone. -/
def SameBitRegs (s t : State) : Prop := t.brPos = s.brPos ∧ t.brData = s.brData

/-- The main-data buffer is as before, and no free value has been drawn. -/
def SameScratch (s t : State) : Prop := t.mainData = s.mainData ∧ t.draws = s.draws

/-- The command has ended with this code (R34). -/
def Ended (code : ResultCode) (t : State) : Prop := t.result = code ∧ t.done = true ∧ t.engine = .idle

/-- Every byte of the window reads as before. -/
def SameMemory (s t : State) : Prop := ∀ a, t.mem.read a = s.mem.read a

/-- PCM words `[0, ws.length)` hold `ws` and every other byte reads as before (R85). -/
def PcmWritten (ws : List Half) (s t : State) : Prop :=
  (∀ k, k < ws.length → t.mem.readLE (pcmBase + 2 * k) 2 = (ws.getD k 0).toNat)
    ∧ ∀ a, (a < pcmBase ∨ pcmBase + 2 * ws.length ≤ a) → t.mem.read a = s.mem.read a

/-- PCM words are written unless NOWRITE (R336, R361). -/
def PcmUnless (nw : Bool) (ws : List Half) (s t : State) : Prop := if nw then SameMemory s t else PcmWritten ws s t

/-- RES_OFFSET, RES_FRAME_BYTES and the format registers of a frame located at `off` (R362). -/
def LocatedRegs (off fl : Nat) (h : Word) (t : State) : Prop :=
  t.resOffset = BitVec.ofNat 32 off ∧ t.resFrameBytes = BitVec.ofNat 32 (off + fl) ∧ t.resInfo = hdrInfo h
    ∧ t.resHz = BitVec.ofNat 32 (hdrHz h) ∧ t.resKbps = BitVec.ofNat 32 (hdrKbps h)

/-- The side information of the frame at `off` and the reader after it (R220). -/
def sideInfoAt (s : State) (off fl : Nat) (h : Word) : SideInfo × BitReader :=
  readSideInfo h (frameReader s.slice off fl h)

/-- The restored main data of the frame at `off` (R351). -/
def mainDataAt (s : State) (off fl : Nat) (h : Word) : List Byte :=
  reservoirRestore s.reservoir (sideInfoAt s off fl h).1.mainDataBegin
    (freshBytes s.slice off fl (sideInfoAt s off fl h).2.pos)

/-- The NO_FRAME row of R362 and R210. -/
def NoFrameRow (s t : State) : Prop :=
  Ended .noFrame t ∧ t.resOffset = 0 ∧ t.resFrameBytes = BitVec.ofNat 32 (s.inLen.toNat - 4) ∧ t.resSamples = 0
    ∧ t.resInfo = 0 ∧ t.resHz = 0 ∧ t.resKbps = 0 ∧ SameMemory s t ∧ SameScratch s t

/-- The rows of R362 for a frame located at `off` with header `h`; `s` is the machine when the frame is located, after
the full resync if there was one. -/
def LocatedRows (nw : Bool) (off fl : Nat) (h : Word) (s t : State) : Prop :=
  LocatedRegs off fl h t ∧
  (if hdrLayer h ≠ 3 then Ended .unsupported t ∧ t.resSamples = 0 ∧ DecoderReset t ∧ SameMemory s t ∧ SameScratch s t
   else
    match sideCheck h (sideInfoAt s off fl h).1 (sideInfoAt s off fl h).2 with
    | some .unsupported => Ended .unsupported t ∧ t.resSamples = 0 ∧ DecoderReset t ∧ SameMemory s t ∧ SameScratch s t
    | some _ => Ended .corrupt t ∧ t.resSamples = 0 ∧ DecoderReset t ∧ PcmUnless nw (zeroPcm h) s t ∧ SameScratch s t
    | none =>
      if s.reservoir.length < (sideInfoAt s off fl h).1.mainDataBegin then
        Ended .resUnderflow t ∧ t.resSamples = 0 ∧ t.lastHeader = h ∧ t.freeFormat = s.freeFormat
          ∧ t.chan0 = .zero ∧ t.chan1 = .zero ∧ t.reservoir = reservoirSave (mainDataAt s off fl h) 0
          ∧ PcmUnless nw (zeroPcm h) s t ∧ t.mainData = mainDataAt s off fl h
      else
        let w := decodeMainData h (sideInfoAt s off fl h).1 (mainDataAt s off fl h) s
        Ended .ok t ∧ t.resSamples = BitVec.ofNat 32 (576 * hdrGranules h) ∧ t.lastHeader = h ∧ t.freeFormat = s.freeFormat
          ∧ t.chan0 = w.chan0 ∧ t.chan1 = w.chan1
          ∧ t.reservoir = reservoirSave (mainDataAt s off fl h) (bytesConsumed w.md.pos)
          ∧ w.pcm.length = 576 * hdrGranules h * hdrChannels h ∧ PcmUnless nw w.pcm s t ∧ t.mainData = mainDataAt s off fl h)

/-- A genuine frame of length `fl` starts at slice offset `i`, and its free-format size is `ff` (R190). -/
def FrameAt (S : Slice) (i : Nat) (h : Word) (fl ff : Nat) : Prop :=
  hdrValid h = true ∧ (if hdrFree h then freeProbe S i h = (fl, ff) else fl = hdrFrameLen h 0 ∧ ff = 0)
    ∧ 0 < fl ∧ genuine S h i fl ff = true

/-- Stride `k` is confirmed by two headers (R194). -/
def Confirms (S : Slice) (i : Nat) (h : Word) (k : Nat) : Prop :=
  4 ≤ k ∧ k < 2304 ∧ i + k + 4 ≤ S.len ∧ hdrCompare h (S.word (i + k)) = true ∧ hdrPad h < k
    ∧ i + k + (k - hdrPad h + hdrPad (S.word (i + k))) + 4 ≤ S.len
    ∧ hdrCompare h (S.word (i + k + (k - hdrPad h + hdrPad (S.word (i + k))))) = true

/-- R118's list of invalid encodings. -/
def InvalidHeader (h : Word) : Prop :=
  h.extractLsb' 24 8 ≠ 0xFF ∨ h.extractLsb' 21 3 ≠ 7 ∨ hdrVersionCode h = 1 ∨ hdrLayerCode h = 0
    ∨ (hdrVersionCode h = 0 ∧ (hdrLayerCode h = 3 ∨ hdrLayerCode h = 2)) ∨ (hdrVersionCode h = 0 ∧ Config.mpeg25 = false)
    ∨ hdrBitrateIndex h = 15 ∨ hdrSrIndex h = 3

/-- The next bits of a reader, all within its valid bytes. -/
def Upcoming (r : BitReader) (bits : List Bool) : Prop :=
  ∀ k, k < bits.length → r.pos + k < 8 * r.buf.length ∧ bitOf r.buf (r.pos + k) = bits.getD k false

/-- A codeword written in binary. -/
def code (digits : List Nat) : List Bool := digits.map (· == 1)

/-- Count1 table A of R152: `vwxy` and codeword. -/
def tableARows : List (Nat × List Nat) :=
  [(0, [1]), (1, [0, 1, 0, 1]), (2, [0, 1, 0, 0]), (3, [0, 0, 1, 0, 1]), (4, [0, 1, 1, 0]), (5, [0, 0, 0, 1, 0, 1]),
   (6, [0, 0, 1, 0, 0]), (7, [0, 0, 0, 1, 0, 0]), (8, [0, 1, 1, 1]), (9, [0, 0, 0, 1, 1]), (10, [0, 0, 1, 1, 0]),
   (11, [0, 0, 0, 0, 0, 0]), (12, [0, 0, 1, 1, 1]), (13, [0, 0, 0, 0, 1, 0]), (14, [0, 0, 0, 0, 1, 1]), (15, [0, 0, 0, 0, 0, 1])]

/-- Count1 table B of R152. -/
def tableBRows : List (Nat × List Nat) :=
  [(0, [1, 1, 1, 1]), (1, [1, 1, 1, 0]), (2, [1, 1, 0, 1]), (3, [1, 1, 0, 0]), (4, [1, 0, 1, 1]), (5, [1, 0, 1, 0]),
   (6, [1, 0, 0, 1]), (7, [1, 0, 0, 0]), (8, [0, 1, 1, 1]), (9, [0, 1, 1, 0]), (10, [0, 1, 0, 1]), (11, [0, 1, 0, 0]),
   (12, [0, 0, 1, 1]), (13, [0, 0, 1, 0]), (14, [0, 0, 0, 1]), (15, [0, 0, 0, 0])]

/-- Codebooks 1, 2 and 3 of R151: codebook, pair and codeword. -/
def codebookRows : List (Nat × (Nat × Nat) × List Nat) :=
  [(1, (0, 0), [1]), (1, (0, 1), [0, 0, 1]), (1, (1, 0), [0, 1]), (1, (1, 1), [0, 0, 0]),
   (2, (0, 0), [1]), (2, (0, 1), [0, 1, 0]), (2, (0, 2), [0, 0, 0, 0, 0, 1]), (2, (1, 0), [0, 1, 1]), (2, (1, 1), [0, 0, 1]),
   (2, (1, 2), [0, 0, 0, 0, 1]), (2, (2, 0), [0, 0, 0, 1, 1]), (2, (2, 1), [0, 0, 0, 1, 0]), (2, (2, 2), [0, 0, 0, 0, 0, 0]),
   (3, (0, 0), [1, 1]), (3, (0, 1), [1, 0]), (3, (0, 2), [0, 0, 0, 0, 0, 1]), (3, (1, 0), [0, 0, 1]), (3, (1, 1), [0, 1]),
   (3, (1, 2), [0, 0, 0, 0, 1]), (3, (2, 0), [0, 0, 0, 1, 1]), (3, (2, 1), [0, 0, 0, 1, 0]), (3, (2, 2), [0, 0, 0, 0, 0, 0])]

/-- The granules of the frame code nothing: no big values and no main-data bits. -/
def EmptyGranules (si : SideInfo) : Prop := ∀ gr ch, (si.at gr ch).part23Length = 0 ∧ (si.at gr ch).bigValues = 0

/-- A check of R224 on one granule and channel that gives CORRUPT fails. -/
def GranuleCorrupt (sfreq : Nat) (gi : GranuleInfo) : Prop :=
  288 < gi.bigValues ∨ (gi.windowSwitching = true ∧ gi.blockType = 0)
    ∨ ∃ j, j < 3 ∧ 0 < gi.regionLen sfreq j ∧ (gi.tableSelect.getD j 0 = 4 ∨ gi.tableSelect.getD j 0 = 14)

/-- The check of R224 on one granule and channel that gives UNSUPPORTED fails: a mixed block at 8000 Hz. -/
def GranuleUnsupported (sfreq : Nat) (gi : GranuleInfo) : Prop := gi.kind = .mixed ∧ sfreq = 8

/-- The registers of R31 as the host reads them: offset and value. -/
def registerMap (s : State) : List (Nat × Word) :=
  [(0x00, s.cmd), (0x04, s.statusWord), (0x08, if s.irqEn then 1 else 0), (0x0C, s.inOff), (0x10, s.inLen),
   (0x14, s.resOffset), (0x18, s.resFrameBytes), (0x1C, s.resSamples), (0x20, s.resInfo), (0x24, s.resHz), (0x28, s.resKbps),
   (0x2C, s.brPos), (0x30, s.brLimit), (0x34, s.brData), (0x38, s.lastHeader), (0x3C, BitVec.ofNat 32 s.freeFormat),
   (0x40, BitVec.ofNat 32 s.reservoir.length), (0x44, 0x4D504144)]

/-- The result codes of R400. -/
def resultCodes : List (ResultCode × Nat) :=
  [(.ok, 0), (.noFrame, 1), (.corrupt, 2), (.resUnderflow, 3), (.unsupported, 4), (.illegalCmd, 5), (.badArgs, 6)]

/-- What a host read may not ask for while BUSY = 1: PCM_BUF, RES_* and BR_DATA (R440.2). -/
def OpenWhileBusy (off : Nat) : Prop := regionOf off = .pcm ∨ off ∈ [0x14, 0x18, 0x1C, 0x20, 0x24, 0x28, 0x34]

/-- The frame DECODE takes: offset, length, and the machine when it is located (R200, R201). -/
def located (s : State) : Option (Nat × Nat × State) :=
  match fastPath s with
  | some fl => some (0, fl, s)
  | none =>
    match findFrame s.slice with
    | some (off, fl, ff) => some (off, fl, { s.stateReset with freeFormat := ff })
    | none => none

/-- The fast path takes the frame of length `fl` at offset 0 (R200). -/
def FastPathTakes (s : State) (fl : Nat) : Prop :=
  4 < s.inLen.toNat ∧ s.lastHeader.extractLsb' 24 8 = 0xFF ∧ hdrCompare s.lastHeader (s.slice.word 0) = true
    ∧ fl = hdrFrameLen (s.slice.word 0) s.freeFormat ∧ 0 < fl
    ∧ (fl = s.inLen.toNat ∨ (fl + 4 ≤ s.inLen.toNat ∧ hdrCompare (s.slice.word 0) (s.slice.word fl) = true))

/-- What granule `g` of a frame meets (R360). -/
def beforeGranule (h : Word) (si : SideInfo) (md : List Byte) (s : State) (g : Nat) : FrameWork :=
  decodeGranules h si g 0 (frameStart md s)

/-- Samples `[0, 576)` of channel `c` in granule `g` of a frame (R330). -/
def granuleSamples (h : Word) (si : SideInfo) (md : List Byte) (s : State) (g c : Nat) : List Word :=
  (granuleOut h si g (beforeGranule h si md s g)).2.getD c []

/-- The signal state of channel `c`. -/
def channelOf (w : FrameWork) (c : Nat) : Channel := if c = 0 then w.chan0 else w.chan1

/-- The synthesis history before the call of time slot `t` of a granule (R330, R331). -/
def historyAt (S : Vector Word 576) (hist : Vector Row 15) : Nat → Vector Row 15
  | 0 => hist
  | t + 1 => (synthCall (slot S t) (historyAt S hist t)).2

end Sys2Proof.Claims

open Sys2Proof Sys2Proof.Machine Sys2Proof.Claims

/-! ### Encodings -/

/-- R101: the whole decode of a command word, and what a reserved word does. -/
def Obligations.CommandDecodeIsRule101 : Prop :=
  decodeCommand 0x00000001 = .reset ∧ decodeCommand 0x00000002 = .decode ∧ decodeCommand 0x00000012 = .decodeNw
    ∧ decodeCommand 0x00000003 = .probe
    ∧ (∀ n : Nat, n ≤ 32 → decodeCommand (BitVec.ofNat 32 (4 + 32 * n)) = .getbits (BitVec.ofNat 6 n))
    ∧ ∀ w : Word, w ≠ 1 → w ≠ 2 → w ≠ 0x12 → w ≠ 3 → (∀ n : Nat, n ≤ 32 → w ≠ BitVec.ofNat 32 (4 + 32 * n)) →
        decodeCommand w = .illegal w
          ∧ ∀ s : State, exec (.illegal w) s = .next { s with result := .illegalCmd, done := true, engine := .idle }

/-- Decoding an encoded well-formed instruction gives it back, for every instruction and operand. -/
def Obligations.DecodeInvertsEncode : Prop := ∀ i : Instr, i.wf = true → decodeIn i.space (encode i) = some i

/-- Every word a decoder reads is the encoding of the well-formed instruction it gives. -/
def Obligations.EncodeInvertsDecode : Prop :=
  (∀ w : Word, (decodeCommand w).wf = true ∧ (decodeCommand w).space = .command ∧ encode (decodeCommand w) = w)
    ∧ ∀ (h : Word) (i : Instr), decodeHeader h = .ok i → i.wf = true ∧ i.space = .header ∧ encode i = h

/-- R111's validity test agrees with the opcode table's seven valid kinds. -/
def Obligations.ValidHeadersAreTheSevenKinds : Prop :=
  ∀ h : Word, hdrValid h = true ↔ ∃ i, decodeHeader h = .ok i ∧ isValidKind i = true

/-- R118: an invalid encoding is never located: by the search at no position of any slice (R190), and by the fast path not at
offset 0 (R200). -/
def Obligations.InvalidHeadersAreNeverLocated : Prop :=
  (∀ (S : Slice) (i : Nat) (h : Word), InvalidHeader h → candidate S i h = none)
  ∧ ∀ (s : State) (fl : Nat), fastPath s = some fl → ¬InvalidHeader (s.slice.word 0)

/-- Words written out from R100, R110 and the opcode table decode to the instructions they stand for. -/
def Obligations.SampleWordsDecode : Prop :=
  decodeCommand 0x00000404 = .getbits 32 ∧ decodeCommand 0x00000424 = .illegal 0x00000424
    ∧ decodeHeader 0xFFFB9064 = .ok (.mpeg1L3 ⟨1, 9, 0, 0, 0, 1, 2, 0, 1, 0⟩)
    ∧ decodeHeader 0xFFF380C0 = .ok (.mpeg2L3 ⟨1, 8, 0, 0, 0, 3, 0, 0, 0, 0⟩)
    ∧ decodeHeader 0xFFEB10C0 = .ok (.invalidVersion01 0x310C0)

/-- R182's RES_INFO formula. -/
def Obligations.ResInfoIsRule182 : Prop :=
  ∀ h : Word, hdrValid h = true →
    hdrInfo h = BitVec.ofNat 32 (hdrChannels h + 4 * hdrLayer h + 16 * hdrVersion h + 64 * (hdrFree h).toNat + 128 * (hdrCrc h).toNat
      + 256 * (hdrPadded h).toNat + 512 * hdrMode h + 2048 * (h.extractLsb' 4 2).toNat)

/-- R184, R186: every valid header that is not free-format has a frame of 24 to 1729 bytes. -/
def Obligations.CbrFrameLengthsAreBounded : Prop :=
  ∀ (h : Word) (ff : Nat), hdrValid h = true → hdrFree h = false → 24 ≤ hdrFrameLen h ff ∧ hdrFrameLen h ff ≤ 1729

/-! ### Reset, step and invariant -/

/-- R430: the machine after power-on reset. That an offset has one free value, the same at each read, and that md_len is 0 are
the model's choices (log entries 13 and 23, DESIGN CHOICE). -/
def Obligations.PowerOnResetState : Prop :=
  (∀ off, State.reset.readReg off = if off = 0x44 then 0x4D504144 else 0) ∧ State.reset.statusWord = 0
    ∧ State.reset.busy = false ∧ State.reset.irq = false ∧ DecoderReset State.reset
    ∧ (∀ a, State.reset.mem.read a = Config.powerOnByte a)
    ∧ ∀ (n : Nat) (p : Nat), (mainReader State.reset.mainData n).limit = 0
        ∧ ({ mainReader State.reset.mainData n with pos := p }).rawBit.1 = Config.drawBit n

/-- A step runs the instruction the engine's next word decodes to; this says when the engine moves and when the host.
That a free value decides between them is the model's choice (log entry 3). -/
def Obligations.StepRunsTheDecodedInstruction : Prop :=
  ∀ s : State,
    (∀ sp w i, fetchWord s = some (sp, w) → decodeIn sp w = some i → (s.bus = [] ∨ ∃ rest, s.bus = .wait :: rest) →
      step s = exec i s)
    ∧ (∀ mode pos e, s.engine = .scan mode pos → decodeHeader (s.slice.word pos) = .error e →
        (s.bus = [] ∨ ∃ rest, s.bus = .wait :: rest) → step s = .next (scanNext mode pos s))
    ∧ (∀ sp w i op rest, fetchWord s = some (sp, w) → s.bus = op :: rest → op ≠ .wait → decodeIn sp w = some i →
        step s = if Config.engineFirst s.draws then exec i { s with draws := s.draws + 1 }
          else hostStep op { s with bus := rest, draws := s.draws + 1 })
    ∧ (s.engine = .idle → step s = match s.bus with | [] => .next s | op :: rest => hostStep op { s with bus := rest })

/-- The state after reset meets the invariant. -/
def Obligations.ResetMeetsInvariant : Prop := StateInv State.reset

/-- Every step keeps the invariant, from every state that meets it. -/
def Obligations.StepKeepsInvariant : Prop := ∀ s t : State, StateInv s → step s = .next t → StateInv t

/-- A host that keeps R440 is never refused: if each access is admitted in the state whose step takes it, the run goes on,
whatever the bitstream; and it is so for every host program that keeps its duties however long its commands take. `admitted` and
`keepsDuties` are wider than R440 in two of the model's choices: reads of PCM_BUF, RES_* and BR_DATA while BUSY = 1, which R440.2
forbids, are answered with free values (log entry 9, DESIGN CHOICE), and PCM_BUF and unmapped offsets take every width (log entry
12, DEDUCED). Which access a step takes while BUSY = 1 is decided by a free value (`nextAccess`, log entry 3, DESIGN CHOICE). -/
def Obligations.AdmittedRunsNeverStop : Prop :=
  ∀ (s : State) (n : Nat),
    ((∀ k u op, k < n → Sys2Proof.core.run k s = .next u → u.nextAccess = some op → op.admitted u.busy = true) →
      ∃ t, Sys2Proof.core.run n s = .next t)
    ∧ (keepsDuties s.busy s.bus = true → ∃ t, Sys2Proof.core.run n s = .next t)

/-! ### The command words -/

/-- R411: every command sets DONE whatever its result; and what no command changes. -/
def Obligations.EveryCommandCompletes : Prop :=
  ∀ (i : Instr) (s : State), i.space = .command →
    ∃ t, exec i s = .next t ∧ t.done = true ∧ t.busy = false ∧ SameInputs s t
      ∧ ∀ a, (a < pcmBase ∨ pcmBase + 2 * Config.pcmWords ≤ a) → t.mem.read a = s.mem.read a

/-- R380: RESET resets DecoderState and changes nothing else but STATUS. -/
def Obligations.ResetCommandEffect : Prop :=
  ∀ s : State, exec .reset s = .next { s with
    lastHeader := 0, freeFormat := 0, reservoir := [], chan0 := .zero, chan1 := .zero, result := .ok, done := true, engine := .idle }

/-- R167: the value GETBITS returns, bit by bit, its cursor, and its frame. That a wrapped BR_POS is read from as it stands is
the model's choice between R167's pseudocode and its corner-case sentence (log entry 29, DESIGN CHOICE). -/
def Obligations.GetbitsReadsMsbFirst : Prop :=
  ∀ (n : BitVec 6) (s : State), n.toNat ≤ 32 → s.brLimit.toNat ≤ 8 * Config.inBufSize →
    ∃ v : Word,
      exec (.getbits n) s = .next { s with
        brData := v, brPos := s.brPos + BitVec.ofNat 32 n.toNat, result := .ok, done := true, engine := .idle }
      ∧ (s.brPos.toNat + n.toNat > s.brLimit.toNat → v = 0)
      ∧ (s.brPos.toNat + n.toNat ≤ s.brLimit.toNat → ∀ k, k < 32 →
          v.getLsbD k = if k < n.toNat then
            (s.mem.read (inBase + (s.brPos.toNat + n.toNat - 1 - k) / 8)).getLsbD (7 - (s.brPos.toNat + n.toNat - 1 - k) % 8)
          else false)

/-- R210: what PROBE reports and what it leaves alone. -/
def Obligations.ProbeOutcome : Prop :=
  ∀ s : State,
    (s.inOff.toNat + s.inLen.toNat > 16384 → exec .probe s = .next { s with result := .badArgs, done := true, engine := .idle })
    ∧ (s.inOff.toNat + s.inLen.toNat ≤ 16384 → ∃ t, exec .probe s = .next t ∧ SameDecoderState s t ∧ SameInputs s t ∧ SameBitRegs s t ∧ SameMemory s t ∧ SameScratch s t
      ∧ match findFrame s.slice with
        | none => NoFrameRow s t
        | some (off, fl, _) =>
          Ended .ok t ∧ LocatedRegs off fl (s.slice.word off) t ∧ t.resSamples = BitVec.ofNat 32 (hdrSamples (s.slice.word off)))

/-- R362: the results of DECODE and DECODE.nw, outcome by outcome, and what they leave alone; and exactly when the fast path
takes the frame at offset 0, so that it is decoded from the DecoderState as it stands (R200). That an underflowing mono frame
zeroes channel 1 too is the model's choice (log entry 31, DESIGN CHOICE). -/
def Obligations.DecodeOutcomeTable : Prop :=
  ∀ (nw : Bool) (s : State),
    (s.inOff.toNat + s.inLen.toNat > 16384 →
      exec (decodeInstr nw) s = .next { s with result := .badArgs, done := true, engine := .idle })
    ∧ (s.inOff.toNat + s.inLen.toNat ≤ 16384 → ∃ t, exec (decodeInstr nw) s = .next t ∧ SameInputs s t ∧ SameBitRegs s t
      ∧ match fastPath s with
        | some fl => LocatedRows nw 0 fl (s.slice.word 0) s t
        | none =>
          match findFrame s.slice with
          | none => NoFrameRow s t ∧ DecoderReset t
          | some (off, fl, ff) => LocatedRows nw off fl (s.slice.word off) { s.stateReset with freeFormat := ff } t)
    ∧ ∀ fl, fastPath s = some fl ↔ FastPathTakes s fl

/-- R361: DECODE.nw does everything DECODE does but leaves memory as it was. -/
def Obligations.DecodeNwDiffersOnlyInPcm : Prop :=
  ∀ s t : State, exec .decode s = .next t → exec .decodeNw s = .next { t with mem := s.mem }

/-- R363: DECODE and PROBE read the window only inside the slice; two memories that agree there give the same results. -/
def Obligations.CommandsReadOnlyTheSlice : Prop :=
  ∀ (i : Instr) (s : State) (m : Memory), i = .decode ∨ i = .decodeNw ∨ i = .probe →
    (∀ p, p < s.inLen.toNat → m.read (inBase + s.inOff.toNat + p) = s.mem.read (inBase + s.inOff.toNat + p)) →
    ∃ t t' : State, exec i s = .next t ∧ exec i { s with mem := m } = .next t' ∧ t' = { t with mem := t'.mem }
      ∧ ∀ a, (t.mem.read a = s.mem.read a ∧ t'.mem.read a = m.read a) ∨ t'.mem.read a = t.mem.read a

/-- R201: when the fast path finds nothing, no DecoderState item of the past matters to DECODE. -/
def Obligations.ResyncForgetsThePast : Prop :=
  ∀ (nw : Bool) (s : State) (lh : Word) (ff : Nat) (res : List Byte) (c0 c1 : Channel),
    let s' := { s with lastHeader := lh, freeFormat := ff, reservoir := res, chan0 := c0, chan1 := c1 }
    s.argsOk = true → fastPath s = none → fastPath s' = none → exec (decodeInstr nw) s' = exec (decodeInstr nw) s

/-- E1 of the spec's vectors: a located frame that codes nothing, decoded from zero signal state, gives zero PCM and
leaves the signal state zero. That the zeros of the signal state are the words 0, not negative zeros, is the model's choice (log
entry 15, DESIGN CHOICE). -/
def Obligations.SilenceDecodesToSilence : Prop :=
  ∀ (s s1 : State) (off fl : Nat),
    let h := s.slice.word off
    s.argsOk = true → located s = some (off, fl, s1) → hdrLayer h = 3 →
    s1.chan0 = .zero → s1.chan1 = .zero →
    sideCheck h (sideInfoAt s1 off fl h).1 (sideInfoAt s1 off fl h).2 = none →
    (sideInfoAt s1 off fl h).1.mainDataBegin ≤ s1.reservoir.length →
    EmptyGranules (sideInfoAt s1 off fl h).1 →
    ∃ t, exec .decode s = .next t ∧ Ended .ok t ∧ t.resSamples = BitVec.ofNat 32 (hdrSamples h)
      ∧ PcmWritten (List.replicate (hdrSamples h * hdrChannels h) 0) s t ∧ t.chan0 = .zero ∧ t.chan1 = .zero

/-! ### The header rows -/

/-- R371: a genuine Layer I or II frame under DECODE ends UNSUPPORTED. -/
def Obligations.LayerOneTwoHeadersAreUnsupported : Prop :=
  ∀ (i : Instr) (nw : Bool) (pos fl ff : Nat) (s : State), i.wf = true → isLayer12Kind i = true →
    s.engine = .scan (.decode nw) pos → FrameAt s.slice pos (encode i) fl ff →
    ∃ t, exec i s = .next t ∧ Ended .unsupported t ∧ LocatedRegs pos fl (encode i) t ∧ t.resSamples = 0 ∧ DecoderReset t
      ∧ SameMemory s t ∧ SameInputs s t ∧ SameBitRegs s t ∧ SameScratch s t

/-- R360, R362: a genuine Layer III frame under DECODE is decoded with the outcomes of the table. That an underflowing mono frame
zeroes channel 1 too is the model's choice (log entry 31, DESIGN CHOICE). -/
def Obligations.LayerThreeHeadersAreDecoded : Prop :=
  ∀ (i : Instr) (nw : Bool) (pos fl ff : Nat) (s : State), i.wf = true → isLayer3Kind i = true →
    s.engine = .scan (.decode nw) pos → FrameAt s.slice pos (encode i) fl ff →
    ∃ t, exec i s = .next t ∧ hdrLayer (encode i) = 3 ∧ LocatedRows nw pos fl (encode i) { s with freeFormat := ff } t
      ∧ SameInputs s t ∧ SameBitRegs s t

/-- R210: PROBE reports a genuine frame of any kind as OK and touches no DecoderState. -/
def Obligations.ProbedHeadersAreReported : Prop :=
  ∀ (i : Instr) (pos fl ff : Nat) (s : State), i.wf = true → isValidKind i = true →
    s.engine = .scan .probe pos → FrameAt s.slice pos (encode i) fl ff →
    ∃ t, exec i s = .next t ∧ Ended .ok t ∧ LocatedRegs pos fl (encode i) t
      ∧ t.resSamples = BitVec.ofNat 32 (hdrSamples (encode i)) ∧ SameDecoderState s t ∧ SameMemory s t ∧ SameInputs s t
      ∧ SameBitRegs s t ∧ SameScratch s t

/-- R118, R190: the search moves past every invalid header row, and past a valid one that is not genuine; after the last
candidate the command ends NO_FRAME. -/
def Obligations.OtherHeadersArePassedOver : Prop :=
  ∀ (i : Instr) (mode : ScanMode) (pos : Nat) (s : State), i.wf = true → s.engine = .scan mode pos →
    (isInvalidKind i = true ∨ (isValidKind i = true ∧ ∀ fl ff, ¬FrameAt s.slice pos (encode i) fl ff)) →
    ∃ t, exec i s = .next t ∧ SameDecoderState s t ∧ SameInputs s t ∧ SameBitRegs s t ∧ SameMemory s t ∧ SameScratch s t
      ∧ (pos + 5 < s.inLen.toNat → t = { s with engine := .scan mode (pos + 1) })
      ∧ (s.inLen.toNat ≤ pos + 5 → NoFrameRow s t)

/-- A header outside a scanning command has no effect in the spec (R92): the model's choice is to refuse it by name (log
entry 10). -/
def Obligations.HeadersOutsideASearchAreRefused : Prop :=
  ∀ (i : Instr) (s : State), i.space = .header → (∀ mode pos, s.engine ≠ .scan mode pos) →
    exec i s = .refused .headerNotScanned

/-- Stepping the search header by header gives exactly what the command gives in one transition (R33, R90). Both ways of
searching are the model's (log entry 4, DEDUCED). -/
def Obligations.SearchByStepsIsTheCommand : Prop :=
  ∀ s : State, s.bus = [] → s.argsOk = true → 4 < s.inLen.toNat →
    Sys2Proof.core.run s.inLen.toNat { s with engine := .scan .probe 0 } = exec .probe s
    ∧ ∀ nw, fastPath s = none →
        Sys2Proof.core.run s.inLen.toNat { s.stateReset with engine := .scan (.decode nw) 0 } = exec (decodeInstr nw) s

/-! ### Frame synchronisation -/

/-- R190: the search returns the first genuine frame among the candidates `[0, L - 4)`. -/
def Obligations.SearchFindsTheFirstGenuineFrame : Prop :=
  ∀ S : Slice,
    (∀ i fl ff, findFrame S = some (i, fl, ff) ↔
      i + 4 < S.len ∧ FrameAt S i (S.word i) fl ff ∧ ∀ j, j < i → ∀ fl' ff', ¬FrameAt S j (S.word j) fl' ff')
    ∧ (findFrame S = none ↔ ∀ j, j + 4 < S.len → ∀ fl' ff', ¬FrameAt S j (S.word j) fl' ff')
    ∧ noFrameSkip S = S.len - 4

/-- R193: the corner cases of the genuineness walk. -/
def Obligations.GenuineWalkCorners : Prop :=
  ∀ (S : Slice) (h : Word) (i fl ff : Nat),
    (S.len < i + fl → genuine S h i fl ff = false)
    ∧ (i + fl = S.len → genuine S h i fl ff = true)
    ∧ (i + fl + 4 ≤ S.len → hdrCompare h (S.word (i + fl)) = true →
        S.len < i + fl + hdrFrameLen (S.word (i + fl)) ff + 4 → genuine S h i fl ff = true)
    ∧ ∀ p : Nat → Nat, p 0 = i + fl → (∀ k, k < 10 → p k + 4 ≤ S.len ∧ hdrCompare h (S.word (p k)) = true
        ∧ p (k + 1) = p k + hdrFrameLen (S.word (p k)) ff) → genuine S h i fl ff = true

/-- R194: the free-format probe returns the smallest confirmed stride and that stride less the padding. -/
def Obligations.FreeFormatProbeIsSmallestStride : Prop :=
  ∀ (S : Slice) (i : Nat) (h : Word),
    (freeProbe S i h = (0, 0) ∧ ∀ k, ¬Confirms S i h k)
    ∨ ∃ k, freeProbe S i h = (k, k - hdrPad h) ∧ Confirms S i h k ∧ ∀ j, j < k → ¬Confirms S i h j

/-! ### Bit reader, side information, scalefactors, Huffman -/

/-- R161: `get_bits` reads MSB-first inside the limit, gives 0 as a whole past it, and always advances. -/
def Obligations.GetBitsIsRule161 : Prop :=
  ∀ (r : BitReader) (n : Nat),
    (r.getBits n).2 = { r with pos := r.pos + n } ∧ (r.limit < r.pos + n → (r.getBits n).1 = 0)
      ∧ (r.pos + n ≤ r.limit → (r.getBits n).1 < 2 ^ n
          ∧ ∀ k, k < n → (r.getBits n).1.testBit (n - 1 - k) = bitOf r.buf (r.pos + k))

/-- R164: `raw_bits` ignores the limit; a bit past the buffer's valid bytes is a free value, one of its own for each. That the
free values are taken in sequence, and counted, is the model's choice (log entry 7). -/
def Obligations.RawBitsIsRule164 : Prop :=
  ∀ (r : BitReader) (n : Nat),
    (r.rawBits n).1 < 2 ^ n ∧ (r.rawBits n).2.pos = r.pos + n ∧ (r.rawBits n).2.buf = r.buf
      ∧ (r.rawBits n).2.limit = r.limit ∧ (r.rawBits n).2.draws = r.draws + (r.pos + n - max r.pos (8 * r.buf.length))
      ∧ ∀ k, k < n → (r.rawBits n).1.testBit (n - 1 - k) =
          if r.pos + k < 8 * r.buf.length then bitOf r.buf (r.pos + k)
          else Config.drawBit (r.draws + (r.pos + k - max r.pos (8 * r.buf.length)))

/-- R224: exactly what side information passes its checks. -/
def Obligations.SideInfoChecksPassExactlyWhen : Prop :=
  ∀ (h : Word) (si : SideInfo) (fr : BitReader),
    sideCheck h si fr = none ↔
      fr.pos ≤ fr.limit
      ∧ (∀ gi ∈ si.granules.flatten, gi.bigValues ≤ 288 ∧ ¬(gi.windowSwitching = true ∧ gi.blockType = 0)
          ∧ (∀ j, j < 3 → 0 < gi.regionLen (hdrSfreq h) j → gi.tableSelect.getD j 0 ≠ 4 ∧ gi.tableSelect.getD j 0 ≠ 14)
          ∧ ¬(gi.kind = .mixed ∧ hdrSfreq h = 8))
      ∧ (si.granules.flatten.map (·.part23Length)).sum ≤ fr.limit - fr.pos + 8 * si.mainDataBegin

/-- R230: the three regions partition the big-value area, and region 2 is empty under window switching. -/
def Obligations.RegionsPartitionTheBigValues : Prop :=
  ∀ (sfreq : Nat) (gi : GranuleInfo),
    gi.regionLen sfreq 0 + gi.regionLen sfreq 1 + gi.regionLen sfreq 2 = 2 * gi.bigValues
      ∧ (gi.windowSwitching = true → gi.bigValues ≤ 288 → gi.regionLen sfreq 2 = 0)

/-- R223: each window and per-window frequency of a short block has its own line, which maps back to it. -/
def Obligations.ShortLinesMapBack : Prop :=
  ∀ sfreq w f, sfreq < 9 → w < 3 → f < 192 →
    lineAt sfreq w f < 576 ∧ lineOf sfreq .short (lineAt sfreq w f) = .short (bandAt (shortStarts sfreq) f) w f
      ∧ (shortStarts sfreq).getD (bandAt (shortStarts sfreq) f) 0 ≤ f
      ∧ f < (shortStarts sfreq).getD (bandAt (shortStarts sfreq) f + 1) 0

/-- R240: in granule 1 a scalefactor whose scfsi group is kept is that of granule 0. -/
def Obligations.ScfsiKeepsScalefactors : Prop :=
  ∀ (si : SideInfo) (ch s : Nat) (sf : Scalefactors) (r : BitReader), s < 21 →
    (si.at 0 ch).kind = .long → (si.at 1 ch).kind = .long → (si.scfsi.getD ch []).getD (scfsiGroup s) false = true →
    (readScalefactorsMpeg1 si 1 ch sf r).1.long.getD s 0 = sf.long.getD s 0

/-- R151, R152: each codeword given for codebooks 1, 2, 3 and the count1 tables decodes to its pair or quadruple and moves
the cursor by its length. -/
def Obligations.GivenCodewordsDecode : Prop :=
  ∀ (r : BitReader) (digits : List Nat), Upcoming r (code digits) →
    (∀ cb xy, (cb, xy, digits) ∈ codebookRows → walk (codebook cb) r = (xy, { r with pos := r.pos + digits.length }))
    ∧ (∀ n, (n, digits) ∈ tableARows → decodeQuadCode false r = (quadOf n, { r with pos := r.pos + digits.length }))
    ∧ ∀ n, (n, digits) ∈ tableBRows → decodeQuadCode true r = (quadOf n, { r with pos := r.pos + digits.length })

/-- R258, R14: every quantised value lies in `[-8206, 8206]`, whatever the open codebooks and the bits. That an open
codebook stays in R150's range is enforced by the model (log entry 14). -/
def Obligations.QuantisedValuesStayInRange : Prop :=
  ∀ (sfreq : Nat) (gi : GranuleInfo) (start : Nat) (r : BitReader) (l : Nat),
    (entry (huffmanBlock sfreq gi start r).1 l 0).natAbs ≤ 8206

/-- R250: a block leaves the cursor at its declared end, and a block of no bits is all zero. -/
def Obligations.HuffmanBlockEndsAtItsLength : Prop :=
  ∀ (sfreq : Nat) (gi : GranuleInfo) (start : Nat) (r : BitReader),
    (huffmanBlock sfreq gi start r).2.pos = start + gi.part23Length
      ∧ (gi.bigValues = 0 → gi.part23Length = 0 → start ≤ r.pos → ∀ l, entry (huffmanBlock sfreq gi start r).1 l 0 = 0)

/-! ### Signal path -/

/-- R275: the worked examples of requantisation, as exact reals. -/
def Obligations.RequantisationExamples : Prop :=
  ∀ (ms : Bool) (gi : GranuleInfo) (sf : Scalefactors) (s : Nat) (operand : Nat → ℝ), gi.scalefacScale = false →
    (gi.globalGain = 210 → sf.long.getD s 0 = 0 → exactValue operand (requantRule ms gi false sf (.long s) 8).rhs = 16)
    ∧ (gi.globalGain = 214 → sf.long.getD s 0 = 0 → exactValue operand (requantRule ms gi false sf (.long s) (-1)).rhs = -2)
    ∧ (gi.globalGain = 210 → sf.long.getD s 0 = 2 → exactValue operand (requantRule ms gi false sf (.long s) 1).rhs = 1 / 2)

/-- R280: stereo, dual-channel and joint stereo with no mode extension leave both spectra alone. -/
def Obligations.PlainStereoIsUntouched : Prop :=
  ∀ (h : Word) (si : SideInfo) (gr : Nat) (q1 : Vector Int 576) (sf1 : Scalefactors) (x0 x1 : Vector Word 576),
    hdrMode h ≠ 1 ∨ h.extractLsb' 4 2 = 0 → stereo (stereoCtx h si gr q1 sf1) x0 x1 = (x0, x1)

/-- R282: in a long right channel, the intensity bands are those above every nonzero line's band. -/
def Obligations.LongIntensityBandsLieAboveTheSpectrum : Prop :=
  ∀ (c : StereoCtx) (s : Nat), c.kind = .long →
    (inIntensityBand (boundsOf c) (.long s) = true ↔
      ∀ l, l < 576 → entry c.q l 0 ≠ 0 → bandAt (longStarts c.sfreq) l < s)

/-- R287: the MPEG-1 intensity coefficients add up to 1, with the values the spec lists. -/
def Obligations.IntensityCoefficientValues : Prop :=
  ∀ operand : Nat → ℝ,
    (∀ p, p ≤ 6 → exactValue operand (intensityMpeg1 p).1 + exactValue operand (intensityMpeg1 p).2 = 1)
    ∧ exactValue operand (intensityMpeg1 0).1 = 0 ∧ exactValue operand (intensityMpeg1 0).2 = 1
    ∧ exactValue operand (intensityMpeg1 3).1 = 1 / 2 ∧ exactValue operand (intensityMpeg1 3).2 = 1 / 2
    ∧ exactValue operand (intensityMpeg1 6).1 = 1 ∧ exactValue operand (intensityMpeg1 6).2 = 0

/-- R301-R303: the butterflies of a long granule, the single one of a mixed granule, and none in a short one; and the exact
real value of the two rules. That each output is one evaluation of its two operands is the model's choice (log entry 17, DESIGN
CHOICE). -/
def Obligations.AntialiasButterflies : Prop :=
  ∀ (x : Vector Word 576),
    (∀ kind sb i, 1 ≤ sb → sb ≤ antialiasLast kind → i < 8 →
      entry (antialias kind x) (18 * sb - 1 - i) 0 = evalRule (.antialiasLow i) [entry x (18 * sb - 1 - i) 0, entry x (18 * sb + i) 0]
      ∧ entry (antialias kind x) (18 * sb + i) 0 = evalRule (.antialiasHigh i) [entry x (18 * sb - 1 - i) 0, entry x (18 * sb + i) 0])
    ∧ (∀ kind l, l < 576 → (∀ sb i, 1 ≤ sb → sb ≤ antialiasLast kind → i < 8 → l ≠ 18 * sb - 1 - i ∧ l ≠ 18 * sb + i) →
        entry (antialias kind x) l 0 = entry x l 0)
    ∧ antialias .short x = x ∧ antialiasLast .long = 31 ∧ antialiasLast .mixed = 1
    ∧ ∀ (operand : Nat → ℝ) (i : Nat), i < 8 →
        let c := ([-0.6, -0.535, -0.33, -0.185, -0.095, -0.041, -0.0142, -0.0037] : List ℝ).getD i 0
        let cs := 1 / √(1 + c ^ 2)
        let ca := c / √(1 + c ^ 2)
        exactValue operand (Rule.antialiasLow i).rhs = operand 0 * cs - operand 1 * ca
          ∧ exactValue operand (Rule.antialiasHigh i).rhs = operand 1 * cs + operand 0 * ca

/-- R305: the exact result of the 36-point and the 12-point IMDCT. -/
def Obligations.ImdctIsRule305 : Prop :=
  ∀ (Y : Nat → ℝ) (n i : Nat), n = 36 ∨ n = 12 → i < n →
    exactValue Y (Rule.imdct n i).rhs =
      ∑ k ∈ Finset.range (n / 2), Y k * Real.cos (Real.pi / (2 * n) * (2 * i + 1 + n / 2) * (2 * k + 1))

/-- R320(c), (d): the last six overlap values of a start block, a short block and a mixed block's short subbands are 0.0 whatever
the input. That the word there is +0.0 with no evaluation is the model's (log entry 18, DEDUCED). -/
def Obligations.WindowTailsAreZero : Prop :=
  ∀ (sfreq : Nat) (gi : GranuleInfo) (x ov : Vector Word 576) (sb i : Nat), sb < 32 → 12 ≤ i → i < 18 →
    (gi.kind = .long ∧ gi.blockType = 1) ∨ gi.kind = .short ∨ (gi.kind = .mixed ∧ 2 ≤ sb) →
    entry (transform sfreq gi x ov).2 (18 * sb + i) 0 = 0

/-- R332: the symmetry of the matrixed vector, as exact reals. -/
def Obligations.MatrixedVectorSymmetry : Prop :=
  ∀ operand : Nat → ℝ,
    (∀ i, i ≤ 32 → exactValue operand (Rule.matrixing (32 - i)).rhs = -exactValue operand (Rule.matrixing i).rhs)
    ∧ ∀ i, 33 ≤ i → i ≤ 63 → exactValue operand (Rule.matrixing (96 - i)).rhs = exactValue operand (Rule.matrixing i).rhs

/-- R319: decoding a mono frame's main data neither reads nor writes channel 1. That R319 does not bind the zeroing at the end
of an underflowing mono frame (R372) is the model's choice (log entry 31, DESIGN CHOICE). -/
def Obligations.MonoFramesLeaveChannelOneAlone : Prop :=
  ∀ (h : Word) (si : SideInfo) (md : List Byte) (s : State) (c : Channel), hdrChannels h = 1 →
    decodeMainData h si md { s with chan1 := c } = { decodeMainData h si md s with chan1 := c }
      ∧ (decodeMainData h si md s).chan1 = s.chan1

/-- R335: the PCM word of a finite binary32 sample is the exact rounding and saturation of 32768 times its value. That the
conversion is exact on the binary32 sample, with no evaluation under `P_FP`, is the model's (log entry 19, DEDUCED). -/
def Obligations.PcmConversionIsRule335 : Prop :=
  ∀ (y : Word) (x : ℝ), wordValue y = some x → (pcmOf y).toInt = sat16 (realRoundHalfAway (32768 * x))

/-- R351, R353: which bytes the reservoir restores and which it saves. -/
def Obligations.ReservoirKeepsTheLastBytes : Prop :=
  ∀ (reservoir fresh : List Byte) (begin' p : Nat),
    reservoirRestore reservoir begin' fresh = reservoir.drop (reservoir.length - min reservoir.length begin') ++ fresh
    ∧ (reservoirRestore reservoir begin' fresh).length = min reservoir.length begin' + fresh.length
    ∧ (reservoirSave fresh p).length = min (fresh.length - p) 511
    ∧ reservoirSave fresh p = fresh.drop (fresh.length - min (fresh.length - p) 511)

/-! ### The host's side -/

/-- R34, R403: a CMD write is accepted when BUSY = 0, else dropped with OVERRUN set and nothing else changed. -/
def Obligations.CmdWriteIsAcceptedOrDropped : Prop :=
  ∀ (s : State) (w : Word),
    (s.busy = true → hostStep (.write .b4 0 w) s = .next { s with overrun := true })
    ∧ (s.busy = false → hostStep (.write .b4 0 w) s = .next { s with cmd := w, engine := .command })

/-- R32, R400, R410: the bits of STATUS, the code of each result, the interrupt line, and what a write of STATUS clears. -/
def Obligations.StatusBitsAndInterrupt : Prop :=
  ∀ (s : State) (v : Word),
    s.statusWord.getLsbD 0 = s.busy ∧ s.statusWord.getLsbD 1 = s.done ∧ s.statusWord.getLsbD 2 = s.overrun
    ∧ s.statusWord.getLsbD 3 = (s.done && s.irqEn) ∧ s.irq = (s.done && s.irqEn)
    ∧ (∀ p ∈ resultCodes, s.result = p.1 → (s.statusWord.extractLsb' 4 4).toNat = p.2)
    ∧ s.statusWord.extractLsb' 8 24 = 0
    ∧ hostStep (.write .b4 4 v) s = .next { s with done := s.done && !v.getLsbD 1, overrun := s.overrun && !v.getLsbD 2 }

/-- R31: the register map's write side, offset by offset, with BUSY = 0, and its frame. -/
def Obligations.RegisterWritesFollowTheMap : Prop :=
  ∀ (s : State) (v : Word) (off : BitVec 16), s.busy = false → off.toNat < 0x100 → off.toNat % 4 = 0 →
    ∃ t, hostStep (.write .b4 off v) s = .next t
      ∧ (off.toNat ∈ [0x0C, 0x10, 0x2C] → t.readReg off.toNat = v)
      ∧ (off.toNat = 0x08 → t.readReg off.toNat = BitVec.ofNat 32 (v.toNat % 2))
      ∧ (off.toNat = 0x30 → (t.readReg off.toNat).toNat = min v.toNat 131072)
      ∧ (off.toNat ∉ [0x00, 0x04, 0x08, 0x0C, 0x10, 0x2C, 0x30] → t = s)
      ∧ (off.toNat ≠ 0x00 → off.toNat ≠ 0x04 → (∀ o, o ≠ off.toNat → o ≠ 0x04 → t.readReg o = s.readReg o)
        ∧ t = { s with irqEn := t.irqEn, inOff := t.inOff, inLen := t.inLen, brPos := t.brPos, brLimit := t.brLimit })

/-- R84: IN_BUF is little-endian on the host bus, and a store changes no other byte. That the bits of `busData` above a narrow
read are 0 is the model's choice (log entry 5, DESIGN CHOICE). -/
def Obligations.InBufStoreIsLittleEndian : Prop :=
  ∀ (s : State) (w : Width) (off : BitVec 16) (v : Word), s.busy = false → regionOf off.toNat = .inBuf → off.toNat % w.bytes = 0 →
    ∃ t, hostStep (.write w off v) s = .next t ∧ t = { s with mem := t.mem }
      ∧ (∀ k, k < w.bytes → t.mem.read (off.toNat + k) = v.extractLsb' (8 * k) 8)
      ∧ (∀ a, (a < off.toNat ∨ off.toNat + w.bytes ≤ a) → t.mem.read a = s.mem.read a)
      ∧ hostStep (.read w off) t = .next { t with busData := BitVec.ofNat 32 (v.toNat % 2 ^ (8 * w.bytes)) }

/-- R31, R84, R87: no read changes any register or buffer, and what it returns: the register map's read side offset by
offset, the bytes of the buffers, 0 elsewhere; all but PCM_BUF, RES_* and BR_DATA also while BUSY = 1 (R440.2). The returned
data, its zero extension and the count of free values are the model's own (log entries 5 and 7, DESIGN CHOICE), and so is that
a register reads while BUSY = 1 as before the command (log entry 4, DEDUCED). -/
def Obligations.HostReadsHaveNoSideEffect : Prop :=
  ∀ (s t : State) (w : Width) (off : BitVec 16), hostStep (.read w off) s = .next t →
    t = { s with busData := t.busData, draws := t.draws }
      ∧ (s.busy = false ∨ ¬OpenWhileBusy off.toNat → t.draws = s.draws)
      ∧ (∀ v, (off.toNat, v) ∈ registerMap s → s.busy = false ∨ ¬OpenWhileBusy off.toNat → t.busData = v)
      ∧ (regionOf off.toNat = .reg → off.toNat ∉ (registerMap s).map Prod.fst → t.busData = 0)
      ∧ (regionOf off.toNat = .inBuf ∨ (regionOf off.toNat = .pcm ∧ s.busy = false) →
          t.busData = BitVec.ofNat 32 (s.mem.readLE off.toNat w.bytes))
      ∧ (regionOf off.toNat = .unmapped → t.busData = 0)

/-- R86, R440: a host access is refused exactly when it is misaligned, of a width its region does not accept, or a write that
races with a running command. Among what R91 allows while BUSY = 1 the model refuses writes and answers reads of PCM_BUF, RES_*
and BR_DATA, which R440.2 forbids too, with free values (log entries 9 and 11, DESIGN CHOICE); that PCM_BUF and unmapped offsets
take writes of every width is log entry 12 (DEDUCED). -/
def Obligations.OnlyUndulyHostStepsAreRefused : Prop :=
  ∀ (op : HostOp) (s : State), (∃ t, hostStep op s = .next t) ↔ op.admitted s.busy = true

/-- R80: unmapped offsets read 0, and writes of them and of PCM_BUF are ignored, at every width (log entry 12, DEDUCED). -/
def Obligations.UnmappedAndPcmWritesAreIgnored : Prop :=
  ∀ (s : State) (w : Width) (off : BitVec 16) (v : Word), off.toNat % w.bytes = 0 →
    (regionOf off.toNat = .unmapped →
      hostStep (.read w off) s = .next { s with busData := 0 } ∧ hostStep (.write w off v) s = .next s)
    ∧ (regionOf off.toNat = .pcm → hostStep (.write w off v) s = .next s)

/-- R85, R333, R336: PCM word `k` stands at byte offset `2k` of PCM_BUF, and two channels' words interleave; written whole, sample
`n = 576*g + i` of channel `c` of a frame stands at byte offset `2 * (n * nch + c)`, mono or not; the samples of a channel are
those of its own transform and synthesis; and sample `32*t + j` of a granule is `y[j]` of the call of time slot `t`. -/
def Obligations.PcmWordLayout : Prop :=
  (∀ (ws : List Half) (s : State), PcmWritten ws s (s.writePcm ws))
  ∧ (∀ (y0 y1 : List Word) (n : Nat), y0.length = y1.length → n < y0.length →
      (interleave y0 y1).getD (2 * n) 0 = pcmOf (y0.getD n 0) ∧ (interleave y0 y1).getD (2 * n + 1) 0 = pcmOf (y1.getD n 0)
        ∧ (interleave y0 y1).length = 2 * y0.length)
  ∧ (∀ (h : Word) (si : SideInfo) (md : List Byte) (s s' : State) (g i c : Nat), g < hdrGranules h → i < 576 → c < hdrChannels h →
      (s'.writePcm (decodeMainData h si md s).pcm).mem.readLE (pcmBase + 2 * ((576 * g + i) * hdrChannels h + c)) 2 =
        (pcmOf ((granuleSamples h si md s g c).getD i 0)).toNat)
  ∧ (∀ (h : Word) (si : SideInfo) (g : Nat) (w : FrameWork) (c : Nat), c < hdrChannels h → ∃ x : Vector Word 576,
      ((granuleOut h si g w).2.getD c [], channelOf (granuleOut h si g w).1 c) = channelOut h (si.at g c) x (channelOf w c))
  ∧ ∀ (h : Word) (gi : GranuleInfo) (x : Vector Word 576) (ch : Channel) (t j : Nat), t < 18 → j < 32 →
      let S := (transform (hdrSfreq h) gi x ch.overlap).1
      (channelOut h gi x ch).1.getD (32 * t + j) 0 = (synthCall (slot S t) (historyAt S ch.history t)).1.getD j 0

/-! ### Result codes of the side-information checks -/

/-- R224, R402: the first failing check decides the code, in the order overread, then granule by granule with CORRUPT before
UNSUPPORTED, then the main-data length. -/
def Obligations.FirstFailingCheckGivesTheCode : Prop :=
  ∀ (h : Word) (si : SideInfo) (fr : BitReader),
    let bad := fun gi => GranuleCorrupt (hdrSfreq h) gi ∨ GranuleUnsupported (hdrSfreq h) gi
    let tooLong := (si.granules.flatten.map (·.part23Length)).sum > fr.limit - fr.pos + 8 * si.mainDataBegin
    (fr.limit < fr.pos → sideCheck h si fr = some .corrupt)
    ∧ (fr.pos ≤ fr.limit → ∀ before gi after, si.granules.flatten = before ++ gi :: after → (∀ g ∈ before, ¬bad g) →
        (GranuleCorrupt (hdrSfreq h) gi → sideCheck h si fr = some .corrupt)
        ∧ (¬GranuleCorrupt (hdrSfreq h) gi → GranuleUnsupported (hdrSfreq h) gi → sideCheck h si fr = some .unsupported))
    ∧ (fr.pos ≤ fr.limit → (∀ g ∈ si.granules.flatten, ¬bad g) →
        (tooLong → sideCheck h si fr = some .corrupt) ∧ (¬tooLong → sideCheck h si fr = none))
end

