-- ==== Sys2Proof/Laws/Header.lean ====
section
/-! SUPPORT. Headers: their words put together from pieces, the decoder's answer for each, and the range of their fields. -/

namespace Sys2Proof

/-! ### Pieces of a word -/

/-- Two neighbouring pieces of a word are one piece. -/
theorem extract_append {w : Nat} (x : BitVec w) (i n m : Nat) :
    x.extractLsb' (i + m) n ++ x.extractLsb' i m = x.extractLsb' i (n + m) := by
  apply BitVec.eq_of_getLsbD_eq
  intro k hk
  simp only [BitVec.getLsbD_append, BitVec.getLsbD_extractLsb']
  by_cases h : k < m
  · simp [h]; omega
  · have : k - m < n := by omega
    have e : i + m + (k - m) = i + k := by omega
    simp [h, this, e]; omega

/-- The fields of a header put together again are its low 17 bits (R110). -/
theorem encode_headerFields (h : Word) : (headerFields h).encode = h.extractLsb' 0 17 := by
  show h.extractLsb' 16 1 ++ h.extractLsb' 12 4 ++ h.extractLsb' 10 2 ++ h.extractLsb' 9 1 ++ h.extractLsb' 8 1 ++ h.extractLsb' 6 2
    ++ h.extractLsb' 4 2 ++ h.extractLsb' 3 1 ++ h.extractLsb' 2 1 ++ h.extractLsb' 0 2 = h.extractLsb' 0 17
  rw [show h.extractLsb' 16 1 ++ h.extractLsb' 12 4 = h.extractLsb' 12 5 from extract_append h 12 1 4,
    show h.extractLsb' 12 5 ++ h.extractLsb' 10 2 = h.extractLsb' 10 7 from extract_append h 10 5 2,
    show h.extractLsb' 10 7 ++ h.extractLsb' 9 1 = h.extractLsb' 9 8 from extract_append h 9 7 1,
    show h.extractLsb' 9 8 ++ h.extractLsb' 8 1 = h.extractLsb' 8 9 from extract_append h 8 8 1,
    show h.extractLsb' 8 9 ++ h.extractLsb' 6 2 = h.extractLsb' 6 11 from extract_append h 6 9 2,
    show h.extractLsb' 6 11 ++ h.extractLsb' 4 2 = h.extractLsb' 4 13 from extract_append h 4 11 2,
    show h.extractLsb' 4 13 ++ h.extractLsb' 3 1 = h.extractLsb' 3 14 from extract_append h 3 13 1,
    show h.extractLsb' 3 14 ++ h.extractLsb' 2 1 = h.extractLsb' 2 15 from extract_append h 2 14 1]
  exact extract_append h 0 15 2

/-- The sync, version and layer bits of a header, from its four fields. -/
theorem top_of_fields (h : Word) :
    h.extractLsb' 17 15 = h.extractLsb' 24 8 ++ h.extractLsb' 21 3 ++ h.extractLsb' 19 2 ++ h.extractLsb' 17 2 := by
  rw [show h.extractLsb' 24 8 ++ h.extractLsb' 21 3 = h.extractLsb' 21 11 from extract_append h 21 8 3,
    show h.extractLsb' 21 11 ++ h.extractLsb' 19 2 = h.extractLsb' 19 13 from extract_append h 19 11 2]
  exact (extract_append h 17 13 2).symm

/-- A header is its top 15 bits and the rest. -/
theorem word_of_top (h : Word) : h = headerOf (h.extractLsb' 17 15) (h.extractLsb' 0 17) := by
  have := extract_append h 0 15 17
  simp only [headerOf]
  rw [show h.extractLsb' 17 15 ++ h.extractLsb' 0 17 = h.extractLsb' 0 32 from this]
  simp

/-- The top 15 bits of a header with the sync, by version and layer code. -/
theorem top_of_codes (h : Word) (h1 : h.extractLsb' 24 8 = 0xFF) (h2 : h.extractLsb' 21 3 = 7) (v y : BitVec 2)
    (hv : h.extractLsb' 19 2 = v) (hy : h.extractLsb' 17 2 = y) :
    h.extractLsb' 17 15 = (0xFF : BitVec 8) ++ (7 : BitVec 3) ++ v ++ y := by
  rw [top_of_fields, h1, h2, hv, hy]

/-- The kind of a header with the sync, put together again, is the header. -/
theorem encode_headerKind (h : Word) (h1 : h.extractLsb' 24 8 = 0xFF) (h2 : h.extractLsb' 21 3 = 7) : encode (headerKind h) = h := by
  have ht := top_of_codes h h1 h2 _ _ rfl rfl
  have hw := word_of_top h
  generalize hv : h.extractLsb' 19 2 = v at ht
  generalize hy : h.extractLsb' 17 2 = y at ht
  have two : ∀ b : BitVec 2, b = 0 ∨ b = 1 ∨ b = 2 ∨ b = 3 := by decide
  rcases two v with rfl | rfl | rfl | rfl <;> rcases two y with rfl | rfl | rfl | rfl <;>
    (rw [ht] at hw; simp [headerKind, hv, hy, encode, encode_headerFields]) <;>
    first
      | exact hw.symm
      | (have e : (0x1FFD : BitVec 13) = h.extractLsb' 19 13 := by
           rw [show h.extractLsb' 19 13 = h.extractLsb' 24 8 ++ h.extractLsb' 21 3 ++ h.extractLsb' 19 2 by
             rw [show h.extractLsb' 24 8 ++ h.extractLsb' 21 3 = h.extractLsb' 21 11 from extract_append h 21 8 3]
             exact (extract_append h 19 11 2).symm, h1, h2, hv]
           rfl
         show (0x1FFD : BitVec 13) ++ h.extractLsb' 0 19 = h
         rw [e, show h.extractLsb' 19 13 ++ h.extractLsb' 0 19 = h.extractLsb' 0 32 from extract_append h 0 13 19]
         simp)

/-! ### The decoder -/

/-- Encoding what the header decoder read gives the word back. -/
theorem encode_of_decodeHeader {h : Word} {i : Instr} (hd : decodeHeader h = .ok i) : encode i = h := by
  unfold decodeHeader at hd
  split at hd
  · exact absurd hd (by simp)
  rename_i h1
  split at hd
  · exact absurd hd (by simp)
  rename_i h2
  have h1 : h.extractLsb' 24 8 = 0xFF := by simpa using h1
  have h2 : h.extractLsb' 21 3 = 7 := by simpa using h2
  have e : h.extractLsb' 21 11 = 0x7FF := by
    rw [show h.extractLsb' 21 11 = h.extractLsb' 24 8 ++ h.extractLsb' 21 3 from (extract_append h 21 8 3).symm, h1, h2]
    rfl
  split at hd
  · rename_i h3
    simp only [Except.ok.injEq] at hd
    subst hd
    simp only [encode]
    rw [← e, ← h3, show h.extractLsb' 21 11 ++ h.extractLsb' 16 5 = h.extractLsb' 16 16 from extract_append h 16 11 5,
      show h.extractLsb' 16 16 ++ h.extractLsb' 12 4 = h.extractLsb' 12 20 from extract_append h 12 16 4,
      show h.extractLsb' 12 20 ++ h.extractLsb' 0 12 = h.extractLsb' 0 32 from extract_append h 0 20 12]
    simp
  split at hd
  · rename_i h4
    simp only [Except.ok.injEq] at hd
    subst hd
    simp only [encode]
    rw [← e, ← h4, show h.extractLsb' 21 11 ++ h.extractLsb' 12 9 = h.extractLsb' 12 20 from extract_append h 12 11 9,
      show h.extractLsb' 12 20 ++ h.extractLsb' 10 2 = h.extractLsb' 10 22 from extract_append h 10 20 2,
      show h.extractLsb' 10 22 ++ h.extractLsb' 0 10 = h.extractLsb' 0 32 from extract_append h 0 22 10]
    simp
  · simp only [Except.ok.injEq] at hd
    subst hd
    exact encode_headerKind h h1 h2

namespace Machine

/-! ### Ranges of the fields -/

theorem hdrLayerCode_lt (h : Word) : hdrLayerCode h < 4 := (h.extractLsb' 17 2).isLt
theorem hdrVersionCode_lt (h : Word) : hdrVersionCode h < 4 := (h.extractLsb' 19 2).isLt
theorem hdrVersion_le (h : Word) : hdrVersion h ≤ 2 := by unfold hdrVersion; split <;> (try split) <;> omega
theorem hdrChannels_le (h : Word) : hdrChannels h ≤ 2 := by unfold hdrChannels; split <;> omega
theorem hdrChannels_pos (h : Word) : 0 < hdrChannels h := by unfold hdrChannels; split <;> omega
theorem hdrGranules_le (h : Word) : hdrGranules h ≤ 2 := by unfold hdrGranules; split <;> omega
theorem hdrPad_le (h : Word) : hdrPad h ≤ 4 := by unfold hdrPad; split <;> (try split) <;> omega

/-- A valid header has a layer, and its two indexes are in their tables (R111). -/
theorem hdrValid_fields {h : Word} (hv : hdrValid h = true) :
    hdrLayerCode h ≠ 0 ∧ hdrBitrateIndex h < 15 ∧ hdrSrIndex h < 3 ∧ h.extractLsb' 24 8 = 0xFF ∧ h.extractLsb' 21 3 = 7 := by
  simp only [hdrValid, Bool.and_eq_true, bne_iff_ne, ne_eq, beq_iff_eq] at hv
  obtain ⟨⟨⟨⟨⟨h1, h2⟩, _⟩, h4⟩, h5⟩, h6⟩ := hv
  have b1 : hdrBitrateIndex h < 16 := (h.extractLsb' 12 4).isLt
  have b2 : hdrSrIndex h < 4 := (h.extractLsb' 10 2).isLt
  exact ⟨h4, by omega, by omega, h1, h2⟩

theorem hdrSamples_layer3 {h : Word} (hl : hdrLayer h = 3) : hdrSamples h = 576 * hdrGranules h := by simp [hdrSamples, hl]

/-- The frame's samples fit PCM_BUF. -/
theorem pcm_fits (h : Word) : 576 * hdrGranules h * hdrChannels h ≤ 2304 := by
  have h1 := hdrGranules_le h
  have h2 := hdrChannels_le h
  calc 576 * hdrGranules h * hdrChannels h ≤ 576 * 2 * 2 := Nat.mul_le_mul (Nat.mul_le_mul_left _ h1) h2
    _ = 2304 := rfl

end Machine
end Sys2Proof
end

