-- ==== Sys2Proof/Laws/State.lean ====
section
/-! SUPPORT. One lemma per field per update of the state, true by unfolding. -/

namespace Sys2Proof.Machine

variable (s : State)

/-! ### The end of a command (R34). -/

@[simp] theorem raiseResult_cmd (c : ResultCode) : (s.raiseResult c).cmd = s.cmd := rfl
@[simp] theorem raiseResult_engine (c : ResultCode) : (s.raiseResult c).engine = .idle := rfl
@[simp] theorem raiseResult_done (c : ResultCode) : (s.raiseResult c).done = true := rfl
@[simp] theorem raiseResult_overrun (c : ResultCode) : (s.raiseResult c).overrun = s.overrun := rfl
@[simp] theorem raiseResult_result (c : ResultCode) : (s.raiseResult c).result = c := rfl
@[simp] theorem raiseResult_irqEn (c : ResultCode) : (s.raiseResult c).irqEn = s.irqEn := rfl
@[simp] theorem raiseResult_inOff (c : ResultCode) : (s.raiseResult c).inOff = s.inOff := rfl
@[simp] theorem raiseResult_inLen (c : ResultCode) : (s.raiseResult c).inLen = s.inLen := rfl
@[simp] theorem raiseResult_resOffset (c : ResultCode) : (s.raiseResult c).resOffset = s.resOffset := rfl
@[simp] theorem raiseResult_resFrameBytes (c : ResultCode) : (s.raiseResult c).resFrameBytes = s.resFrameBytes := rfl
@[simp] theorem raiseResult_resSamples (c : ResultCode) : (s.raiseResult c).resSamples = s.resSamples := rfl
@[simp] theorem raiseResult_resInfo (c : ResultCode) : (s.raiseResult c).resInfo = s.resInfo := rfl
@[simp] theorem raiseResult_resHz (c : ResultCode) : (s.raiseResult c).resHz = s.resHz := rfl
@[simp] theorem raiseResult_resKbps (c : ResultCode) : (s.raiseResult c).resKbps = s.resKbps := rfl
@[simp] theorem raiseResult_brPos (c : ResultCode) : (s.raiseResult c).brPos = s.brPos := rfl
@[simp] theorem raiseResult_brLimit (c : ResultCode) : (s.raiseResult c).brLimit = s.brLimit := rfl
@[simp] theorem raiseResult_brData (c : ResultCode) : (s.raiseResult c).brData = s.brData := rfl
@[simp] theorem raiseResult_lastHeader (c : ResultCode) : (s.raiseResult c).lastHeader = s.lastHeader := rfl
@[simp] theorem raiseResult_freeFormat (c : ResultCode) : (s.raiseResult c).freeFormat = s.freeFormat := rfl
@[simp] theorem raiseResult_reservoir (c : ResultCode) : (s.raiseResult c).reservoir = s.reservoir := rfl
@[simp] theorem raiseResult_mainData (c : ResultCode) : (s.raiseResult c).mainData = s.mainData := rfl
@[simp] theorem raiseResult_chan0 (c : ResultCode) : (s.raiseResult c).chan0 = s.chan0 := rfl
@[simp] theorem raiseResult_chan1 (c : ResultCode) : (s.raiseResult c).chan1 = s.chan1 := rfl
@[simp] theorem raiseResult_mem (c : ResultCode) : (s.raiseResult c).mem = s.mem := rfl
@[simp] theorem raiseResult_bus (c : ResultCode) : (s.raiseResult c).bus = s.bus := rfl
@[simp] theorem raiseResult_busData (c : ResultCode) : (s.raiseResult c).busData = s.busData := rfl
@[simp] theorem raiseResult_draws (c : ResultCode) : (s.raiseResult c).draws = s.draws := rfl

/-! ### The state reset (R381). -/

@[simp] theorem stateReset_cmd : (s.stateReset).cmd = s.cmd := rfl
@[simp] theorem stateReset_engine : (s.stateReset).engine = s.engine := rfl
@[simp] theorem stateReset_done : (s.stateReset).done = s.done := rfl
@[simp] theorem stateReset_overrun : (s.stateReset).overrun = s.overrun := rfl
@[simp] theorem stateReset_result : (s.stateReset).result = s.result := rfl
@[simp] theorem stateReset_irqEn : (s.stateReset).irqEn = s.irqEn := rfl
@[simp] theorem stateReset_inOff : (s.stateReset).inOff = s.inOff := rfl
@[simp] theorem stateReset_inLen : (s.stateReset).inLen = s.inLen := rfl
@[simp] theorem stateReset_resOffset : (s.stateReset).resOffset = s.resOffset := rfl
@[simp] theorem stateReset_resFrameBytes : (s.stateReset).resFrameBytes = s.resFrameBytes := rfl
@[simp] theorem stateReset_resSamples : (s.stateReset).resSamples = s.resSamples := rfl
@[simp] theorem stateReset_resInfo : (s.stateReset).resInfo = s.resInfo := rfl
@[simp] theorem stateReset_resHz : (s.stateReset).resHz = s.resHz := rfl
@[simp] theorem stateReset_resKbps : (s.stateReset).resKbps = s.resKbps := rfl
@[simp] theorem stateReset_brPos : (s.stateReset).brPos = s.brPos := rfl
@[simp] theorem stateReset_brLimit : (s.stateReset).brLimit = s.brLimit := rfl
@[simp] theorem stateReset_brData : (s.stateReset).brData = s.brData := rfl
@[simp] theorem stateReset_lastHeader : (s.stateReset).lastHeader = 0 := rfl
@[simp] theorem stateReset_freeFormat : (s.stateReset).freeFormat = 0 := rfl
@[simp] theorem stateReset_reservoir : (s.stateReset).reservoir = [] := rfl
@[simp] theorem stateReset_mainData : (s.stateReset).mainData = s.mainData := rfl
@[simp] theorem stateReset_chan0 : (s.stateReset).chan0 = .zero := rfl
@[simp] theorem stateReset_chan1 : (s.stateReset).chan1 = .zero := rfl
@[simp] theorem stateReset_mem : (s.stateReset).mem = s.mem := rfl
@[simp] theorem stateReset_bus : (s.stateReset).bus = s.bus := rfl
@[simp] theorem stateReset_busData : (s.stateReset).busData = s.busData := rfl
@[simp] theorem stateReset_draws : (s.stateReset).draws = s.draws := rfl

/-! ### RES_OFFSET, RES_FRAME_BYTES, RES_SAMPLES. -/

@[simp] theorem setResult_cmd (o b n : Nat) : (s.setResult o b n).cmd = s.cmd := rfl
@[simp] theorem setResult_engine (o b n : Nat) : (s.setResult o b n).engine = s.engine := rfl
@[simp] theorem setResult_done (o b n : Nat) : (s.setResult o b n).done = s.done := rfl
@[simp] theorem setResult_overrun (o b n : Nat) : (s.setResult o b n).overrun = s.overrun := rfl
@[simp] theorem setResult_result (o b n : Nat) : (s.setResult o b n).result = s.result := rfl
@[simp] theorem setResult_irqEn (o b n : Nat) : (s.setResult o b n).irqEn = s.irqEn := rfl
@[simp] theorem setResult_inOff (o b n : Nat) : (s.setResult o b n).inOff = s.inOff := rfl
@[simp] theorem setResult_inLen (o b n : Nat) : (s.setResult o b n).inLen = s.inLen := rfl
@[simp] theorem setResult_resOffset (o b n : Nat) : (s.setResult o b n).resOffset = BitVec.ofNat 32 o := rfl
@[simp] theorem setResult_resFrameBytes (o b n : Nat) : (s.setResult o b n).resFrameBytes = BitVec.ofNat 32 b := rfl
@[simp] theorem setResult_resSamples (o b n : Nat) : (s.setResult o b n).resSamples = BitVec.ofNat 32 n := rfl
@[simp] theorem setResult_resInfo (o b n : Nat) : (s.setResult o b n).resInfo = s.resInfo := rfl
@[simp] theorem setResult_resHz (o b n : Nat) : (s.setResult o b n).resHz = s.resHz := rfl
@[simp] theorem setResult_resKbps (o b n : Nat) : (s.setResult o b n).resKbps = s.resKbps := rfl
@[simp] theorem setResult_brPos (o b n : Nat) : (s.setResult o b n).brPos = s.brPos := rfl
@[simp] theorem setResult_brLimit (o b n : Nat) : (s.setResult o b n).brLimit = s.brLimit := rfl
@[simp] theorem setResult_brData (o b n : Nat) : (s.setResult o b n).brData = s.brData := rfl
@[simp] theorem setResult_lastHeader (o b n : Nat) : (s.setResult o b n).lastHeader = s.lastHeader := rfl
@[simp] theorem setResult_freeFormat (o b n : Nat) : (s.setResult o b n).freeFormat = s.freeFormat := rfl
@[simp] theorem setResult_reservoir (o b n : Nat) : (s.setResult o b n).reservoir = s.reservoir := rfl
@[simp] theorem setResult_mainData (o b n : Nat) : (s.setResult o b n).mainData = s.mainData := rfl
@[simp] theorem setResult_chan0 (o b n : Nat) : (s.setResult o b n).chan0 = s.chan0 := rfl
@[simp] theorem setResult_chan1 (o b n : Nat) : (s.setResult o b n).chan1 = s.chan1 := rfl
@[simp] theorem setResult_mem (o b n : Nat) : (s.setResult o b n).mem = s.mem := rfl
@[simp] theorem setResult_bus (o b n : Nat) : (s.setResult o b n).bus = s.bus := rfl
@[simp] theorem setResult_busData (o b n : Nat) : (s.setResult o b n).busData = s.busData := rfl
@[simp] theorem setResult_draws (o b n : Nat) : (s.setResult o b n).draws = s.draws := rfl

/-! ### RES_INFO, RES_HZ, RES_KBPS. -/

@[simp] theorem setFormat_cmd (i h k : Word) : (s.setFormat i h k).cmd = s.cmd := rfl
@[simp] theorem setFormat_engine (i h k : Word) : (s.setFormat i h k).engine = s.engine := rfl
@[simp] theorem setFormat_done (i h k : Word) : (s.setFormat i h k).done = s.done := rfl
@[simp] theorem setFormat_overrun (i h k : Word) : (s.setFormat i h k).overrun = s.overrun := rfl
@[simp] theorem setFormat_result (i h k : Word) : (s.setFormat i h k).result = s.result := rfl
@[simp] theorem setFormat_irqEn (i h k : Word) : (s.setFormat i h k).irqEn = s.irqEn := rfl
@[simp] theorem setFormat_inOff (i h k : Word) : (s.setFormat i h k).inOff = s.inOff := rfl
@[simp] theorem setFormat_inLen (i h k : Word) : (s.setFormat i h k).inLen = s.inLen := rfl
@[simp] theorem setFormat_resOffset (i h k : Word) : (s.setFormat i h k).resOffset = s.resOffset := rfl
@[simp] theorem setFormat_resFrameBytes (i h k : Word) : (s.setFormat i h k).resFrameBytes = s.resFrameBytes := rfl
@[simp] theorem setFormat_resSamples (i h k : Word) : (s.setFormat i h k).resSamples = s.resSamples := rfl
@[simp] theorem setFormat_resInfo (i h k : Word) : (s.setFormat i h k).resInfo = i := rfl
@[simp] theorem setFormat_resHz (i h k : Word) : (s.setFormat i h k).resHz = h := rfl
@[simp] theorem setFormat_resKbps (i h k : Word) : (s.setFormat i h k).resKbps = k := rfl
@[simp] theorem setFormat_brPos (i h k : Word) : (s.setFormat i h k).brPos = s.brPos := rfl
@[simp] theorem setFormat_brLimit (i h k : Word) : (s.setFormat i h k).brLimit = s.brLimit := rfl
@[simp] theorem setFormat_brData (i h k : Word) : (s.setFormat i h k).brData = s.brData := rfl
@[simp] theorem setFormat_lastHeader (i h k : Word) : (s.setFormat i h k).lastHeader = s.lastHeader := rfl
@[simp] theorem setFormat_freeFormat (i h k : Word) : (s.setFormat i h k).freeFormat = s.freeFormat := rfl
@[simp] theorem setFormat_reservoir (i h k : Word) : (s.setFormat i h k).reservoir = s.reservoir := rfl
@[simp] theorem setFormat_mainData (i h k : Word) : (s.setFormat i h k).mainData = s.mainData := rfl
@[simp] theorem setFormat_chan0 (i h k : Word) : (s.setFormat i h k).chan0 = s.chan0 := rfl
@[simp] theorem setFormat_chan1 (i h k : Word) : (s.setFormat i h k).chan1 = s.chan1 := rfl
@[simp] theorem setFormat_mem (i h k : Word) : (s.setFormat i h k).mem = s.mem := rfl
@[simp] theorem setFormat_bus (i h k : Word) : (s.setFormat i h k).bus = s.bus := rfl
@[simp] theorem setFormat_busData (i h k : Word) : (s.setFormat i h k).busData = s.busData := rfl
@[simp] theorem setFormat_draws (i h k : Word) : (s.setFormat i h k).draws = s.draws := rfl

/-! ### The format registers of a header (R182). -/

@[simp] theorem setFormatOf_cmd (h : Word) : (s.setFormatOf h).cmd = s.cmd := rfl
@[simp] theorem setFormatOf_engine (h : Word) : (s.setFormatOf h).engine = s.engine := rfl
@[simp] theorem setFormatOf_done (h : Word) : (s.setFormatOf h).done = s.done := rfl
@[simp] theorem setFormatOf_overrun (h : Word) : (s.setFormatOf h).overrun = s.overrun := rfl
@[simp] theorem setFormatOf_result (h : Word) : (s.setFormatOf h).result = s.result := rfl
@[simp] theorem setFormatOf_irqEn (h : Word) : (s.setFormatOf h).irqEn = s.irqEn := rfl
@[simp] theorem setFormatOf_inOff (h : Word) : (s.setFormatOf h).inOff = s.inOff := rfl
@[simp] theorem setFormatOf_inLen (h : Word) : (s.setFormatOf h).inLen = s.inLen := rfl
@[simp] theorem setFormatOf_resOffset (h : Word) : (s.setFormatOf h).resOffset = s.resOffset := rfl
@[simp] theorem setFormatOf_resFrameBytes (h : Word) : (s.setFormatOf h).resFrameBytes = s.resFrameBytes := rfl
@[simp] theorem setFormatOf_resSamples (h : Word) : (s.setFormatOf h).resSamples = s.resSamples := rfl
@[simp] theorem setFormatOf_resInfo (h : Word) : (s.setFormatOf h).resInfo = hdrInfo h := rfl
@[simp] theorem setFormatOf_resHz (h : Word) : (s.setFormatOf h).resHz = BitVec.ofNat 32 (hdrHz h) := rfl
@[simp] theorem setFormatOf_resKbps (h : Word) : (s.setFormatOf h).resKbps = BitVec.ofNat 32 (hdrKbps h) := rfl
@[simp] theorem setFormatOf_brPos (h : Word) : (s.setFormatOf h).brPos = s.brPos := rfl
@[simp] theorem setFormatOf_brLimit (h : Word) : (s.setFormatOf h).brLimit = s.brLimit := rfl
@[simp] theorem setFormatOf_brData (h : Word) : (s.setFormatOf h).brData = s.brData := rfl
@[simp] theorem setFormatOf_lastHeader (h : Word) : (s.setFormatOf h).lastHeader = s.lastHeader := rfl
@[simp] theorem setFormatOf_freeFormat (h : Word) : (s.setFormatOf h).freeFormat = s.freeFormat := rfl
@[simp] theorem setFormatOf_reservoir (h : Word) : (s.setFormatOf h).reservoir = s.reservoir := rfl
@[simp] theorem setFormatOf_mainData (h : Word) : (s.setFormatOf h).mainData = s.mainData := rfl
@[simp] theorem setFormatOf_chan0 (h : Word) : (s.setFormatOf h).chan0 = s.chan0 := rfl
@[simp] theorem setFormatOf_chan1 (h : Word) : (s.setFormatOf h).chan1 = s.chan1 := rfl
@[simp] theorem setFormatOf_mem (h : Word) : (s.setFormatOf h).mem = s.mem := rfl
@[simp] theorem setFormatOf_bus (h : Word) : (s.setFormatOf h).bus = s.bus := rfl
@[simp] theorem setFormatOf_busData (h : Word) : (s.setFormatOf h).busData = s.busData := rfl
@[simp] theorem setFormatOf_draws (h : Word) : (s.setFormatOf h).draws = s.draws := rfl

/-! ### The PCM words (R336). -/

@[simp] theorem writePcm_cmd (ws : List Half) : (s.writePcm ws).cmd = s.cmd := rfl
@[simp] theorem writePcm_engine (ws : List Half) : (s.writePcm ws).engine = s.engine := rfl
@[simp] theorem writePcm_done (ws : List Half) : (s.writePcm ws).done = s.done := rfl
@[simp] theorem writePcm_overrun (ws : List Half) : (s.writePcm ws).overrun = s.overrun := rfl
@[simp] theorem writePcm_result (ws : List Half) : (s.writePcm ws).result = s.result := rfl
@[simp] theorem writePcm_irqEn (ws : List Half) : (s.writePcm ws).irqEn = s.irqEn := rfl
@[simp] theorem writePcm_inOff (ws : List Half) : (s.writePcm ws).inOff = s.inOff := rfl
@[simp] theorem writePcm_inLen (ws : List Half) : (s.writePcm ws).inLen = s.inLen := rfl
@[simp] theorem writePcm_resOffset (ws : List Half) : (s.writePcm ws).resOffset = s.resOffset := rfl
@[simp] theorem writePcm_resFrameBytes (ws : List Half) : (s.writePcm ws).resFrameBytes = s.resFrameBytes := rfl
@[simp] theorem writePcm_resSamples (ws : List Half) : (s.writePcm ws).resSamples = s.resSamples := rfl
@[simp] theorem writePcm_resInfo (ws : List Half) : (s.writePcm ws).resInfo = s.resInfo := rfl
@[simp] theorem writePcm_resHz (ws : List Half) : (s.writePcm ws).resHz = s.resHz := rfl
@[simp] theorem writePcm_resKbps (ws : List Half) : (s.writePcm ws).resKbps = s.resKbps := rfl
@[simp] theorem writePcm_brPos (ws : List Half) : (s.writePcm ws).brPos = s.brPos := rfl
@[simp] theorem writePcm_brLimit (ws : List Half) : (s.writePcm ws).brLimit = s.brLimit := rfl
@[simp] theorem writePcm_brData (ws : List Half) : (s.writePcm ws).brData = s.brData := rfl
@[simp] theorem writePcm_lastHeader (ws : List Half) : (s.writePcm ws).lastHeader = s.lastHeader := rfl
@[simp] theorem writePcm_freeFormat (ws : List Half) : (s.writePcm ws).freeFormat = s.freeFormat := rfl
@[simp] theorem writePcm_reservoir (ws : List Half) : (s.writePcm ws).reservoir = s.reservoir := rfl
@[simp] theorem writePcm_mainData (ws : List Half) : (s.writePcm ws).mainData = s.mainData := rfl
@[simp] theorem writePcm_chan0 (ws : List Half) : (s.writePcm ws).chan0 = s.chan0 := rfl
@[simp] theorem writePcm_chan1 (ws : List Half) : (s.writePcm ws).chan1 = s.chan1 := rfl
@[simp] theorem writePcm_mem (ws : List Half) : (s.writePcm ws).mem = s.mem.write pcmBase (halfBytes ws) := rfl
@[simp] theorem writePcm_bus (ws : List Half) : (s.writePcm ws).bus = s.bus := rfl
@[simp] theorem writePcm_busData (ws : List Half) : (s.writePcm ws).busData = s.busData := rfl
@[simp] theorem writePcm_draws (ws : List Half) : (s.writePcm ws).draws = s.draws := rfl

/-! ### A host write of STATUS (R32). -/

@[simp] theorem writeStatus_cmd (v : Word) : (s.writeStatus v).cmd = s.cmd := rfl
@[simp] theorem writeStatus_engine (v : Word) : (s.writeStatus v).engine = s.engine := rfl
@[simp] theorem writeStatus_done (v : Word) : (s.writeStatus v).done = (s.done && !v.getLsbD 1) := rfl
@[simp] theorem writeStatus_overrun (v : Word) : (s.writeStatus v).overrun = (s.overrun && !v.getLsbD 2) := rfl
@[simp] theorem writeStatus_result (v : Word) : (s.writeStatus v).result = s.result := rfl
@[simp] theorem writeStatus_irqEn (v : Word) : (s.writeStatus v).irqEn = s.irqEn := rfl
@[simp] theorem writeStatus_inOff (v : Word) : (s.writeStatus v).inOff = s.inOff := rfl
@[simp] theorem writeStatus_inLen (v : Word) : (s.writeStatus v).inLen = s.inLen := rfl
@[simp] theorem writeStatus_resOffset (v : Word) : (s.writeStatus v).resOffset = s.resOffset := rfl
@[simp] theorem writeStatus_resFrameBytes (v : Word) : (s.writeStatus v).resFrameBytes = s.resFrameBytes := rfl
@[simp] theorem writeStatus_resSamples (v : Word) : (s.writeStatus v).resSamples = s.resSamples := rfl
@[simp] theorem writeStatus_resInfo (v : Word) : (s.writeStatus v).resInfo = s.resInfo := rfl
@[simp] theorem writeStatus_resHz (v : Word) : (s.writeStatus v).resHz = s.resHz := rfl
@[simp] theorem writeStatus_resKbps (v : Word) : (s.writeStatus v).resKbps = s.resKbps := rfl
@[simp] theorem writeStatus_brPos (v : Word) : (s.writeStatus v).brPos = s.brPos := rfl
@[simp] theorem writeStatus_brLimit (v : Word) : (s.writeStatus v).brLimit = s.brLimit := rfl
@[simp] theorem writeStatus_brData (v : Word) : (s.writeStatus v).brData = s.brData := rfl
@[simp] theorem writeStatus_lastHeader (v : Word) : (s.writeStatus v).lastHeader = s.lastHeader := rfl
@[simp] theorem writeStatus_freeFormat (v : Word) : (s.writeStatus v).freeFormat = s.freeFormat := rfl
@[simp] theorem writeStatus_reservoir (v : Word) : (s.writeStatus v).reservoir = s.reservoir := rfl
@[simp] theorem writeStatus_mainData (v : Word) : (s.writeStatus v).mainData = s.mainData := rfl
@[simp] theorem writeStatus_chan0 (v : Word) : (s.writeStatus v).chan0 = s.chan0 := rfl
@[simp] theorem writeStatus_chan1 (v : Word) : (s.writeStatus v).chan1 = s.chan1 := rfl
@[simp] theorem writeStatus_mem (v : Word) : (s.writeStatus v).mem = s.mem := rfl
@[simp] theorem writeStatus_bus (v : Word) : (s.writeStatus v).bus = s.bus := rfl
@[simp] theorem writeStatus_busData (v : Word) : (s.writeStatus v).busData = s.busData := rfl
@[simp] theorem writeStatus_draws (v : Word) : (s.writeStatus v).draws = s.draws := rfl

/-! ### What a host read returns. -/

@[simp] theorem returnData_cmd (v : Word) : (s.returnData v).cmd = s.cmd := rfl
@[simp] theorem returnData_engine (v : Word) : (s.returnData v).engine = s.engine := rfl
@[simp] theorem returnData_done (v : Word) : (s.returnData v).done = s.done := rfl
@[simp] theorem returnData_overrun (v : Word) : (s.returnData v).overrun = s.overrun := rfl
@[simp] theorem returnData_result (v : Word) : (s.returnData v).result = s.result := rfl
@[simp] theorem returnData_irqEn (v : Word) : (s.returnData v).irqEn = s.irqEn := rfl
@[simp] theorem returnData_inOff (v : Word) : (s.returnData v).inOff = s.inOff := rfl
@[simp] theorem returnData_inLen (v : Word) : (s.returnData v).inLen = s.inLen := rfl
@[simp] theorem returnData_resOffset (v : Word) : (s.returnData v).resOffset = s.resOffset := rfl
@[simp] theorem returnData_resFrameBytes (v : Word) : (s.returnData v).resFrameBytes = s.resFrameBytes := rfl
@[simp] theorem returnData_resSamples (v : Word) : (s.returnData v).resSamples = s.resSamples := rfl
@[simp] theorem returnData_resInfo (v : Word) : (s.returnData v).resInfo = s.resInfo := rfl
@[simp] theorem returnData_resHz (v : Word) : (s.returnData v).resHz = s.resHz := rfl
@[simp] theorem returnData_resKbps (v : Word) : (s.returnData v).resKbps = s.resKbps := rfl
@[simp] theorem returnData_brPos (v : Word) : (s.returnData v).brPos = s.brPos := rfl
@[simp] theorem returnData_brLimit (v : Word) : (s.returnData v).brLimit = s.brLimit := rfl
@[simp] theorem returnData_brData (v : Word) : (s.returnData v).brData = s.brData := rfl
@[simp] theorem returnData_lastHeader (v : Word) : (s.returnData v).lastHeader = s.lastHeader := rfl
@[simp] theorem returnData_freeFormat (v : Word) : (s.returnData v).freeFormat = s.freeFormat := rfl
@[simp] theorem returnData_reservoir (v : Word) : (s.returnData v).reservoir = s.reservoir := rfl
@[simp] theorem returnData_mainData (v : Word) : (s.returnData v).mainData = s.mainData := rfl
@[simp] theorem returnData_chan0 (v : Word) : (s.returnData v).chan0 = s.chan0 := rfl
@[simp] theorem returnData_chan1 (v : Word) : (s.returnData v).chan1 = s.chan1 := rfl
@[simp] theorem returnData_mem (v : Word) : (s.returnData v).mem = s.mem := rfl
@[simp] theorem returnData_bus (v : Word) : (s.returnData v).bus = s.bus := rfl
@[simp] theorem returnData_busData (v : Word) : (s.returnData v).busData = v := rfl
@[simp] theorem returnData_draws (v : Word) : (s.returnData v).draws = s.draws := rfl

/-! ### A host read of an open value (R91). -/

@[simp] theorem returnOpen_cmd (w : Width) : (s.returnOpen w).cmd = s.cmd := rfl
@[simp] theorem returnOpen_engine (w : Width) : (s.returnOpen w).engine = s.engine := rfl
@[simp] theorem returnOpen_done (w : Width) : (s.returnOpen w).done = s.done := rfl
@[simp] theorem returnOpen_overrun (w : Width) : (s.returnOpen w).overrun = s.overrun := rfl
@[simp] theorem returnOpen_result (w : Width) : (s.returnOpen w).result = s.result := rfl
@[simp] theorem returnOpen_irqEn (w : Width) : (s.returnOpen w).irqEn = s.irqEn := rfl
@[simp] theorem returnOpen_inOff (w : Width) : (s.returnOpen w).inOff = s.inOff := rfl
@[simp] theorem returnOpen_inLen (w : Width) : (s.returnOpen w).inLen = s.inLen := rfl
@[simp] theorem returnOpen_resOffset (w : Width) : (s.returnOpen w).resOffset = s.resOffset := rfl
@[simp] theorem returnOpen_resFrameBytes (w : Width) : (s.returnOpen w).resFrameBytes = s.resFrameBytes := rfl
@[simp] theorem returnOpen_resSamples (w : Width) : (s.returnOpen w).resSamples = s.resSamples := rfl
@[simp] theorem returnOpen_resInfo (w : Width) : (s.returnOpen w).resInfo = s.resInfo := rfl
@[simp] theorem returnOpen_resHz (w : Width) : (s.returnOpen w).resHz = s.resHz := rfl
@[simp] theorem returnOpen_resKbps (w : Width) : (s.returnOpen w).resKbps = s.resKbps := rfl
@[simp] theorem returnOpen_brPos (w : Width) : (s.returnOpen w).brPos = s.brPos := rfl
@[simp] theorem returnOpen_brLimit (w : Width) : (s.returnOpen w).brLimit = s.brLimit := rfl
@[simp] theorem returnOpen_brData (w : Width) : (s.returnOpen w).brData = s.brData := rfl
@[simp] theorem returnOpen_lastHeader (w : Width) : (s.returnOpen w).lastHeader = s.lastHeader := rfl
@[simp] theorem returnOpen_freeFormat (w : Width) : (s.returnOpen w).freeFormat = s.freeFormat := rfl
@[simp] theorem returnOpen_reservoir (w : Width) : (s.returnOpen w).reservoir = s.reservoir := rfl
@[simp] theorem returnOpen_mainData (w : Width) : (s.returnOpen w).mainData = s.mainData := rfl
@[simp] theorem returnOpen_chan0 (w : Width) : (s.returnOpen w).chan0 = s.chan0 := rfl
@[simp] theorem returnOpen_chan1 (w : Width) : (s.returnOpen w).chan1 = s.chan1 := rfl
@[simp] theorem returnOpen_mem (w : Width) : (s.returnOpen w).mem = s.mem := rfl
@[simp] theorem returnOpen_bus (w : Width) : (s.returnOpen w).bus = s.bus := rfl
@[simp] theorem returnOpen_busData (w : Width) : (s.returnOpen w).busData = w.cut (Config.drawWord s.draws).toNat := rfl
@[simp] theorem returnOpen_draws (w : Width) : (s.returnOpen w).draws = s.draws + 1 := rfl

/-! ### Writing PCM words unless NOWRITE (R336, R361). -/

@[simp] theorem emitPcm_cmd (nw : Bool) (ws : List Half) : (s.emitPcm nw ws).cmd = s.cmd := by cases nw <;> rfl
@[simp] theorem emitPcm_engine (nw : Bool) (ws : List Half) : (s.emitPcm nw ws).engine = s.engine := by cases nw <;> rfl
@[simp] theorem emitPcm_done (nw : Bool) (ws : List Half) : (s.emitPcm nw ws).done = s.done := by cases nw <;> rfl
@[simp] theorem emitPcm_overrun (nw : Bool) (ws : List Half) : (s.emitPcm nw ws).overrun = s.overrun := by cases nw <;> rfl
@[simp] theorem emitPcm_result (nw : Bool) (ws : List Half) : (s.emitPcm nw ws).result = s.result := by cases nw <;> rfl
@[simp] theorem emitPcm_irqEn (nw : Bool) (ws : List Half) : (s.emitPcm nw ws).irqEn = s.irqEn := by cases nw <;> rfl
@[simp] theorem emitPcm_inOff (nw : Bool) (ws : List Half) : (s.emitPcm nw ws).inOff = s.inOff := by cases nw <;> rfl
@[simp] theorem emitPcm_inLen (nw : Bool) (ws : List Half) : (s.emitPcm nw ws).inLen = s.inLen := by cases nw <;> rfl
@[simp] theorem emitPcm_resOffset (nw : Bool) (ws : List Half) : (s.emitPcm nw ws).resOffset = s.resOffset := by cases nw <;> rfl
@[simp] theorem emitPcm_resFrameBytes (nw : Bool) (ws : List Half) : (s.emitPcm nw ws).resFrameBytes = s.resFrameBytes := by cases nw <;> rfl
@[simp] theorem emitPcm_resSamples (nw : Bool) (ws : List Half) : (s.emitPcm nw ws).resSamples = s.resSamples := by cases nw <;> rfl
@[simp] theorem emitPcm_resInfo (nw : Bool) (ws : List Half) : (s.emitPcm nw ws).resInfo = s.resInfo := by cases nw <;> rfl
@[simp] theorem emitPcm_resHz (nw : Bool) (ws : List Half) : (s.emitPcm nw ws).resHz = s.resHz := by cases nw <;> rfl
@[simp] theorem emitPcm_resKbps (nw : Bool) (ws : List Half) : (s.emitPcm nw ws).resKbps = s.resKbps := by cases nw <;> rfl
@[simp] theorem emitPcm_brPos (nw : Bool) (ws : List Half) : (s.emitPcm nw ws).brPos = s.brPos := by cases nw <;> rfl
@[simp] theorem emitPcm_brLimit (nw : Bool) (ws : List Half) : (s.emitPcm nw ws).brLimit = s.brLimit := by cases nw <;> rfl
@[simp] theorem emitPcm_brData (nw : Bool) (ws : List Half) : (s.emitPcm nw ws).brData = s.brData := by cases nw <;> rfl
@[simp] theorem emitPcm_lastHeader (nw : Bool) (ws : List Half) : (s.emitPcm nw ws).lastHeader = s.lastHeader := by cases nw <;> rfl
@[simp] theorem emitPcm_freeFormat (nw : Bool) (ws : List Half) : (s.emitPcm nw ws).freeFormat = s.freeFormat := by cases nw <;> rfl
@[simp] theorem emitPcm_reservoir (nw : Bool) (ws : List Half) : (s.emitPcm nw ws).reservoir = s.reservoir := by cases nw <;> rfl
@[simp] theorem emitPcm_mainData (nw : Bool) (ws : List Half) : (s.emitPcm nw ws).mainData = s.mainData := by cases nw <;> rfl
@[simp] theorem emitPcm_chan0 (nw : Bool) (ws : List Half) : (s.emitPcm nw ws).chan0 = s.chan0 := by cases nw <;> rfl
@[simp] theorem emitPcm_chan1 (nw : Bool) (ws : List Half) : (s.emitPcm nw ws).chan1 = s.chan1 := by cases nw <;> rfl
@[simp] theorem emitPcm_bus (nw : Bool) (ws : List Half) : (s.emitPcm nw ws).bus = s.bus := by cases nw <;> rfl
@[simp] theorem emitPcm_busData (nw : Bool) (ws : List Half) : (s.emitPcm nw ws).busData = s.busData := by cases nw <;> rfl
@[simp] theorem emitPcm_draws (nw : Bool) (ws : List Half) : (s.emitPcm nw ws).draws = s.draws := by cases nw <;> rfl
@[simp] theorem emitPcm_mem_nowrite (ws : List Half) : (s.emitPcm true ws).mem = s.mem := rfl
@[simp] theorem emitPcm_mem_write (ws : List Half) : (s.emitPcm false ws).mem = s.mem.write pcmBase (halfBytes ws) := rfl

@[simp] theorem raiseResult_busy (c : ResultCode) : (s.raiseResult c).busy = false := rfl

end Sys2Proof.Machine
end

