-- ==== Sys2Proof/Laws/Memory.lean ====
section
/-! SUPPORT. What the operations over memory and vectors do: each said once. -/

namespace Sys2Proof.Machine

/-! ### Vectors -/

theorem entry_tabulate {α : Type} (n : Nat) (f : Nat → α) (i : Nat) (d : α) :
    entry (tabulate n f) i d = if i < n then f i else d := by
  unfold entry tabulate
  split <;> simp

@[simp] theorem entry_tabulate_lt {α : Type} {n : Nat} {f : Nat → α} {i : Nat} {d : α} (h : i < n) :
    entry (tabulate n f) i d = f i := by
  rw [entry_tabulate, if_pos h]

theorem entry_of_le {α : Type} {n : Nat} (v : Vector α n) {i : Nat} {d : α} (h : n ≤ i) : entry v i d = d := by
  simp [entry, Nat.not_lt.mpr h]

theorem entry_replicate {α : Type} (n : Nat) (a d : α) (i : Nat) :
    entry (Vector.replicate n a) i d = if i < n then a else d := by
  unfold entry
  split <;> simp

/-- Two vectors with the same entries are equal. -/
theorem vector_ext_entry {α : Type} {n : Nat} {u v : Vector α n} (d : α) (h : ∀ i, i < n → entry u i d = entry v i d) : u = v := by
  apply Vector.ext
  intro i hi
  simpa [entry, hi] using h i hi

theorem tabulate_entry {α : Type} {n : Nat} (v : Vector α n) (d : α) : tabulate n (fun i => entry v i d) = v :=
  vector_ext_entry d fun _ hi => entry_tabulate_lt hi

theorem tabulate_congr {α : Type} {n : Nat} {f g : Nat → α} (h : ∀ i, i < n → f i = g i) : tabulate n f = tabulate n g := by
  unfold tabulate
  congr 1
  funext i
  exact h i i.isLt

theorem tabulate_const {α : Type} {n : Nat} {f : Nat → α} {a : α} (h : ∀ i, i < n → f i = a) :
    tabulate n f = Vector.replicate n a := by
  apply Vector.ext
  intro i hi
  simp [tabulate, h i hi]

/-! ### Reading -/

theorem find?_append (m m' : Memory) (a : Nat) :
    Memory.find? (m ++ m') a = (Memory.find? m a).or (Memory.find? m' a) := by
  induction m with
  | nil => simp [Memory.find?]
  | cons c m ih => by_cases h : c.1 = a <;> simp [Memory.find?, h, ih]

theorem find?_filter (m : Memory) (p : Nat → Bool) (a : Nat) :
    Memory.find? (m.filter fun c => p c.1) a = if p a then Memory.find? m a else none := by
  induction m with
  | nil => simp [Memory.find?]
  | cons c m ih =>
    simp only [List.filter_cons]
    by_cases hc : c.1 = a
    · subst hc
      by_cases hp : p c.1 = true <;> simp [hp, Memory.find?, ih]
    · by_cases hp : p c.1 = true <;> simp [hp, Memory.find?, hc, ih]

theorem find?_cells (bs : List Byte) (b a : Nat) :
    Memory.find? (Memory.cells b bs) a = if b ≤ a then bs[a - b]? else none := by
  induction bs generalizing b with
  | nil => simp [Memory.cells, Memory.find?]
  | cons x bs ih =>
    simp only [Memory.cells, Memory.find?, ih]
    by_cases h : b = a
    · subst h; simp
    · by_cases h' : b ≤ a
      · have h1 : a - b = (a - (b + 1)) + 1 := by omega
        have h2 : b + 1 ≤ a := by omega
        simp [h, h', h1, h2]
      · have h2 : ¬b + 1 ≤ a := by omega
        simp [h, h', h2]

/-- A read after a write: the bytes written inside, what was there before outside. -/
theorem read_write (m : Memory) (b : Nat) (bs : List Byte) (a : Nat) :
    (m.write b bs).read a = if b ≤ a ∧ a < b + bs.length then bs.getD (a - b) 0 else m.read a := by
  unfold Memory.read Memory.write
  have h1 := find?_filter m (fun k => decide (k < b)) a
  have h2 := find?_filter m (fun k => decide (b + bs.length ≤ k)) a
  rw [List.append_assoc, find?_append, find?_append, h1, h2, find?_cells]
  by_cases hlo : a < b
  · have h3 : ¬b ≤ a := by omega
    have h4 : ¬b + bs.length ≤ a := by omega
    simp [hlo, h3, h4]
  · by_cases hhi : b + bs.length ≤ a
    · have h3 : b ≤ a := by omega
      have h4 : bs.length ≤ a - b := by omega
      have h5 : ¬a < b + bs.length := by omega
      simp [hlo, h3, hhi, h5, List.getElem?_eq_none h4]
    · have h3 : b ≤ a := by omega
      have h4 : a - b < bs.length := by omega
      have h5 : a < b + bs.length := by omega
      simp [hlo, h3, h5, hhi, List.getElem?_eq_getElem h4]

theorem read_write_outside (m : Memory) (b : Nat) (bs : List Byte) (a : Nat) (h : a < b ∨ b + bs.length ≤ a) :
    (m.write b bs).read a = m.read a := by
  rw [read_write, if_neg (by omega)]

theorem read_write_inside (m : Memory) (b : Nat) (bs : List Byte) (k : Nat) (h : k < bs.length) :
    (m.write b bs).read (b + k) = bs.getD k 0 := by
  rw [read_write, if_pos (by omega)]
  simp

@[simp] theorem read_nil (a : Nat) : Memory.read [] a = Config.powerOnByte a := rfl

/-! ### The canonical form -/

theorem cells_fst_ge (bs : List Byte) (b : Nat) : ∀ c ∈ Memory.cells b bs, b ≤ c.1 ∧ c.1 < b + bs.length := by
  induction bs generalizing b with
  | nil => simp [Memory.cells]
  | cons x bs ih =>
    intro c hc
    rcases List.mem_cons.mp hc with rfl | hc
    · simp
    · have := ih (b + 1) c hc
      simp only [List.length_cons]
      omega

theorem wf_cells (bs : List Byte) (b : Nat) : Memory.wf (Memory.cells b bs) := by
  induction bs generalizing b with
  | nil => exact List.Pairwise.nil
  | cons x bs ih =>
    refine List.Pairwise.cons (fun c hc => ?_) (ih (b + 1))
    have := (cells_fst_ge bs (b + 1) c hc).1
    exact this

/-- A write keeps the canonical form. -/
theorem wf_write (m : Memory) (b : Nat) (bs : List Byte) (h : Memory.wf m) : Memory.wf (m.write b bs) := by
  unfold Memory.write Memory.wf
  rw [List.pairwise_append, List.pairwise_append]
  refine ⟨⟨h.filter _, wf_cells bs b, ?_⟩, h.filter _, ?_⟩
  · intro x hx y hy
    have h1 : x.1 < b := by simpa using (List.mem_filter.mp hx).2
    have h2 := cells_fst_ge bs b y hy
    omega
  · intro x hx y hy
    have h2 : b + bs.length ≤ y.1 := by simpa using (List.mem_filter.mp hy).2
    rcases List.mem_append.mp hx with hx | hx
    · have h1 : x.1 < b := by simpa using (List.mem_filter.mp hx).2
      omega
    · have h1 := cells_fst_ge bs b x hx
      omega

theorem wf_reset : Memory.wf State.reset.mem := List.Pairwise.nil

/-- Every cell of a written memory was there before or is one of the written bytes. -/
theorem mem_write (m : Memory) (b : Nat) (bs : List Byte) (c : Host.Cell) (h : c ∈ m.write b bs) :
    c ∈ m ∨ (b ≤ c.1 ∧ c.1 < b + bs.length) := by
  unfold Memory.write at h
  rcases List.mem_append.mp h with h | h
  · rcases List.mem_append.mp h with h | h
    · exact .inl (List.mem_filter.mp h).1
    · exact .inr (cells_fst_ge bs b c h)
  · exact .inl (List.mem_filter.mp h).1

/-! ### Little-endian values (R84) -/

@[simp] theorem length_bytesLE (n : Nat) (v : Word) : (bytesLE n v).length = n := by simp [bytesLE]

@[simp] theorem length_halfBytes (ws : List Half) : (halfBytes ws).length = 2 * ws.length := by
  induction ws with
  | nil => rfl
  | cons w ws ih => simp only [halfBytes, List.length_cons, ih]; omega

theorem halfBytes_getD (ws : List Half) (k : Nat) :
    (halfBytes ws).getD (2 * k) 0 = (ws.getD k 0).extractLsb' 0 8 ∧ (halfBytes ws).getD (2 * k + 1) 0 = (ws.getD k 0).extractLsb' 8 8 := by
  induction ws generalizing k with
  | nil => simp [halfBytes]
  | cons w ws ih =>
    cases k with
    | zero => simp [halfBytes]
    | succ k =>
      have h1 : 2 * (k + 1) = 2 * k + 1 + 1 := by omega
      have h2 : 2 * (k + 1) + 1 = 2 * k + 1 + 1 + 1 := by omega
      rw [h1]
      simpa [halfBytes] using ih k

theorem readLE_congr (m m' : Memory) (a n : Nat) (h : ∀ k, k < n → m.read (a + k) = m'.read (a + k)) :
    m.readLE a n = m'.readLE a n := by
  induction n generalizing a with
  | zero => rfl
  | succ n ih =>
    simp only [Memory.readLE]
    rw [show m.read a = m'.read a from h 0 (by omega)]
    rw [ih (a + 1) fun k hk => by simpa [Nat.add_assoc, Nat.add_comm 1 k] using h (k + 1) (by omega)]

theorem half_bytes_value (w : Half) : (w.extractLsb' 0 8).toNat + 256 * (w.extractLsb' 8 8).toNat = w.toNat := by
  have := w.isLt
  simp only [BitVec.extractLsb'_toNat, Nat.shiftRight_eq_div_pow]
  omega

/-- The PCM words are where R85 puts them, and nothing else has changed. -/
theorem writePcm_spec (ws : List Half) (s : State) :
    (∀ k, k < ws.length → (s.writePcm ws).mem.readLE (pcmBase + 2 * k) 2 = (ws.getD k 0).toNat)
      ∧ ∀ a, (a < pcmBase ∨ pcmBase + 2 * ws.length ≤ a) → (s.writePcm ws).mem.read a = s.mem.read a := by
  constructor
  · intro k hk
    simp only [writePcm_mem, Memory.readLE]
    rw [read_write_inside _ _ _ (2 * k) (by simp; omega), Nat.add_assoc, read_write_inside _ _ _ (2 * k + 1) (by simp; omega),
      (halfBytes_getD ws k).1, (halfBytes_getD ws k).2]
    simpa using half_bytes_value (ws.getD k 0)
  · intro a ha
    exact read_write_outside _ _ _ _ (by simpa using ha)

end Sys2Proof.Machine
end

