-- ==== Sys2Proof/Laws/Reader.lean ====
section
/-! SUPPORT. What the two read primitives of the bit reader do, each said once. -/

namespace Sys2Proof.Machine

theorem bitsValue_lt (buf : List Byte) (p n : Nat) : bitsValue buf p n < 2 ^ n := by
  induction n with
  | zero => simp [bitsValue]
  | succ n ih =>
    have := (bitOf buf (p + n)).toNat_lt
    simp only [bitsValue, Nat.pow_succ]
    omega

/-- The first bit read is the most significant (R12). -/
theorem testBit_bitsValue (buf : List Byte) (p n k : Nat) (h : k < n) :
    (bitsValue buf p n).testBit (n - 1 - k) = bitOf buf (p + k) := by
  induction n with
  | zero => omega
  | succ n ih =>
    simp only [bitsValue]
    by_cases hk : k = n
    · subst hk
      simp only [Nat.add_sub_cancel, Nat.sub_self, Nat.testBit_zero]
      cases bitOf buf (p + k) <;> simp [Nat.add_mod]
    · have h1 : n + 1 - 1 - k = (n - 1 - k) + 1 := by omega
      have h2 : (2 * bitsValue buf p n + (bitOf buf (p + n)).toNat) / 2 = bitsValue buf p n := by
        have := (bitOf buf (p + n)).toNat_lt
        omega
      rw [h1, Nat.testBit_succ, h2]
      exact ih (by omega)

@[simp] theorem getBits_pos (r : BitReader) (n : Nat) : (r.getBits n).2 = { r with pos := r.pos + n } := rfl

theorem getBits_inside (r : BitReader) (n : Nat) (h : r.pos + n ≤ r.limit) : (r.getBits n).1 = bitsValue r.buf r.pos n := by
  simp [BitReader.getBits, Nat.not_lt.mpr h]

theorem getBits_past (r : BitReader) (n : Nat) (h : r.limit < r.pos + n) : (r.getBits n).1 = 0 := by
  simp [BitReader.getBits, h]

theorem getBits_lt (r : BitReader) (n : Nat) : (r.getBits n).1 < 2 ^ n := by
  by_cases h : r.pos + n ≤ r.limit
  · rw [getBits_inside r n h]; exact bitsValue_lt _ _ _
  · rw [getBits_past r n (by omega)]; exact Nat.two_pow_pos n

/-- One raw bit inside the valid bytes. -/
theorem rawBit_inside (r : BitReader) (h : r.pos < 8 * r.buf.length) :
    r.rawBit = (bitOf r.buf r.pos, { r with pos := r.pos + 1 }) := by
  simp [BitReader.rawBit, h]

/-- One raw bit past the valid bytes is a free value. -/
theorem rawBit_past (r : BitReader) (h : 8 * r.buf.length ≤ r.pos) :
    r.rawBit = (Config.drawBit r.draws, { r with pos := r.pos + 1, draws := r.draws + 1 }) := by
  simp [BitReader.rawBit, Nat.not_lt.mpr h]

@[simp] theorem rawBit_pos (r : BitReader) : r.rawBit.2.pos = r.pos + 1 := by
  unfold BitReader.rawBit; split <;> rfl

@[simp] theorem rawBit_buf (r : BitReader) : r.rawBit.2.buf = r.buf := by
  unfold BitReader.rawBit; split <;> rfl

@[simp] theorem rawBit_limit (r : BitReader) : r.rawBit.2.limit = r.limit := by
  unfold BitReader.rawBit; split <;> rfl

theorem rawBitsOn_succ (v n : Nat) (r : BitReader) :
    BitReader.rawBitsOn v (n + 1) r = BitReader.rawBitsOn (2 * v + r.rawBit.1.toNat) n r.rawBit.2 := rfl

@[simp] theorem rawBitsOn_pos (v n : Nat) (r : BitReader) : (BitReader.rawBitsOn v n r).2.pos = r.pos + n := by
  induction n generalizing v r with
  | zero => rfl
  | succ n ih => rw [rawBitsOn_succ, ih, rawBit_pos]; omega

@[simp] theorem rawBitsOn_buf (v n : Nat) (r : BitReader) : (BitReader.rawBitsOn v n r).2.buf = r.buf := by
  induction n generalizing v r with
  | zero => rfl
  | succ n ih => rw [rawBitsOn_succ, ih, rawBit_buf]

/-- The bits read so far are kept above the new ones. -/
theorem rawBitsOn_value (v n : Nat) (r : BitReader) :
    (BitReader.rawBitsOn v n r).1 = v * 2 ^ n + (BitReader.rawBitsOn 0 n r).1 ∧ (BitReader.rawBitsOn v n r).2 = (BitReader.rawBitsOn 0 n r).2 := by
  induction n generalizing v r with
  | zero => simp [BitReader.rawBitsOn]
  | succ n ih =>
    simp only [rawBitsOn_succ]
    obtain ⟨h1, h2⟩ := ih (2 * v + r.rawBit.1.toNat) r.rawBit.2
    obtain ⟨h3, h4⟩ := ih (2 * 0 + r.rawBit.1.toNat) r.rawBit.2
    refine ⟨?_, h2.trans h4.symm⟩
    have h5 : v * (2 ^ n * 2) = 2 * v * 2 ^ n := by rw [Nat.mul_comm (2 ^ n) 2, ← Nat.mul_assoc, Nat.mul_comm v 2]
    rw [h1, h3, Nat.pow_succ, h5, Nat.add_mul, Nat.add_mul, Nat.mul_zero, Nat.zero_mul]
    omega

theorem rawBits_lt (r : BitReader) (n : Nat) : (r.rawBits n).1 < 2 ^ n := by
  unfold BitReader.rawBits
  induction n generalizing r with
  | zero => simp [BitReader.rawBitsOn]
  | succ n ih =>
    rw [rawBitsOn_succ, (rawBitsOn_value _ _ _).1, Nat.pow_succ]
    have h := ih r.rawBit.2
    have h2 := r.rawBit.1.toNat_lt
    have : (2 * 0 + r.rawBit.1.toNat) * 2 ^ n ≤ 1 * 2 ^ n := Nat.mul_le_mul_right _ (by omega)
    omega

@[simp] theorem rawBits_pos (r : BitReader) (n : Nat) : (r.rawBits n).2.pos = r.pos + n := rawBitsOn_pos 0 n r

@[simp] theorem rawBits_buf (r : BitReader) (n : Nat) : (r.rawBits n).2.buf = r.buf := rawBitsOn_buf 0 n r

theorem rawBits_succ (r : BitReader) (n : Nat) :
    (r.rawBits (n + 1)).1 = r.rawBit.1.toNat * 2 ^ n + (r.rawBit.2.rawBits n).1 ∧ (r.rawBits (n + 1)).2 = (r.rawBit.2.rawBits n).2 := by
  have h := rawBitsOn_value (2 * 0 + r.rawBit.1.toNat) n r.rawBit.2
  unfold BitReader.rawBits
  rw [rawBitsOn_succ]
  exact ⟨by simpa using h.1, h.2⟩

/-- Bit `k` of IN_BUF as the GETBITS reader sees it. -/
theorem bitOf_inBuf (s : State) (p : Nat) (h : p < 8 * Config.inBufSize) :
    bitOf s.inBuf p = (s.mem.read (inBase + p / 8)).getLsbD (7 - p % 8) := by
  have h1 : p / 8 < Config.inBufSize := by omega
  simp [bitOf, State.inBuf, List.getD, h1]

/-- Repeating a read gives as many values. -/
@[simp] theorem length_collect {α : Type} (read : BitReader → α × BitReader) (n : Nat) (r : BitReader) :
    (r.collect read n).1.length = n := by
  induction n generalizing r with
  | zero => rfl
  | succ n ih => simp [BitReader.collect, ih]

end Sys2Proof.Machine
end

