-- ==== Sys2Proof/Laws/Frame.lean ====
section
/-! SUPPORT. One frame: how many PCM words it gives, that zeros stay zeros, and what each outcome of a located frame is. -/

namespace Sys2Proof.Machine

/-! ### PCM words -/

@[simp] theorem length_synthFrom (S : Vector Word 576) (n t : Nat) (hist : Vector Row 15) : (synthFrom S n t hist).1.length = 32 * n := by
  induction n generalizing t hist with
  | zero => rfl
  | succ n ih =>
    simp only [synthFrom, synthCall, List.length_append, List.length_map, List.length_range, ih]
    omega

@[simp] theorem length_channelOut (h : Word) (gi : GranuleInfo) (x : Vector Word 576) (c : Channel) :
    (channelOut h gi x c).1.length = 576 := by
  simp [channelOut, synthGranule]

theorem length_interleave (y0 y1 : List Word) (h : y0.length = y1.length) : (interleave y0 y1).length = 2 * y0.length := by
  induction y0 generalizing y1 with
  | nil => cases y1 <;> rfl
  | cons a y0 ih =>
    cases y1 with
    | nil => simp at h
    | cons b y1 =>
      simp only [interleave, List.length_cons]
      rw [ih y1 (by simpa using h)]
      omega

/-- A granule's PCM words so far are left alone, and it gives 576 samples for each decoded channel (R330). -/
theorem granuleOut_spec (h : Word) (si : SideInfo) (gr : Nat) (w : FrameWork) :
    (granuleOut h si gr w).1.pcm = w.pcm ∧ (granuleOut h si gr w).2.length = hdrChannels h
      ∧ ∀ y ∈ (granuleOut h si gr w).2, y.length = 576 := by
  unfold granuleOut
  by_cases hc : hdrChannels h = 1
  · simp [hc, granuleMono]
  · have : hdrChannels h = 2 := by have := hdrChannels_le h; have := hdrChannels_pos h; omega
    simp [this, granuleDual]

theorem length_pcmWords (ys : List (List Word)) (n : Nat) (hl : ys.length = 1 ∨ ys.length = 2) (hy : ∀ y ∈ ys, y.length = n) :
    (pcmWords ys).length = n * ys.length := by
  rcases ys with _ | ⟨y0, _ | ⟨y1, _ | ⟨y2, ys⟩⟩⟩
  · simp at hl
  · simpa [pcmWords] using hy y0
  · have h0 := hy y0 (by simp)
    have h1 := hy y1 (by simp)
    rw [pcmWords, length_interleave _ _ (h0.trans h1.symm), h0]
    exact Nat.mul_comm _ _
  · simp at hl

theorem length_decodeGranule (h : Word) (si : SideInfo) (gr : Nat) (w : FrameWork) :
    (decodeGranule h si gr w).pcm.length = w.pcm.length + 576 * hdrChannels h := by
  obtain ⟨h1, h2, h3⟩ := granuleOut_spec h si gr w
  have := hdrChannels_le h
  have := hdrChannels_pos h
  simp only [decodeGranule, List.length_append]
  rw [length_pcmWords _ _ (by omega) h3, h1, h2]

theorem length_decodeGranules (h : Word) (si : SideInfo) (n gr : Nat) (w : FrameWork) :
    (decodeGranules h si n gr w).pcm.length = w.pcm.length + n * (576 * hdrChannels h) := by
  induction n generalizing gr w with
  | zero => simp [decodeGranules]
  | succ n ih =>
    rw [decodeGranules, ih, length_decodeGranule, Nat.add_mul, Nat.one_mul]
    omega

/-- A frame gives its samples, times its channels (R333). -/
theorem length_decodeMainData (h : Word) (si : SideInfo) (md : List Byte) (s : State) :
    (decodeMainData h si md s).pcm.length = 576 * hdrGranules h * hdrChannels h := by
  rw [decodeMainData, length_decodeGranules]
  simp only [frameStart, List.length_nil, Nat.zero_add]
  rw [← Nat.mul_assoc, Nat.mul_comm (hdrGranules h) 576]

@[simp] theorem length_zeroPcm (h : Word) : (zeroPcm h).length = hdrSamples h * hdrChannels h := by simp [zeroPcm]

/-- Writing PCM words leaves every other byte alone (R336, R361). -/
theorem emitPcm_read_outside (nw : Bool) (ws : List Half) (s : State) (a : Nat)
    (h : a < pcmBase ∨ pcmBase + 2 * ws.length ≤ a) : (s.emitPcm nw ws).mem.read a = s.mem.read a := by
  cases nw with
  | true => rfl
  | false => exact (writePcm_spec ws s).2 a h

/-! ### Zeros (R15) -/

theorem evalRule_zero (rule : Rule) (ws : List Word) (h : ∀ w ∈ ws, w = 0) : evalRule rule ws = 0 := by
  have : ws.all isZeroWord = true := by
    rw [List.all_eq_true]
    intro w hw
    rw [h w hw]
    rfl
  simp [evalRule, this]

/-- The zero row of the synthesis history. -/
abbrev zeroRow : Row := Vector.replicate 64 0

theorem matrixing_zero (s : List Word) (h : ∀ w ∈ s, w = 0) : matrixing s = zeroRow :=
  tabulate_const fun _ _ => evalRule_zero _ _ h

theorem entry_zero {n : Nat} (i : Nat) : entry (Vector.replicate n (0 : Word)) i 0 = 0 := by
  rw [entry_replicate]; split <;> rfl

theorem callVector_zero (r : Nat) : callVector zeroRow (Vector.replicate 15 zeroRow) r = zeroRow := by
  unfold callVector
  split
  · rfl
  · rw [entry_replicate]; split <;> rfl

/-- A synthesis call of zeros over a zero history gives zeros and keeps it (R338). -/
theorem synthCall_zero (s : List Word) (h : ∀ w ∈ s, w = 0) :
    synthCall s (Vector.replicate 15 zeroRow) = (List.replicate 32 0, Vector.replicate 15 zeroRow) := by
  unfold synthCall
  simp only [matrixing_zero s h]
  refine Prod.ext ?_ (tabulate_const fun _ _ => callVector_zero _)
  rw [List.eq_replicate_iff]
  refine ⟨by simp, fun b hb => ?_⟩
  obtain ⟨j, _, rfl⟩ := List.mem_map.mp hb
  refine evalRule_zero _ _ fun w hw => ?_
  rcases List.mem_append.mp hw with hw | hw
  · exact h w hw
  · obtain ⟨r, _, rfl⟩ := List.mem_map.mp hw
    rw [entry_replicate, ite_self]
    exact entry_zero _

theorem synthFrom_zero (n t : Nat) :
    synthFrom (Vector.replicate 576 0) n t (Vector.replicate 15 zeroRow) = (List.replicate (32 * n) 0, Vector.replicate 15 zeroRow) := by
  induction n generalizing t with
  | zero => rfl
  | succ n ih =>
    have hs : ∀ w ∈ slot (Vector.replicate 576 0) t, w = 0 := by
      intro w hw
      obtain ⟨sb, _, rfl⟩ := List.mem_map.mp hw
      exact entry_zero _
    rw [synthFrom, synthCall_zero _ hs]
    simp only [ih, List.replicate_append_replicate]
    congr 2
    omega

theorem antialias_zero (kind : BlockKind) : antialias kind (Vector.replicate 576 0) = Vector.replicate 576 0 := by
  apply tabulate_const
  intro l _
  simp only [antialiasLine, entry_zero]
  split
  · exact evalRule_zero _ _ (by simp)
  · split
    · exact evalRule_zero _ _ (by simp)
    · rfl

theorem longZ_zero (bt : Nat) (X : List Word) (h : ∀ w ∈ X, w = 0) (i : Nat) : longZ bt X i = 0 := by
  unfold longZ
  split
  · rfl
  · exact evalRule_zero _ _ (by simp [evalRule_zero _ X h])

theorem shortZ_zero (Xw : Nat → List Word) (h : ∀ k, ∀ w ∈ Xw k, w = 0) (i : Nat) : shortZ Xw i = 0 := by
  refine evalRule_zero _ _ fun w hw => ?_
  obtain ⟨p, _, rfl⟩ := List.mem_map.mp hw
  exact evalRule_zero _ _ (h p.1)

theorem subbandZ_zero (sfreq : Nat) (gi : GranuleInfo) (sb : Nat) :
    subbandZ sfreq gi (Vector.replicate 576 0) sb = Vector.replicate 36 0 := by
  unfold subbandZ
  split
  · refine tabulate_const fun i _ => longZ_zero _ _ ?_ i
    intro w hw
    obtain ⟨k, _, rfl⟩ := List.mem_map.mp hw
    exact entry_zero _
  · refine tabulate_const fun i _ => shortZ_zero _ (fun k w hw => ?_) i
    obtain ⟨j, _, rfl⟩ := List.mem_map.mp hw
    exact entry_zero _

/-- A transform of zeros over a zero overlap gives zeros and keeps it (R320(a)). -/
theorem transform_zero (sfreq : Nat) (gi : GranuleInfo) :
    transform sfreq gi (Vector.replicate 576 0) (Vector.replicate 576 0) = (Vector.replicate 576 0, Vector.replicate 576 0) := by
  have hz : tabulate 32 (subbandZ sfreq gi (Vector.replicate 576 0)) = Vector.replicate 32 (Vector.replicate 36 0) :=
    tabulate_const fun sb _ => subbandZ_zero sfreq gi sb
  have ht : ∀ sb i, entry (entry (Vector.replicate 32 (Vector.replicate 36 (0 : Word))) sb (Vector.replicate 36 0)) i 0 = 0 := by
    intro sb i
    rw [entry_replicate]
    split <;> exact entry_zero i
  unfold transform
  simp only [antialias_zero, hz, ht, entry_zero]
  rw [Prod.mk.injEq]
  refine ⟨tabulate_const fun l _ => ?_, tabulate_const fun _ _ => rfl⟩
  have h0 : evalRule .overlapAdd [0, 0] = 0 := evalRule_zero _ _ (by simp)
  simp only [overlapOut, h0]
  split
  · exact evalRule_zero _ _ (by simp)
  · rfl

/-- One channel of one granule: zeros stay zeros. -/
theorem channelOut_zero (h : Word) (gi : GranuleInfo) :
    channelOut h gi (Vector.replicate 576 0) .zero = (List.replicate 576 0, .zero) := by
  unfold channelOut
  simp only [Channel.zero, transform_zero, synthGranule]
  rw [synthFrom_zero]

theorem requantise_zero (ms : Bool) (sfreq : Nat) (gi : GranuleInfo) (pre : Bool) (sf : Scalefactors) :
    requantise ms sfreq gi pre sf (Vector.replicate 576 0) = Vector.replicate 576 0 := by
  apply tabulate_const
  intro l _
  have : entry (Vector.replicate 576 (0 : Int)) l 0 = 0 := by rw [entry_replicate]; split <;> rfl
  simp [requantLine, this]

theorem stereo_zero (c : StereoCtx) :
    stereo c (Vector.replicate 576 0) (Vector.replicate 576 0) = (Vector.replicate 576 0, Vector.replicate 576 0) := by
  have hl : ∀ b l, stereoLine c b l 0 0 = (0, 0) := by
    intro b l
    unfold stereoLine
    simp only
    split
    · rw [evalRule_zero _ _ (by simp), evalRule_zero _ _ (by simp)]
    · split
      · rw [evalRule_zero _ _ (by simp), evalRule_zero _ _ (by simp)]
      · rfl
  unfold stereo
  split
  · simp only [entry_zero, hl]
    rw [Prod.mk.injEq]
    exact ⟨tabulate_const fun _ _ => rfl, tabulate_const fun _ _ => rfl⟩
  · rfl

theorem pcmOf_zero : pcmOf 0 = 0 := by decide

/-! ### A located frame -/

/-- The machine once DECODE has written the header and the result registers of the frame it located (R360). -/
def afterLocation (off fl : Nat) (h : Word) (s : State) : State :=
  (({ s with lastHeader := h }).setFormatOf h).setResult off (off + fl) 0

/-- A located frame is decoded as Layer III or ends UNSUPPORTED. -/
theorem decodeLocated_eq (nw : Bool) (off fl : Nat) (h : Word) (s : State) :
    decodeLocated nw off fl h s =
      if hdrLayer h = 3 then decodeLayer3 nw off fl h (afterLocation off fl h s) else frameUnsupported (afterLocation off fl h s) := rfl

/-- The four ways a Layer III frame ends, from its side information and its reservoir. -/
theorem decodeLayer3_cases (nw : Bool) (off fl : Nat) (h : Word) (s : State) :
    let si := (readSideInfo h (frameReader s.slice off fl h)).1
    let fr := (readSideInfo h (frameReader s.slice off fl h)).2
    let md := reservoirRestore s.reservoir si.mainDataBegin (freshBytes s.slice off fl fr.pos)
    (sideCheck h si fr = some .unsupported ∧ decodeLayer3 nw off fl h s = frameUnsupported s)
    ∨ (∃ c, sideCheck h si fr = some c ∧ c ≠ .unsupported ∧ decodeLayer3 nw off fl h s = frameCorrupt nw h s)
    ∨ (sideCheck h si fr = none ∧ s.reservoir.length < si.mainDataBegin ∧ decodeLayer3 nw off fl h s = frameUnderflow nw h md s)
    ∨ (sideCheck h si fr = none ∧ si.mainDataBegin ≤ s.reservoir.length
        ∧ decodeLayer3 nw off fl h s = frameOk nw h md (decodeMainData h si md s) s) := by
  intro si fr md
  have e : decodeLayer3 nw off fl h s = match sideCheck h si fr with
      | some .unsupported => frameUnsupported s
      | some _ => frameCorrupt nw h s
      | none => if reservoirUnderflow s.reservoir si.mainDataBegin then frameUnderflow nw h md s
          else frameOk nw h md (decodeMainData h si md s) s := rfl
  rw [e]
  rcases hc : sideCheck h si fr with _ | c
  · by_cases hu : s.reservoir.length < si.mainDataBegin
    · exact .inr (.inr (.inl ⟨rfl, hu, by simp [reservoirUnderflow, hu]⟩))
    · exact .inr (.inr (.inr ⟨rfl, by omega, by simp [reservoirUnderflow, hu]⟩))
  · by_cases hu : c = .unsupported
    · subst hu
      exact .inl ⟨rfl, rfl⟩
    · refine .inr (.inl ⟨c, rfl, hu, ?_⟩)
      cases c <;> first | exact absurd rfl hu | rfl

/-! ### Reservoir -/

theorem length_reservoirRestore (res : List Byte) (b : Nat) (fresh : List Byte) :
    (reservoirRestore res b fresh).length = min res.length b + fresh.length := by
  simp only [reservoirRestore, List.length_append, List.length_drop]
  omega

theorem length_reservoirSave (md : List Byte) (p : Nat) : (reservoirSave md p).length = min (md.length - p) 511 := by
  simp only [reservoirSave, List.length_drop, Config.resMax]
  omega

@[simp] theorem length_bytes (S : Slice) (p n : Nat) : (S.bytes p n).length = n := by simp [Slice.bytes]

end Sys2Proof.Machine
end

