-- ==== Sys2Proof/Laws/Sync.lean ====
section
/-! SUPPORT. What frame synchronisation does: the candidate test, the search, the fast path, and that each reads the slice
only inside it. -/

namespace Sys2Proof.Machine

/-! ### The genuineness walk (R192) -/

/-- A genuine frame lies within the slice (R193). -/
theorem genuineFrom_fits {S : Slice} {h0 : Word} {ff fuel p len : Nat} (h : genuineFrom S h0 ff (fuel + 1) 0 p len = true) :
    p + len ≤ S.len := by
  unfold genuineFrom at h
  simp only at h
  split at h
  · simp at h; omega
  · omega

theorem genuine_fits {S : Slice} {h0 : Word} {i fl ff : Nat} (h : genuine S h0 i fl ff = true) : i + fl ≤ S.len :=
  genuineFrom_fits h

/-! ### The free-format probe (R194) -/

/-- The condition under which the probe stops at stride `k`. -/
def probeStops (S : Slice) (i : Nat) (h : Word) (k : Nat) : Bool :=
  hdrCompare h (S.word (i + k)) && decide (hdrPad h < k) && decide (i + k + (k - hdrPad h + hdrPad (S.word (i + k))) + 4 ≤ S.len)
    && hdrCompare h (S.word (i + k + (k - hdrPad h + hdrPad (S.word (i + k)))))

theorem freeProbeFrom_succ (S : Slice) (i : Nat) (h : Word) (n k : Nat) :
    freeProbeFrom S i h (n + 1) k =
      if i + k + 4 > S.len then (0, 0) else if probeStops S i h k then (k, k - hdrPad h) else freeProbeFrom S i h n (k + 1) := rfl

/-- The probe gives nothing, or the smallest stride at which it stops. -/
theorem freeProbeFrom_spec (S : Slice) (i : Nat) (h : Word) (n k : Nat) :
    (freeProbeFrom S i h n k = (0, 0) ∧ ∀ j, k ≤ j → j < k + n → i + j + 4 ≤ S.len → probeStops S i h j = false)
    ∨ ∃ j, k ≤ j ∧ j < k + n ∧ i + j + 4 ≤ S.len ∧ probeStops S i h j = true ∧ freeProbeFrom S i h n k = (j, j - hdrPad h)
        ∧ ∀ m, k ≤ m → m < j → probeStops S i h m = false := by
  induction n generalizing k with
  | zero => exact .inl ⟨rfl, fun j h1 h2 => by omega⟩
  | succ n ih =>
    rw [freeProbeFrom_succ]
    by_cases hlen : i + k + 4 > S.len
    · rw [if_pos hlen]
      exact .inl ⟨rfl, fun j h1 _ h3 => by omega⟩
    · rw [if_neg hlen]
      by_cases hs : probeStops S i h k = true
      · rw [if_pos hs]
        exact .inr ⟨k, by omega, by omega, by omega, hs, rfl, fun m h1 h2 => by omega⟩
      · rw [if_neg hs]
        have hs' : probeStops S i h k = false := by simpa using hs
        rcases ih (k + 1) with ⟨h1, h2⟩ | ⟨j, h1, h2, h3, h4, h5, h6⟩
        · refine .inl ⟨h1, fun j h3 h4 h5 => ?_⟩
          by_cases hj : j = k
          · exact hj ▸ hs'
          · exact h2 j (by omega) (by omega) h5
        · refine .inr ⟨j, by omega, by omega, h3, h4, h5, fun m h7 h8 => ?_⟩
          by_cases hm : m = k
          · exact hm ▸ hs'
          · exact h6 m (by omega) h8

theorem freeProbe_spec (S : Slice) (i : Nat) (h : Word) :
    (freeProbe S i h = (0, 0) ∧ ∀ j, 4 ≤ j → j < 2304 → i + j + 4 ≤ S.len → probeStops S i h j = false)
    ∨ ∃ j, 4 ≤ j ∧ j < 2304 ∧ i + j + 4 ≤ S.len ∧ probeStops S i h j = true ∧ freeProbe S i h = (j, j - hdrPad h)
        ∧ ∀ m, 4 ≤ m → m < j → probeStops S i h m = false := by
  have := freeProbeFrom_spec S i h (Config.maxFreeFormat - 4) 4
  simpa [freeProbe, Config.maxFreeFormat] using this

theorem freeProbe_bound (S : Slice) (i : Nat) (h : Word) : (freeProbe S i h).1 < 2304 ∧ (freeProbe S i h).2 < 2304 := by
  rcases freeProbe_spec S i h with ⟨h1, _⟩ | ⟨j, _, h2, _, _, h3, _⟩
  · simp [h1]
  · rw [h3]; exact ⟨h2, by simp only; omega⟩

/-! ### One candidate and the search (R190) -/

/-- A candidate is a frame exactly when its header is valid, its length is known and positive, and the walk accepts it. -/
theorem candidate_eq_some (S : Slice) (i : Nat) (h : Word) (fl ff : Nat) :
    candidate S i h = some (fl, ff) ↔
      hdrValid h = true ∧ (if hdrFree h then freeProbe S i h = (fl, ff) else fl = hdrFrameLen h 0 ∧ ff = 0)
        ∧ 0 < fl ∧ genuine S h i fl ff = true := by
  unfold candidate
  by_cases hv : hdrValid h = true
  · by_cases hf : hdrFree h = true
    · rcases hp : freeProbe S i h with ⟨a, b⟩
      simp only [hv, hf, Bool.not_true, Bool.false_eq_true, if_false, if_true, true_and, Prod.mk.injEq]
      constructor
      · intro hc
        split at hc
        · rename_i hg
          simp only [Option.some.injEq, Prod.mk.injEq] at hc
          obtain ⟨rfl, rfl⟩ := hc
          simpa using hg
        · exact absurd hc (by simp)
      · rintro ⟨⟨rfl, rfl⟩, h1, h2⟩
        simp [h1, h2]
    · simp only [hv, hf, Bool.not_true, Bool.false_eq_true, if_false, true_and]
      constructor
      · intro hc
        split at hc
        · rename_i hg
          simp only [Option.some.injEq, Prod.mk.injEq] at hc
          obtain ⟨rfl, rfl⟩ := hc
          simpa using hg
        · exact absurd hc (by simp)
      · rintro ⟨⟨rfl, rfl⟩, h1, h2⟩
        simp [h1, h2]
  · simp [hv]

theorem candidate_invalid {S : Slice} {i : Nat} {h : Word} (hv : hdrValid h = false) : candidate S i h = none := by
  simp [candidate, hv]

theorem candidate_fits {S : Slice} {i : Nat} {h : Word} {fl ff : Nat} (hc : candidate S i h = some (fl, ff)) : i + fl ≤ S.len :=
  genuine_fits ((candidate_eq_some S i h fl ff).mp hc).2.2.2

theorem candidate_free_bound {S : Slice} {i : Nat} {h : Word} {fl ff : Nat} (hc : candidate S i h = some (fl, ff)) : ff < 2304 := by
  have := ((candidate_eq_some S i h fl ff).mp hc).2.1
  split at this
  · have hb := (freeProbe_bound S i h).2
    rw [this] at hb
    exact hb
  · omega

/-- The search gives nothing when no candidate is a frame, else the first that is. -/
theorem findFrom_spec (S : Slice) (n i : Nat) :
    (findFrom S n i = none ∧ ∀ j, i ≤ j → j < i + n → candidate S j (S.word j) = none)
    ∨ ∃ j fl ff, i ≤ j ∧ j < i + n ∧ candidate S j (S.word j) = some (fl, ff) ∧ findFrom S n i = some (j, fl, ff)
        ∧ ∀ m, i ≤ m → m < j → candidate S m (S.word m) = none := by
  induction n generalizing i with
  | zero => exact .inl ⟨rfl, fun j h1 h2 => by omega⟩
  | succ n ih =>
    unfold findFrom
    cases hc : candidate S i (S.word i) with
    | some p => exact .inr ⟨i, p.1, p.2, by omega, by omega, by simp [hc], rfl, fun m h1 h2 => by omega⟩
    | none =>
      simp only
      rcases ih (i + 1) with ⟨h1, h2⟩ | ⟨j, fl, ff, h1, h2, h3, h4, h5⟩
      · refine .inl ⟨h1, fun j h3 h4 => ?_⟩
        by_cases hj : j = i
        · exact hj ▸ hc
        · exact h2 j (by omega) (by omega)
      · refine .inr ⟨j, fl, ff, by omega, by omega, h3, h4, fun m h6 h7 => ?_⟩
        by_cases hm : m = i
        · exact hm ▸ hc
        · exact h5 m (by omega) h7

theorem findFrame_spec (S : Slice) :
    (findFrame S = none ∧ ∀ j, j + 4 < S.len → candidate S j (S.word j) = none)
    ∨ ∃ j fl ff, j + 4 < S.len ∧ candidate S j (S.word j) = some (fl, ff) ∧ findFrame S = some (j, fl, ff)
        ∧ ∀ m, m < j → candidate S m (S.word m) = none := by
  rcases findFrom_spec S (S.len - 4) 0 with ⟨h1, h2⟩ | ⟨j, fl, ff, _, h2, h3, h4, h5⟩
  · exact .inl ⟨h1, fun j hj => h2 j (by omega) (by omega)⟩
  · exact .inr ⟨j, fl, ff, by omega, h3, h4, fun m hm => h5 m (by omega) hm⟩

/-- What a search that found a frame says of it. -/
theorem findFrame_some {S : Slice} {off fl ff : Nat} (h : findFrame S = some (off, fl, ff)) :
    off + 4 < S.len ∧ candidate S off (S.word off) = some (fl, ff) ∧ ∀ m, m < off → candidate S m (S.word m) = none := by
  rcases findFrame_spec S with ⟨h1, _⟩ | ⟨j, a, b, h2, h3, h4, h5⟩
  · simp [h1] at h
  · rw [h4] at h
    simp only [Option.some.injEq, Prod.mk.injEq] at h
    obtain ⟨rfl, rfl, rfl⟩ := h
    exact ⟨h2, h3, h5⟩

/-! ### The fast path (R200) -/

/-- A valid comparison means a valid second header (R112). -/
theorem hdrCompare_valid {a b : Word} (h : hdrCompare a b = true) : hdrValid b = true := by
  simp [hdrCompare] at h
  exact h.1.1.1.1

/-- What the fast path says of the frame it takes. -/
theorem fastPath_some {s : State} {fl : Nat} (h : fastPath s = some fl) :
    4 < s.inLen.toNat ∧ hdrCompare s.lastHeader (s.slice.word 0) = true ∧ fl = hdrFrameLen (s.slice.word 0) s.freeFormat ∧ 0 < fl
      ∧ fl ≤ s.inLen.toNat := by
  unfold fastPath at h
  simp only at h
  split at h
  · rename_i hc
    simp only [Bool.and_eq_true, State.slice] at hc
    split at h
    · simp at h
    · split at h
      · simp only [Option.some.injEq] at h
        subst h
        rename_i h1 h2
        exact ⟨of_decide_eq_true hc.1.1, hc.2, rfl, by omega, Nat.le_of_eq h2⟩
      · split at h
        · simp at h
        · simp only [Option.some.injEq] at h
          subst h
          rename_i h1 h2 h3
          simp [State.slice] at h3
          exact ⟨of_decide_eq_true hc.1.1, hc.2, rfl, by omega, by simp [State.slice] at *; omega⟩
  · simp at h

/-- No fast path once the last header is cleared (R51). -/
theorem fastPath_cleared {s : State} (h : s.lastHeader = 0) : fastPath s = none := by
  simp [fastPath, h]

/-! ### Reading the slice only inside it (R82) -/

/-- The two slices hold the same bytes. -/
structure Slice.Agree (S T : Slice) : Prop where
  len : S.len = T.len
  byte : ∀ p, p < S.len → S.byte p = T.byte p

theorem Slice.Agree.word {S T : Slice} (h : S.Agree T) {p : Nat} (hp : p + 4 ≤ S.len) : S.word p = T.word p := by
  simp [Slice.word, h.byte p (by omega), h.byte (p + 1) (by omega), h.byte (p + 2) (by omega), h.byte (p + 3) (by omega)]

theorem Slice.Agree.bytes {S T : Slice} (h : S.Agree T) {p n : Nat} (hp : p + n ≤ S.len) : S.bytes p n = T.bytes p n := by
  apply List.map_congr_left
  intro i hi
  have := List.mem_range.mp hi
  exact h.byte (p + i) (by omega)

theorem genuineFrom_agree {S T : Slice} (h : S.Agree T) (h0 : Word) (ff fuel m p len : Nat) :
    genuineFrom S h0 ff fuel m p len = genuineFrom T h0 ff fuel m p len := by
  induction fuel generalizing m p len with
  | zero => rfl
  | succ n ih =>
    unfold genuineFrom
    simp only [h.len]
    by_cases hq : p + len + 4 > T.len
    · simp [hq]
    · have hw : S.word (p + len) = T.word (p + len) := h.word (by rw [h.len]; omega)
      simp [hq, hw, ih]

theorem probeStops_agree {S T : Slice} (h : S.Agree T) (i : Nat) (hd : Word) (k : Nat) (hk : i + k + 4 ≤ S.len) :
    probeStops S i hd k = probeStops T i hd k := by
  unfold probeStops
  rw [h.word hk, h.len]
  by_cases hn : i + k + (k - hdrPad hd + hdrPad (T.word (i + k))) + 4 ≤ T.len
  · rw [h.word (by rw [h.len]; exact hn)]
  · simp [hn]

theorem freeProbeFrom_agree {S T : Slice} (h : S.Agree T) (i : Nat) (hd : Word) (n k : Nat) :
    freeProbeFrom S i hd n k = freeProbeFrom T i hd n k := by
  induction n generalizing k with
  | zero => rfl
  | succ n ih =>
    rw [freeProbeFrom_succ, freeProbeFrom_succ, ← h.len]
    by_cases hl : i + k + 4 > S.len
    · simp [hl]
    · rw [if_neg hl, if_neg hl, probeStops_agree h i hd k (by omega), ih]

theorem candidate_agree {S T : Slice} (h : S.Agree T) (i : Nat) (hd : Word) : candidate S i hd = candidate T i hd := by
  simp [candidate, genuine, genuineFrom_agree h, freeProbe, freeProbeFrom_agree h]

theorem findFrom_agree {S T : Slice} (h : S.Agree T) (n i : Nat) (hn : i + n + 4 ≤ S.len ∨ n = 0) :
    findFrom S n i = findFrom T n i := by
  induction n generalizing i with
  | zero => rfl
  | succ n ih =>
    unfold findFrom
    rw [candidate_agree h, h.word (by omega), ih (i + 1) (by omega)]

theorem findFrame_agree {S T : Slice} (h : S.Agree T) : findFrame S = findFrame T := by
  unfold findFrame
  rw [h.len]
  exact findFrom_agree h _ _ (by rw [h.len]; omega)

end Sys2Proof.Machine
end

