-- ==== Sys2Proof/Laws/Engine.lean ====
section
/-! SUPPORT. What one transition of the engine does: for every header a search can meet, and for every command word. -/

namespace Sys2Proof

theorem extract_append_hi {n m : Nat} (x : BitVec n) (y : BitVec m) (i k : Nat) :
    (x ++ y).extractLsb' (m + i) k = x.extractLsb' i k := by
  apply BitVec.eq_of_getLsbD_eq
  intro j hj
  have h1 : ¬m + i + j < m := by omega
  have h2 : m + i + j - m = i + j := by omega
  simp only [BitVec.getLsbD_extractLsb', BitVec.getLsbD_append, h1, h2]
  simp

theorem extract_append_lo {n m : Nat} (x : BitVec n) (y : BitVec m) (i k : Nat) (h : i + k ≤ m) :
    (x ++ y).extractLsb' i k = y.extractLsb' i k := by
  apply BitVec.eq_of_getLsbD_eq
  intro j hj
  have h1 : i + j < m := by omega
  simp only [BitVec.getLsbD_extractLsb', BitVec.getLsbD_append, h1]
  simp

namespace Machine

/-! ### Valid and invalid kinds (R111, R118) -/

theorem hdrValid_of_version01 {h : Word} (hv : h.extractLsb' 19 2 = 1) : hdrValid h = false := by
  have h20 : h[20] = false := by
    have := congrArg (fun b => BitVec.getLsbD b 1) hv
    simpa using this
  simp [hdrValid, hdrVersionCode, hv, h20]

theorem hdrValid_of_layer0 {h : Word} (hy : h.extractLsb' 17 2 = 0) : hdrValid h = false := by simp [hdrValid, hdrLayerCode, hy]

theorem hdrValid_of_mpeg25 {h : Word} (hv : h.extractLsb' 19 2 = 0) (hy : h.extractLsb' 17 2 ≠ 1) : hdrValid h = false := by
  have h20 : h[20] = false := by
    have := congrArg (fun b => BitVec.getLsbD b 1) hv
    simpa using this
  have : hdrLayerCode h ≠ 1 := fun e => hy (BitVec.eq_of_toNat_eq e)
  simp [hdrValid, h20, this]

theorem hdrValid_of_bitrate15 {h : Word} (hb : h.extractLsb' 12 4 = 15) : hdrValid h = false := by simp [hdrValid, hdrBitrateIndex, hb]

theorem hdrValid_of_sr3 {h : Word} (hb : h.extractLsb' 10 2 = 3) : hdrValid h = false := by simp [hdrValid, hdrSrIndex, hb]

/-- The version and layer codes of a word built from its top 15 bits. -/
theorem codes_headerOf (t : BitVec 15) (r : BitVec 17) :
    (headerOf t r).extractLsb' 19 2 = t.extractLsb' 2 2 ∧ (headerOf t r).extractLsb' 17 2 = t.extractLsb' 0 2 :=
  ⟨extract_append_hi t r 2 2, extract_append_hi t r 0 2⟩

/-- No invalid row of the opcode table is a valid header (R118). -/
theorem hdrValid_invalid_rows (r : BitVec 17) (r' : BitVec 19) (hi : BitVec 5) (lo : BitVec 12) (hi' : BitVec 9) (lo' : BitVec 10) :
    hdrValid (encode (.invalidVersion01 r')) = false ∧ hdrValid (encode (.invalidLayer00Mpeg1 r)) = false
    ∧ hdrValid (encode (.invalidLayer00Mpeg2 r)) = false ∧ hdrValid (encode (.invalidLayer00Mpeg25 r)) = false
    ∧ hdrValid (encode (.invalidMpeg25L1 r)) = false ∧ hdrValid (encode (.invalidMpeg25L2 r)) = false
    ∧ hdrValid (encode (.invalidBitrate15 hi lo)) = false ∧ hdrValid (encode (.invalidSr3 hi' lo')) = false := by
  refine ⟨hdrValid_of_version01 ?_, hdrValid_of_layer0 ?_, hdrValid_of_layer0 ?_, hdrValid_of_layer0 ?_,
    hdrValid_of_mpeg25 ?_ ?_, hdrValid_of_mpeg25 ?_ ?_, hdrValid_of_bitrate15 ?_, hdrValid_of_sr3 ?_⟩
  · exact extract_append_hi (0x1FFD : BitVec 13) r' 0 2
  · exact (codes_headerOf _ _).2
  · exact (codes_headerOf _ _).2
  · exact (codes_headerOf _ _).2
  · exact (codes_headerOf _ _).1
  · rw [show encode (.invalidMpeg25L1 r) = headerOf 0x7FF3 r from rfl, (codes_headerOf _ _).2]; decide
  · exact (codes_headerOf _ _).1
  · rw [show encode (.invalidMpeg25L2 r) = headerOf 0x7FF2 r from rfl, (codes_headerOf _ _).2]; decide
  · exact (extract_append_hi ((0x7FF : BitVec 11) ++ hi ++ (15 : BitVec 4)) lo 0 4).trans
      (extract_append_lo ((0x7FF : BitVec 11) ++ hi) (15 : BitVec 4) 0 4 (by omega))
  · exact (extract_append_hi ((0x7FF : BitVec 11) ++ hi' ++ (3 : BitVec 2)) lo' 0 2).trans
      (extract_append_lo ((0x7FF : BitVec 11) ++ hi') (3 : BitVec 2) 0 2 (by omega))

/-- A header that is not valid is passed over. -/
theorem scanHeader_invalid {h : Word} (hv : hdrValid h = false) (mode : ScanMode) (pos : Nat) (s : State) :
    scanHeader h mode pos s = scanNext mode pos s := by simp [scanHeader, candidate_invalid hv]

/-- Every header row, met by a search, does the loop body of `find_frame` with its own word (R190). -/
theorem exec_header {i : Instr} {s : State} {mode : ScanMode} {pos : Nat} (hs : i.space = .header) (he : s.engine = .scan mode pos) :
    exec i s = .next (scanHeader (encode i) mode pos s) := by
  obtain h := fun r r' hi lo hi' lo' => hdrValid_invalid_rows r r' hi lo hi' lo'
  cases i with
  | reset | decode | decodeNw | probe | getbits _ | illegal _ => exact absurd hs (by simp [Instr.space])
  | mpeg1L3 f => simp [exec, execMpeg1L3, whenScanning, he]
  | mpeg2L3 f => simp [exec, execMpeg2L3, whenScanning, he]
  | mpeg25L3 f => simp [exec, execMpeg25L3, whenScanning, he]
  | mpeg1L1 f => simp [exec, execMpeg1L1, whenScanning, he]
  | mpeg1L2 f => simp [exec, execMpeg1L2, whenScanning, he]
  | mpeg2L1 f => simp [exec, execMpeg2L1, whenScanning, he]
  | mpeg2L2 f => simp [exec, execMpeg2L2, whenScanning, he]
  | invalidVersion01 r => simp [exec, execInvalidVersion01, whenScanning, he, scanHeader_invalid (h 0 r 0 0 0 0).1]
  | invalidLayer00Mpeg1 r => simp [exec, execInvalidLayer00Mpeg1, whenScanning, he, scanHeader_invalid (h r 0 0 0 0 0).2.1]
  | invalidLayer00Mpeg2 r => simp [exec, execInvalidLayer00Mpeg2, whenScanning, he, scanHeader_invalid (h r 0 0 0 0 0).2.2.1]
  | invalidLayer00Mpeg25 r => simp [exec, execInvalidLayer00Mpeg25, whenScanning, he, scanHeader_invalid (h r 0 0 0 0 0).2.2.2.1]
  | invalidMpeg25L1 r => simp [exec, execInvalidMpeg25L1, whenScanning, he, scanHeader_invalid (h r 0 0 0 0 0).2.2.2.2.1]
  | invalidMpeg25L2 r => simp [exec, execInvalidMpeg25L2, whenScanning, he, scanHeader_invalid (h r 0 0 0 0 0).2.2.2.2.2.1]
  | invalidBitrate15 hi lo => simp [exec, execInvalidBitrate15, whenScanning, he, scanHeader_invalid (h 0 0 hi lo 0 0).2.2.2.2.2.2.1]
  | invalidSr3 hi lo => simp [exec, execInvalidSr3, whenScanning, he, scanHeader_invalid (h 0 0 0 0 hi lo).2.2.2.2.2.2.2]

theorem decodeHeader_space {h : Word} {i : Instr} (hd : decodeHeader h = .ok i) : i.space = .header := by
  unfold decodeHeader at hd
  split at hd
  · exact absurd hd (by simp)
  split at hd
  · exact absurd hd (by simp)
  split at hd
  · simp only [Except.ok.injEq] at hd; subst hd; rfl
  split at hd
  · simp only [Except.ok.injEq] at hd; subst hd; rfl
  · simp only [Except.ok.injEq] at hd
    subst hd
    unfold headerKind
    simp only
    split <;> rfl

theorem hdrValid_of_noSync {h : Word} {e : NoSync} (hd : decodeHeader h = .error e) : hdrValid h = false := by
  unfold decodeHeader at hd
  split at hd
  · rename_i h1
    have : (h.extractLsb' 24 8 == 0xFF) = false := by simpa using h1
    simp only [hdrValid, this, Bool.false_and]
  split at hd
  · rename_i h2
    have : (h.extractLsb' 21 3 == 7) = false := by simpa using h2
    simp only [hdrValid, this, Bool.and_false, Bool.false_and]
  split at hd
  · exact absurd hd (by simp)
  split at hd <;> exact absurd hd (by simp)

/-- One transition of the engine within a search is the loop body of `find_frame` (R190). -/
theorem engineStep_scan {s : State} {mode : ScanMode} {pos : Nat} (he : s.engine = .scan mode pos) :
    engineStep s = .next (scanHeader (s.slice.word pos) mode pos s) := by
  unfold engineStep fetchWord
  simp only [he, decodeIn]
  rcases hd : decodeHeader (s.slice.word pos) with e | i
  · simp only [Except.toOption, whenScanning, he]
    rw [scanHeader_invalid (hdrValid_of_noSync hd)]
  · simp only [Except.toOption]
    rw [exec_header (decodeHeader_space hd) he, encode_of_decodeHeader hd]

/-! ### Commands -/

theorem decodeCommand_space (w : Word) : (decodeCommand w).space = .command := by
  unfold decodeCommand
  simp only
  repeat' split
  all_goals rfl

/-- One transition of the engine at an accepted command is that command's meaning (R34, R101). -/
theorem engineStep_command {s : State} (he : s.engine = .command) : engineStep s = exec (decodeCommand s.cmd) s := by
  simp [engineStep, fetchWord, he, decodeIn]

theorem engineStep_idle {s : State} (he : s.engine = .idle) : engineStep s = .next s := by simp [engineStep, fetchWord, he]

/-- What a command word leaves as its next state: each command ends in one transition (R90). -/
theorem exec_command (i : Instr) (s : State) (hs : i.space = .command) :
    exec i s = .next (match i with
      | .reset => s.stateReset.raiseResult .ok
      | .decode => decodeCommandRun false s
      | .decodeNw => decodeCommandRun true s
      | .probe => if !s.argsOk then s.raiseResult .badArgs else searchAndRun .probe s
      | .getbits n => ({ s with
          brData := BitVec.ofNat 32 (s.bitReader.getBits n.toNat).1, brPos := s.brPos + BitVec.ofNat 32 n.toNat }).raiseResult .ok
      | _ => s.raiseResult .illegalCmd) := by
  cases i <;> first | rfl | exact absurd hs (by simp [Instr.space])

/-! ### What no command changes -/

/-- The registers no command writes, and the host's side of the model. -/
structure Kept (s t : State) : Prop where
  cmd : t.cmd = s.cmd
  overrun : t.overrun = s.overrun
  irqEn : t.irqEn = s.irqEn
  inOff : t.inOff = s.inOff
  inLen : t.inLen = s.inLen
  brLimit : t.brLimit = s.brLimit
  bus : t.bus = s.bus
  busData : t.busData = s.busData

theorem Kept.trans {s t u : State} (h : Kept s t) (h' : Kept t u) : Kept s u :=
  ⟨h'.cmd.trans h.cmd, h'.overrun.trans h.overrun, h'.irqEn.trans h.irqEn, h'.inOff.trans h.inOff, h'.inLen.trans h.inLen,
    h'.brLimit.trans h.brLimit, h'.bus.trans h.bus, h'.busData.trans h.busData⟩

/-- A command has ended and changed memory in PCM_BUF at most (R34, R82). -/
structure Finished (s t : State) : Prop extends Kept s t where
  done : t.done = true
  idle : t.engine = .idle
  brPos : t.brPos = s.brPos
  brData : t.brData = s.brData
  mem : ∀ a, (a < pcmBase ∨ pcmBase + 2 * Config.pcmWords ≤ a) → t.mem.read a = s.mem.read a

theorem emitPcm_outside_window (nw : Bool) (ws : List Half) (h : ws.length ≤ 2304) (s : State) (a : Nat)
    (ha : a < pcmBase ∨ pcmBase + 2 * Config.pcmWords ≤ a) : (s.emitPcm nw ws).mem.read a = s.mem.read a :=
  emitPcm_read_outside nw ws s a (by unfold Config.pcmWords at ha; omega)

theorem finished_frameUnsupported (s : State) : Finished s (frameUnsupported s) := by
  constructor <;> first | constructor <;> rfl | intros; rfl | rfl

theorem finished_noFrame (s : State) : Finished s (noFrame s) := by
  constructor <;> first | constructor <;> rfl | intros; rfl | rfl

theorem finished_probeLocated (off fl : Nat) (h : Word) (s : State) : Finished s (probeLocated off fl h s) := by
  constructor <;> first | constructor <;> rfl | intros; rfl | rfl

/-- A frame that ends with PCM words written, whatever else it writes to DecoderState and the result registers. -/
theorem finished_of_emit {s t : State} (nw : Bool) (ws : List Half) (hw : ws.length ≤ 2304) (hk : Kept (s.emitPcm nw ws) t)
    (hd : t.done = true) (hi : t.engine = .idle) (hp : t.brPos = s.brPos) (hb : t.brData = s.brData)
    (hm : t.mem = (s.emitPcm nw ws).mem) : Finished s t where
  toKept := by
    have : Kept s (s.emitPcm nw ws) := by cases nw <;> constructor <;> rfl
    exact this.trans hk
  done := hd
  idle := hi
  brPos := hp
  brData := hb
  mem a ha := by rw [hm]; exact emitPcm_outside_window nw ws hw s a ha

theorem finished_decodeLayer3 (nw : Bool) (off fl : Nat) (h : Word) (s : State) (hl : hdrLayer h = 3) :
    Finished s (decodeLayer3 nw off fl h s) := by
  have hz : (zeroPcm h).length ≤ 2304 := by
    rw [length_zeroPcm, hdrSamples_layer3 hl]; exact pcm_fits h
  rcases decodeLayer3_cases nw off fl h s with ⟨_, e⟩ | ⟨c, _, _, e⟩ | ⟨_, _, e⟩ | ⟨_, _, e⟩ <;> rw [e]
  · exact finished_frameUnsupported s
  · exact finished_of_emit nw _ hz (by constructor <;> rfl) rfl rfl (emitPcm_brPos s nw _) (emitPcm_brData s nw _) rfl
  · exact finished_of_emit nw _ hz (by constructor <;> rfl) rfl rfl (emitPcm_brPos s nw _) (emitPcm_brData s nw _) rfl
  · exact finished_of_emit nw _ (by rw [length_decodeMainData]; exact pcm_fits h) (by constructor <;> rfl) rfl rfl
      (emitPcm_brPos s nw _) (emitPcm_brData s nw _) rfl

theorem Finished.after {s t u : State} (h : Kept s t) (hp : t.brPos = s.brPos) (hb : t.brData = s.brData) (hm : t.mem = s.mem)
    (h' : Finished t u) : Finished s u where
  toKept := h.trans h'.toKept
  done := h'.done
  idle := h'.idle
  brPos := h'.brPos.trans hp
  brData := h'.brData.trans hb
  mem a ha := by rw [h'.mem a ha, hm]

theorem finished_decodeLocated (nw : Bool) (off fl : Nat) (h : Word) (s : State) : Finished s (decodeLocated nw off fl h s) := by
  rw [decodeLocated_eq]
  split
  · rename_i hl
    exact Finished.after (t := afterLocation off fl h s) (by constructor <;> rfl) rfl rfl rfl (finished_decodeLayer3 nw off fl h _ hl)
  · exact Finished.after (t := afterLocation off fl h s) (by constructor <;> rfl) rfl rfl rfl (finished_frameUnsupported _)

theorem finished_onLocated (mode : ScanMode) (off fl ff : Nat) (h : Word) (s : State) : Finished s (onLocated mode off fl ff h s) := by
  cases mode with
  | probe => exact finished_probeLocated off fl h s
  | decode nw =>
    exact Finished.after (t := { s with freeFormat := ff }) (by constructor <;> rfl) rfl rfl rfl (finished_decodeLocated nw off fl h _)

theorem finished_searchAndRun (mode : ScanMode) (s : State) : Finished s (searchAndRun mode s) := by
  unfold searchAndRun
  split
  · exact finished_onLocated _ _ _ _ _ s
  · exact finished_noFrame s

/-- DECODE and DECODE.nw end, and write no register that is not theirs (R34, R363). -/
theorem finished_decodeCommandRun (nw : Bool) (s : State) : Finished s (decodeCommandRun nw s) := by
  unfold decodeCommandRun
  split
  · constructor <;> first | constructor <;> rfl | intros; rfl | rfl
  · split
    · exact finished_decodeLocated nw _ _ _ s
    · exact Finished.after (t := s.stateReset) (by constructor <;> rfl) rfl rfl rfl (finished_searchAndRun _ _)

end Machine
end Sys2Proof
end

