-- ==== Sys2Proof/Laws/Host.lean ====
section
/-! SUPPORT. The host's side: what each host access can do, and when a host program keeps its duties. -/

namespace Sys2Proof.Machine

/-! ### One host access -/

/-- An offset that no register stands at reads 0 (R31). -/
theorem readReg_reserved (s : State) {off : Nat}
    (h : off ∉ [0x00, 0x04, 0x08, 0x0C, 0x10, 0x14, 0x18, 0x1C, 0x20, 0x24, 0x28, 0x2C, 0x30, 0x34, 0x38, 0x3C, 0x40, 0x44]) :
    s.readReg off = 0 := by
  simp only [List.mem_cons, List.not_mem_nil, or_false, not_or] at h
  unfold State.readReg
  split <;> first | rfl | simp_all

/-- The result registers, offset by offset (R440.2). -/
theorem isResultReg_iff {off : Nat} (h : off % 4 = 0) :
    isResultReg off = true ↔ off ∈ [0x14, 0x18, 0x1C, 0x20, 0x24, 0x28, 0x34] := by
  simp [isResultReg]
  omega

/-- A host read, with its refusals first: what it returns is a register, bytes of a buffer, 0, or a free value (R80, R91). -/
theorem hostRead_eq {w : Width} {off : Nat} (ha : off % w.bytes = 0) (hw : readable (regionOf off) w = true) (s : State) :
    hostRead w off s = .next (match regionOf off with
      | .reg => if s.busy && isResultReg off then s.returnOpen w else s.returnData (s.readReg off)
      | .inBuf => s.returnData (BitVec.ofNat 32 (s.mem.readLE off w.bytes))
      | .pcm => if s.busy then s.returnOpen w else s.returnData (BitVec.ofNat 32 (s.mem.readLE off w.bytes))
      | .unmapped => s.returnData 0) := by
  unfold hostRead
  exact (if_neg (by simp [ha])).trans ((if_neg (by simp [hw])).trans (by cases regionOf off <;> rfl))

/-- A host write that is aligned and of an accepted width: refused where it races, else a register write, a store to IN_BUF, or
nothing (R80, R91). -/
theorem hostWrite_eq {w : Width} {off : Nat} (ha : off % w.bytes = 0) (hw : writable (regionOf off) w = true) (v : Word) (s : State) :
    hostWrite w off v s = (match regionOf off with
      | .reg => if s.busy && isCommandInput off then .refused .hostRace else .next (s.writeReg off v)
      | .inBuf => if s.busy then .refused .hostRace else .next { s with mem := s.mem.write off (bytesLE w.bytes v) }
      | .pcm => .next s
      | .unmapped => .next s) := by
  unfold hostWrite
  exact (if_neg (by simp [ha])).trans ((if_neg (by simp [hw])).trans (by cases regionOf off <;> rfl))

/-- A register write changes no buffer, no signal state and nothing of the host's side; it starts the engine or leaves it (R34). -/
theorem writeReg_frame (off : Nat) (v : Word) (s : State) :
    (s.writeReg off v).bus = s.bus ∧ (s.writeReg off v).mem = s.mem
      ∧ ((s.writeReg off v).engine = s.engine ∨ (off = 0 ∧ (s.writeReg off v).engine = .command)) := by
  unfold State.writeReg
  split <;> try exact ⟨rfl, rfl, .inl rfl⟩
  unfold State.writeCmd
  split
  · exact ⟨rfl, rfl, .inl rfl⟩
  · exact ⟨rfl, rfl, .inr ⟨rfl, rfl⟩⟩

/-- An admitted host access answers a next state, keeps the accesses still to come, and starts a command only by a CMD write
(R34, R440). -/
theorem hostStep_admitted {op : HostOp} {s : State} (h : op.admitted s.busy = true) :
    ∃ t, hostStep op s = .next t ∧ t.bus = s.bus ∧ (op = .wait ∨ (t.busy = true → op.busyAfter s.busy = true)) := by
  cases op with
  | wait => exact ⟨s, rfl, rfl, .inl rfl⟩
  | read w off =>
    obtain ⟨ha, hw⟩ : off.toNat % w.bytes = 0 ∧ readable (regionOf off.toNat) w = true := by
      simpa [HostOp.admitted, HostOp.wellPlaced, HostOp.raceFree] using h
    refine ⟨_, hostRead_eq ha hw s, ?_, .inr ?_⟩
    · cases regionOf off.toNat <;> dsimp only <;> first | rfl | (split <;> rfl)
    · cases regionOf off.toNat <;> dsimp only <;> first | exact id | (split <;> exact id)
  | write w off v =>
    simp only [HostOp.admitted, HostOp.wellPlaced, HostOp.raceFree, Bool.and_eq_true, beq_iff_eq, Bool.or_eq_true,
      Bool.not_eq_true', Bool.or_eq_false_iff] at h
    obtain ⟨⟨ha, hw⟩, hr⟩ := h
    have hstart : s.busy = true → (HostOp.write w off v).busyAfter s.busy = true := fun hb => by simp [HostOp.busyAfter, hb]
    rw [hostStep, hostWrite_eq ha hw]
    cases hreg : regionOf off.toNat with
    | reg =>
      dsimp only
      rw [if_neg (by rcases hr with hr | hr <;> simp_all)]
      obtain ⟨hbus, -, heng⟩ := writeReg_frame off.toNat v s
      refine ⟨_, rfl, hbus, .inr fun hb => ?_⟩
      rcases heng with he | ⟨h0, -⟩
      · exact hstart (by simpa [State.busy, he] using hb)
      · simp [HostOp.busyAfter, BitVec.eq_of_toNat_eq (show off.toNat = (0 : BitVec 16).toNat from h0)]
    | inBuf =>
      dsimp only
      rw [if_neg (by rcases hr with hr | hr <;> simp_all)]
      exact ⟨_, rfl, rfl, .inr hstart⟩
    | pcm => exact ⟨s, rfl, rfl, .inr hstart⟩
    | unmapped => exact ⟨s, rfl, rfl, .inr hstart⟩

/-! ### One transition of the engine, and one step -/

/-- The engine is never stopped, and leaves the host's accesses alone (R373, R420). -/
theorem engineStep_next (s : State) : ∃ t, engineStep s = .next t ∧ t.bus = s.bus := by
  cases he : s.engine with
  | idle => exact ⟨s, engineStep_idle he, rfl⟩
  | command =>
    refine ⟨_, (engineStep_command he).trans (exec_command _ s (decodeCommand_space s.cmd)), ?_⟩
    split <;> first
      | rfl
      | exact (finished_decodeCommandRun _ s).bus
      | (split <;> first | rfl | exact (finished_searchAndRun _ s).bus)
  | scan mode pos =>
    refine ⟨_, engineStep_scan he, ?_⟩
    unfold scanHeader scanNext
    split
    · exact (finished_onLocated _ _ _ _ _ s).bus
    · split
      · rfl
      · exact (finished_noFrame s).bus

/-- A step answers a next state when the access it takes, if any, is admitted; what it leaves of the host's program (R8, R440). -/
theorem step_next {s : State} (h : ∀ op, s.nextAccess = some op → op.admitted s.busy = true) :
    ∃ t, step s = .next t
      ∧ (t.bus = s.bus ∧ (s.bus = [] ∨ s.busy = true)
        ∨ ∃ op rest, s.bus = op :: rest ∧ t.bus = rest ∧ (op = .wait → t.busy = false)
          ∧ (op ≠ .wait → t.busy = true → op.busyAfter s.busy = true)) := by
  unfold step
  unfold State.nextAccess at h
  split
  · rename_i hb
    obtain ⟨t, ht, htb⟩ := engineStep_next s
    exact ⟨t, ht, .inl ⟨htb, .inl hb⟩⟩
  · rename_i op rest hb
    simp only [hb] at h
    have host : ∀ d, op.admitted s.busy = true →
        (op = .wait → s.busy = false) →
        ∃ t, hostStep op { s with bus := rest, draws := d } = .next t ∧ (t.bus = rest ∧ (op = .wait → t.busy = false)
          ∧ (op ≠ .wait → t.busy = true → op.busyAfter s.busy = true)) := by
      intro d had hwait
      obtain ⟨t, ht, htb, hs⟩ := hostStep_admitted (s := { s with bus := rest, draws := d }) had
      refine ⟨t, ht, htb, ?_, fun hne => hs.resolve_left hne⟩
      rintro rfl
      simp only [hostStep, Host.Outcome.next.injEq] at ht
      subst ht
      exact hwait rfl
    split
    · rename_i hidle
      have hidle' : s.busy = false := by simpa using hidle
      rw [if_pos hidle] at h
      obtain ⟨t, ht, hr⟩ := host s.draws (h op rfl) (fun _ => hidle')
      exact ⟨t, ht, .inr ⟨op, rest, hb, hr⟩⟩
    · rename_i hbusy
      rw [if_neg hbusy] at h
      have hbusy' : s.busy = true := by simpa using hbusy
      split
      · obtain ⟨t, ht, htb⟩ := engineStep_next s
        exact ⟨t, ht, .inl ⟨htb, .inr hbusy'⟩⟩
      · rename_i hne
        split
        · obtain ⟨t, ht, htb⟩ := engineStep_next { s with draws := s.draws + 1 }
          exact ⟨t, ht, .inl ⟨htb, .inr hbusy'⟩⟩
        · rename_i hf
          rw [if_neg (by simp [hne, hf])] at h
          obtain ⟨t, ht, hr⟩ := host (s.draws + 1) (h op rfl) (fun e => absurd e hne)
          exact ⟨t, ht, .inr ⟨op, rest, hb, hr⟩⟩

/-- A run of one step more goes on from the state the first step answers. -/
theorem run_succ {s t : State} (h : step s = .next t) (k : Nat) : Sys2Proof.core.run (k + 1) s = Sys2Proof.core.run k t := by
  simp only [Host.Core.run]
  rw [show Sys2Proof.core.step s = .next t from h]

/-! ### Host programs that keep their duties -/

theorem HostOp.admitted_of_busy {op : HostOp} (b : Bool) (h : op.admitted true = true) : op.admitted b = true := by
  cases b <;> simp_all [HostOp.admitted]

theorem HostOp.busyAfter_mono (op : HostOp) (b : Bool) (h : op.busyAfter b = true) : op.busyAfter true = true := by
  cases op <;> simp_all [HostOp.busyAfter]

/-- What is safe whether or not a command runs is safe when none does. -/
theorem keepsDuties_of_busy {ops : List HostOp} (h : keepsDuties true ops = true) (b : Bool) : keepsDuties b ops = true := by
  induction ops generalizing b with
  | nil => rfl
  | cons op ops ih =>
    simp only [keepsDuties, Bool.and_eq_true] at h ⊢
    obtain ⟨ha, ht⟩ := h
    refine ⟨HostOp.admitted_of_busy b ha, ?_⟩
    cases hb : op.busyAfter true with
    | true => rw [hb] at ht; exact ih ht _
    | false =>
      have hc : op.busyAfter b = false := by
        cases hc : op.busyAfter b with
        | false => rfl
        | true => exact absurd (HostOp.busyAfter_mono op b hc) (by simp [hb])
      rw [hb] at ht; rwa [hc]

end Sys2Proof.Machine
end

