-- ==== Sys2Proof/Laws/PerInstr.lean ====
section
/-! SUPPORT. Statements made instruction by instruction. `RowMatch`: the word of a well-formed instruction has the fixed bits
of its row in `opcode_table.json`, and, for GETBITS and the reserved words, what the row says beside them. -/

namespace Sys2Proof.Laws.RowMatch

/-- Bits `[lo, lo + width)` of a word hold `value`: one entry of a row's "fixed" list. -/
def holds (w : Word) (lo width value : Nat) : Prop := w.extractLsb' lo width = BitVec.ofNat width value

/-- The instruction's word has the bits its row fixes. -/
def Statement : Instr → Prop
  | .reset => holds (encode (.reset)) 0 32 1
  | .decode => holds (encode (.decode)) 0 32 2
  | .decodeNw => holds (encode (.decodeNw)) 0 32 18
  | .probe => holds (encode (.probe)) 0 32 3
  | .getbits n => (Instr.getbits n).wf = true → holds (encode (.getbits n)) 0 5 4 ∧ holds (encode (.getbits n)) 11 21 0 ∧ ((encode (.getbits n)).extractLsb' 5 6).toNat ≤ 32
  | .illegal w => (Instr.illegal w).wf = true → isCommandRow (encode (.illegal w)) = false
  | .mpeg1L3 f => holds (encode (.mpeg1L3 f)) 17 15 32765
  | .mpeg2L3 f => holds (encode (.mpeg2L3 f)) 17 15 32761
  | .mpeg25L3 f => holds (encode (.mpeg25L3 f)) 17 15 32753
  | .mpeg1L1 f => holds (encode (.mpeg1L1 f)) 17 15 32767
  | .mpeg1L2 f => holds (encode (.mpeg1L2 f)) 17 15 32766
  | .mpeg2L1 f => holds (encode (.mpeg2L1 f)) 17 15 32763
  | .mpeg2L2 f => holds (encode (.mpeg2L2 f)) 17 15 32762
  | .invalidVersion01 r => holds (encode (.invalidVersion01 r)) 19 13 8189
  | .invalidLayer00Mpeg1 r => holds (encode (.invalidLayer00Mpeg1 r)) 17 15 32764
  | .invalidLayer00Mpeg2 r => holds (encode (.invalidLayer00Mpeg2 r)) 17 15 32760
  | .invalidLayer00Mpeg25 r => holds (encode (.invalidLayer00Mpeg25 r)) 17 15 32752
  | .invalidMpeg25L1 r => holds (encode (.invalidMpeg25L1 r)) 17 15 32755
  | .invalidMpeg25L2 r => holds (encode (.invalidMpeg25L2 r)) 17 15 32754
  | .invalidBitrate15 hi lo => holds (encode (.invalidBitrate15 hi lo)) 12 4 15 ∧ holds (encode (.invalidBitrate15 hi lo)) 21 11 2047
  | .invalidSr3 hi lo => holds (encode (.invalidSr3 hi lo)) 10 2 3 ∧ holds (encode (.invalidSr3 hi lo)) 21 11 2047

theorem reset : Statement .reset := by unfold Statement holds; decide
theorem decode : Statement .decode := by unfold Statement holds; decide
theorem decodeNw : Statement .decodeNw := by unfold Statement holds; decide
theorem probe : Statement .probe := by unfold Statement holds; decide
theorem getbits (n : BitVec 6) : Statement (.getbits n) := by
  intro h
  refine ⟨extract_append_lo ((0 : BitVec 21) ++ n) (4 : BitVec 5) 0 5 (by omega), ?_, ?_⟩
  · exact (extract_append_hi ((0 : BitVec 21) ++ n) (4 : BitVec 5) 6 21).trans (extract_append_hi (0 : BitVec 21) n 0 21)
  · have e : (encode (.getbits n)).extractLsb' 5 6 = n := by
      refine (extract_append_hi ((0 : BitVec 21) ++ n) (4 : BitVec 5) 0 6).trans ((extract_append_lo (0 : BitVec 21) n 0 6 (by omega)).trans ?_)
      simp
    rw [e]
    simpa [Instr.wf] using h
theorem illegal (w : Word) : Statement (.illegal w) := by
  intro h
  simpa [Instr.wf, encode] using h
theorem mpeg1L3 (f : HeaderFields) : Statement (.mpeg1L3 f) := extract_append_hi _ f.encode 0 15
theorem mpeg2L3 (f : HeaderFields) : Statement (.mpeg2L3 f) := extract_append_hi _ f.encode 0 15
theorem mpeg25L3 (f : HeaderFields) : Statement (.mpeg25L3 f) := extract_append_hi _ f.encode 0 15
theorem mpeg1L1 (f : HeaderFields) : Statement (.mpeg1L1 f) := extract_append_hi _ f.encode 0 15
theorem mpeg1L2 (f : HeaderFields) : Statement (.mpeg1L2 f) := extract_append_hi _ f.encode 0 15
theorem mpeg2L1 (f : HeaderFields) : Statement (.mpeg2L1 f) := extract_append_hi _ f.encode 0 15
theorem mpeg2L2 (f : HeaderFields) : Statement (.mpeg2L2 f) := extract_append_hi _ f.encode 0 15
theorem invalidVersion01 (r : BitVec 19) : Statement (.invalidVersion01 r) := extract_append_hi (0x1FFD : BitVec 13) r 0 13
theorem invalidLayer00Mpeg1 (r : BitVec 17) : Statement (.invalidLayer00Mpeg1 r) := extract_append_hi _ r 0 15
theorem invalidLayer00Mpeg2 (r : BitVec 17) : Statement (.invalidLayer00Mpeg2 r) := extract_append_hi _ r 0 15
theorem invalidLayer00Mpeg25 (r : BitVec 17) : Statement (.invalidLayer00Mpeg25 r) := extract_append_hi _ r 0 15
theorem invalidMpeg25L1 (r : BitVec 17) : Statement (.invalidMpeg25L1 r) := extract_append_hi _ r 0 15
theorem invalidMpeg25L2 (r : BitVec 17) : Statement (.invalidMpeg25L2 r) := extract_append_hi _ r 0 15
theorem invalidBitrate15 (hi : BitVec 5) (lo : BitVec 12) : Statement (.invalidBitrate15 hi lo) := by
  refine ⟨?_, ?_⟩
  · exact (extract_append_hi ((0x7FF : BitVec 11) ++ hi ++ (15 : BitVec 4)) lo 0 4).trans
      (extract_append_lo ((0x7FF : BitVec 11) ++ hi) (15 : BitVec 4) 0 4 (by omega))
  · exact (extract_append_hi ((0x7FF : BitVec 11) ++ hi ++ (15 : BitVec 4)) lo 9 11).trans
      ((extract_append_hi ((0x7FF : BitVec 11) ++ hi) (15 : BitVec 4) 5 11).trans (extract_append_hi (0x7FF : BitVec 11) hi 0 11))
theorem invalidSr3 (hi : BitVec 9) (lo : BitVec 10) : Statement (.invalidSr3 hi lo) := by
  refine ⟨?_, ?_⟩
  · exact (extract_append_hi ((0x7FF : BitVec 11) ++ hi ++ (3 : BitVec 2)) lo 0 2).trans
      (extract_append_lo ((0x7FF : BitVec 11) ++ hi) (3 : BitVec 2) 0 2 (by omega))
  · exact (extract_append_hi ((0x7FF : BitVec 11) ++ hi ++ (3 : BitVec 2)) lo 11 11).trans
      ((extract_append_hi ((0x7FF : BitVec 11) ++ hi) (3 : BitVec 2) 9 11).trans (extract_append_hi (0x7FF : BitVec 11) hi 0 11))

end Sys2Proof.Laws.RowMatch
end

