-- ==== Sys2Proof/Tests/Slice0.lean ====
section
/-! SUPPORT. The model's own tests: expected results are the spec's (`95_test_vectors.md`, its examples and tables), or worked
out by hand from its rules. Last, one witness for the hypotheses of every statement that has some. -/

namespace Sys2Proof.Tests
open Sys2Proof.Machine Sys2Proof.Claims

/-- The machine after reset with bytes at the start of IN_BUF and a slice of `len` bytes from there. -/
def buf (bytes : List Byte) (len : Nat) : State :=
  { State.reset with mem := Memory.cells inBase bytes, inLen := BitVec.ofNat 32 len }

/-- A field of the next state, if the outcome is one. -/
def field {α : Type} (f : State → α) : StepOutcome → Option α
  | .next t => some (f t)
  | _ => none

/-- The refusal of an outcome, if it is one. -/
def refusal : StepOutcome → Option Refusal
  | .refused r => some r
  | _ => none

/-- The header and the side information of the spec's frame `SIL` (104 bytes). -/
def sil : List Byte := [0xFF, 0xFB, 0x10, 0xC0] ++ List.replicate 17 0

/-- The machine within a search whose slice starts with the header word `h`. -/
def scanning (mode : ScanMode) (h : Word) (len : Nat) : State := { buf (headerBytes h) len with engine := .scan mode 0 }

/-! ### Well-formedness: an ill-formed term for each check -/

theorem test_wf_getbits_33 : (Instr.getbits 33).wf = false := by decide
theorem test_wf_illegal_decode : (Instr.illegal 0x00000012).wf = false := by decide
theorem test_wf_illegal_getbits : (Instr.illegal 0x00000404).wf = false := by decide
theorem test_wf_bitrate_15 : (Instr.mpeg1L3 ⟨1, 15, 0, 0, 0, 0, 0, 0, 0, 0⟩).wf = false := by decide
theorem test_wf_sr_3 : (Instr.mpeg2L2 ⟨1, 1, 3, 0, 0, 0, 0, 0, 0, 0⟩).wf = false := by decide
theorem test_wf_version01_bitrate_15 : (Instr.invalidVersion01 0x0F000).wf = false := by decide
theorem test_wf_layer00_sr_3 : (Instr.invalidLayer00Mpeg25 0x00C00).wf = false := by decide
theorem test_wf_mpeg25_layer1_bitrate_15 : (Instr.invalidMpeg25L1 0x0F000).wf = false := by decide
theorem test_wf_sr3_bitrate_15 : (Instr.invalidSr3 0x00F 0).wf = false := by decide

/-! ### Decoding: a word written out for every constructor (R100, R110, R118, `opcode_table.json`, V1, V2) -/

theorem test_decode_reset : decodeTableWord 32 0x00000001 = some .reset := by decide
theorem test_decode_decode : decodeTableWord 32 0x00000002 = some .decode := by decide
theorem test_decode_decode_nw : decodeTableWord 32 0x00000012 = some .decodeNw := by decide
theorem test_decode_probe : decodeTableWord 32 0x00000003 = some .probe := by decide
/-- `GETBITS 11`: N = 01011 in bits 10:5 (V1). -/
theorem test_decode_getbits : decodeTableWord 32 0x00000164 = some (.getbits 11) := by decide
/-- V1's reserved words. -/
theorem test_decode_illegal :
    decodeCommand 0x00000000 = .illegal 0x00000000
      ∧ decodeCommand 0x00000011 = .illegal 0x00000011
      ∧ decodeCommand 0x00000022 = .illegal 0x00000022
      ∧ decodeCommand 0x00000424 = .illegal 0x00000424
      ∧ decodeCommand 0x00000014 = .illegal 0x00000014
      ∧ decodeCommand 0x00000802 = .illegal 0x00000802
      ∧ decodeCommand 0x80000002 = .illegal 0x80000002
      ∧ decodeCommand 0x00000005 = .illegal 0x00000005
      ∧ decodeCommand 0x0000000F = .illegal 0x0000000F := by decide
/-- FF FB 92 64: no CRC, index 9, 44100 Hz, padded, joint stereo with MS. -/
theorem test_decode_mpeg1L3 : decodeTableWord 32 0xFFFB9264 = some (.mpeg1L3 ⟨1, 9, 0, 1, 0, 1, 2, 0, 1, 0⟩) := by decide
theorem test_decode_mpeg2L3 : decodeTableWord 32 0xFFF380C0 = some (.mpeg2L3 ⟨1, 8, 0, 0, 0, 3, 0, 0, 0, 0⟩) := by decide
theorem test_decode_mpeg25L3 : decodeTableWord 32 0xFFE318C0 = some (.mpeg25L3 ⟨1, 1, 2, 0, 0, 3, 0, 0, 0, 0⟩) := by decide
theorem test_decode_mpeg1L1 : decodeTableWord 32 0xFFFF10C0 = some (.mpeg1L1 ⟨1, 1, 0, 0, 0, 3, 0, 0, 0, 0⟩) := by decide
theorem test_decode_mpeg1L2 : decodeTableWord 32 0xFFFD10C0 = some (.mpeg1L2 ⟨1, 1, 0, 0, 0, 3, 0, 0, 0, 0⟩) := by decide
/-- H[8], H[3], H[2] and H[1:0] each in its own place. -/
theorem test_decode_mpeg2L1 : decodeTableWord 32 0xFFF6150E = some (.mpeg2L1 ⟨0, 1, 1, 0, 1, 0, 0, 1, 1, 2⟩) := by decide
theorem test_decode_mpeg2L2 : decodeTableWord 32 0xFFF5E8B0 = some (.mpeg2L2 ⟨1, 14, 2, 0, 0, 2, 3, 0, 0, 0⟩) := by decide
theorem test_decode_version01 : decodeTableWord 32 0xFFEB10C0 = some (.invalidVersion01 0x310C0) := by decide
theorem test_decode_layer00_mpeg1 : decodeTableWord 32 0xFFF910C0 = some (.invalidLayer00Mpeg1 0x110C0) := by decide
theorem test_decode_layer00_mpeg2 : decodeTableWord 32 0xFFF00000 = some (.invalidLayer00Mpeg2 0) := by decide
theorem test_decode_layer00_mpeg25 : decodeTableWord 32 0xFFE00000 = some (.invalidLayer00Mpeg25 0) := by decide
theorem test_decode_mpeg25_layer1 : decodeTableWord 32 0xFFE710C0 = some (.invalidMpeg25L1 0x110C0) := by decide
theorem test_decode_mpeg25_layer2 : decodeTableWord 32 0xFFE40000 = some (.invalidMpeg25L2 0) := by decide
/-- FF FB F0 C0: H[20:16] = 11011. -/
theorem test_decode_bitrate15 : decodeTableWord 32 0xFFFBF0C0 = some (.invalidBitrate15 0x1B 0x0C0) := by decide
/-- FF FB 1C C0: H[20:12] = 1 1011 0001. -/
theorem test_decode_sr3 : decodeTableWord 32 0xFFFB1CC0 = some (.invalidSr3 0x1B1 0x0C0) := by decide
/-- V2's last two rows: no sync, so no header at all. -/
theorem test_decode_no_sync : (decodeHeader 0xFF1B10C0).toOption = none ∧ (decodeHeader 0xFEFB10C0).toOption = none := by decide

/-! ### Headers (V2) -/

theorem test_header_lengths :
    [(0xFFFB10C0 : Word), 0xFFFB12C0, 0xFFFB9064, 0xFFFB9264, 0xFFFBE800, 0xFFF380C0, 0xFFE318C0, 0xFFFF10C0, 0xFFFD10C0].map
      (hdrFrameLen · 0) = [104, 105, 417, 418, 1440, 208, 72, 32, 104] := by decide
theorem test_header_info :
    [(0xFFFB10C0 : Word), 0xFFFB12C0, 0xFFFB9064, 0xFFFA10C0, 0xFFFBE800, 0xFFF380C0, 0xFFE318C0, 0xFFFF10C0, 0xFFFD10C0,
      0xFFFB00C0].map hdrInfo = [0x060D, 0x070D, 0x120E, 0x068D, 0x000E, 0x061D, 0x062D, 0x0605, 0x0609, 0x064D] := by decide
theorem test_header_compare :
    hdrCompare 0xFFFB10C0 0xFFFB9064 = true ∧ hdrCompare 0xFFFB10C0 0xFFFB14C0 = false ∧ hdrCompare 0xFFFB10C0 0xFFFB00C0 = false
      ∧ hdrCompare 0xFFFB10C0 0xFFFA10C0 = true := by decide

/-! ### Commands, one step each -/

/-- RESET: OK, and RES_* keep their values (V11.3). -/
theorem test_step_reset :
    let o := step ({ buf [] 0 with resHz := 44100, lastHeader := 0xFFFB10C0, reservoir := [1, 2] }.withFetchWord 32 1)
    field State.result o = some .ok ∧ field State.lastHeader o = some 0 ∧ field State.reservoir o = some [] ∧ field State.resHz o = some 44100 := by
  decide

/-- V3.1: the upper four bits of A5. -/
theorem test_step_getbits :
    let o := step ({ buf [0xA5, 0x0F, 0x3C, 0x00] 0 with brLimit := 16 }.withFetchWord 32 (4 + 32 * 4))
    field State.brData o = some 0xA ∧ field State.brPos o = some 4 := by decide +kernel
/-- V3.8: the comparison is made on the unwrapped sum, and BR_POS wraps. -/
theorem test_step_getbits_wraps :
    let o := step ({ buf [] 0 with brPos := 0xFFFFFFFF, brLimit := 131072 }.withFetchWord 32 (4 + 32 * 2))
    field State.brData o = some 0 ∧ field State.brPos o = some 1 := by decide +kernel

/-- V11.8: STATUS after a reserved word. -/
theorem test_step_illegal : field State.statusWord (step (State.reset.withFetchWord 32 0)) = some 0x00000052 := by decide

/-- V11.1's slice as one frame that is exactly consumed (V4.2): PROBE. -/
theorem test_step_probe :
    let o := step ((buf sil 104).withFetchWord 32 3)
    field State.result o = some .ok ∧ field State.resFrameBytes o = some 104 ∧ field State.resSamples o = some 1152
      ∧ field State.resInfo o = some 0x060D ∧ field State.lastHeader o = some 0 := by decide +kernel
/-- V4.3: a frame and three bytes is no genuine frame. -/
theorem test_step_probe_no_frame :
    let o := step ({ buf (sil ++ List.replicate 86 0) 107 with inLen := 107 }.withFetchWord 32 3)
    field State.result o = some .noFrame ∧ field State.resFrameBytes o = some 103 := by decide +kernel

/-- V7.1: DECODE of SIL. -/
theorem test_step_decode :
    let o := step ((buf sil 104).withFetchWord 32 2)
    field State.result o = some .ok ∧ field State.resSamples o = some 1152 ∧ field State.lastHeader o = some 0xFFFB10C0
      ∧ field (·.reservoir.length) o = some 83 := by decide +kernel
/-- V7.5: `main_data_begin` = 50 with an empty reservoir. -/
theorem test_step_decode_underflow :
    let o := step ((buf ([0xFF, 0xFB, 0x10, 0xC0, 0x19] ++ List.replicate 16 0) 104).withFetchWord 32 2)
    field State.result o = some .resUnderflow ∧ field State.resSamples o = some 0 ∧ field State.lastHeader o = some 0xFFFB10C0
      ∧ field (·.reservoir.length) o = some 83 := by decide +kernel
/-- V5.1 under DECODE.nw: CORRUPT, and PCM_BUF keeps its content. -/
theorem test_step_decode_nw :
    let o := step ((buf ([0xFF, 0xFB, 0x10, 0xC0, 0, 0, 0, 0x02, 0x42] ++ List.replicate 12 0) 104).withFetchWord 32 0x12)
    field State.result o = some .corrupt ∧ field State.resFrameBytes o = some 104 ∧ field State.lastHeader o = some 0
      ∧ field (Memory.find? ·.mem pcmBase) o = some none := by decide +kernel
/-- V7.7: a slice outside IN_BUF. -/
theorem test_step_decode_bad_args :
    field State.result (step ({ buf [] 8 with inOff := 16380 }.withFetchWord 32 2)) = some .badArgs := by decide +kernel

/-! ### Header rows, one step each -/

/-- V7.4's header at the end of a slice: UNSUPPORTED, 32 bytes consumed. -/
theorem test_step_mpeg1L1 :
    let o := step (scanning (.decode false) 0xFFFF10C0 32)
    field State.result o = some .unsupported ∧ field State.resFrameBytes o = some 32 ∧ field State.lastHeader o = some 0 := by
  decide +kernel
/-- V11.2: PROBE reports it as OK, with 384 samples. -/
theorem test_step_mpeg1L1_probe :
    let o := step (scanning .probe 0xFFFF10C0 32)
    field State.result o = some .ok ∧ field State.resSamples o = some 384 := by decide +kernel
theorem test_step_mpeg1L2 : field State.result (step (scanning (.decode true) 0xFFFD10C0 104)) = some .unsupported := by decide +kernel
theorem test_step_mpeg2L1 : field State.result (step (scanning (.decode true) 0xFFF610C0 68)) = some .unsupported := by decide +kernel
theorem test_step_mpeg2L2 : field State.result (step (scanning (.decode true) 0xFFF410C0 52)) = some .unsupported := by decide +kernel
/-- A header of each Layer III kind whose frame does not end with the slice: on to the next candidate. -/
theorem test_step_layer3_not_genuine :
    field State.engine (step (scanning (.decode false) 0xFFFB10C0 20)) = some (.scan (.decode false) 1)
      ∧ field State.engine (step (scanning (.decode false) 0xFFF380C0 20)) = some (.scan (.decode false) 1)
      ∧ field State.engine (step (scanning (.decode false) 0xFFE318C0 20)) = some (.scan (.decode false) 1) := by decide +kernel
/-- MPEG-2 and MPEG-2.5 Layer III frames that fill the slice are located, with V2's lengths. -/
theorem test_step_lsf_probe :
    field State.resFrameBytes (step (scanning .probe 0xFFF380C0 208)) = some 208
      ∧ field State.resFrameBytes (step (scanning .probe 0xFFE318C0 72)) = some 72 := by decide +kernel
/-- Every invalid row is passed over (R118). -/
theorem test_step_invalid_rows :
    field State.engine (step (scanning .probe 0xFFEB10C0 32)) = some (.scan .probe 1)
      ∧ field State.engine (step (scanning .probe 0xFFF910C0 32)) = some (.scan .probe 1)
      ∧ field State.engine (step (scanning .probe 0xFFF00000 32)) = some (.scan .probe 1)
      ∧ field State.engine (step (scanning .probe 0xFFE00000 32)) = some (.scan .probe 1)
      ∧ field State.engine (step (scanning .probe 0xFFE710C0 32)) = some (.scan .probe 1)
      ∧ field State.engine (step (scanning .probe 0xFFE40000 32)) = some (.scan .probe 1)
      ∧ field State.engine (step (scanning .probe 0xFFFBF0C0 32)) = some (.scan .probe 1)
      ∧ field State.engine (step (scanning .probe 0xFFFB1CC0 32)) = some (.scan .probe 1) := by decide +kernel
/-- With no candidate left the command ends NO_FRAME (R191). -/
theorem test_step_last_candidate :
    let o := step (State.reset.withFetchWord 32 0xFFE40000)
    field State.result o = some .noFrame ∧ field State.resFrameBytes o = some 1 := by decide +kernel
theorem test_header_outside_search : refusal (exec (.mpeg1L3 ⟨1, 1, 0, 0, 0, 3, 0, 0, 0, 0⟩) State.reset) = some .headerNotScanned := by decide

/-! ### Host accesses -/

/-- R84's example: 0xDDCCBBAA stores AA first. -/
theorem test_host_little_endian :
    let o := step { State.reset with bus := [.write .b4 0x1000 0xDDCCBBAA] }
    field (Memory.find? ·.mem 0x1000) o = some (some 0xAA) ∧ field (Memory.find? ·.mem 0x1003) o = some (some 0xDD) := by decide
/-- BR_LIMIT's clamp (V3). -/
theorem test_host_br_limit : field State.brLimit (step { State.reset with bus := [.write .b4 0x30 0xFFFFFFFF] }) = some 131072 := by decide
/-- V11.9: a CMD write while BUSY = 1 is dropped, whichever agent moves first. -/
theorem test_host_overrun : field (fun t => (t.overrun, t.cmd)) (hostStep (.write .b4 0 2) { State.reset with cmd := 1, engine := .command }) = some (true, 1) := by
  decide
/-- R80: a byte write of PCM_BUF is ignored, and R440.2: LAST_HDR reads as it stands while BUSY = 1. -/
theorem test_host_pcm_byte_write : field State.mem (step { State.reset with bus := [.write .b1 0x8001 7] }) = some [] := by decide
theorem test_host_busy_last_hdr :
    field State.busData (hostStep (.read .b4 0x38) { State.reset with lastHeader := 0xFFFB10C0, engine := .command }) = some 0xFFFB10C0 := by decide
theorem test_host_id : field State.busData (step { State.reset with bus := [.read .b4 0x44] }) = some 0x4D504144 := by decide

/-! ### Stages -/

/-- V10's table of PCM words: 1.0, -1.0, 0.5/32768, -0.5/32768, 1.5/32768, -1.5/32768, 2.0 and -2.0 in binary32. -/
theorem test_pcm_words :
    [(0x3F800000 : Word), 0xBF800000, 0x37800000, 0xB7800000, 0x38400000, 0xB8400000, 0x40000000, 0xC0000000].map (fun y => (pcmOf y).toInt)
      = [32767, -32768, 1, -1, 2, -2, 32767, -32768] := by decide
/-- The region boundaries listed after V6 (44100 Hz). -/
theorem test_regions :
    let g : GranuleInfo := { (default : GranuleInfo) with bigValues := 100 }
    [{ g with region0Count := 3, region1Count := 2 }, { g with region0Count := 15, region1Count := 7 },
      { g with windowSwitching := true, blockType := 2 }, { g with windowSwitching := true, blockType := 1 }].map
        (fun gi => (gi.region1Start 0, gi.region2Start 0)) = [(16, 30), (162, 200), (36, 200), (36, 200)] := by decide
/-- V7.9: 600 bytes with 313 bits consumed leave the last 511. -/
theorem test_reservoir_clip : (reservoirSave ((List.range 600).map (BitVec.ofNat 8)) (bytesConsumed 313)).length = 511 := by decide +kernel
/-- The main data of NZ (P4): 0x6E is the pair (-1, 0) of codebook 1, then the quadruple 1000 of table B with sign 0. -/
theorem test_huffman_nz :
    let gi : GranuleInfo := { (default : GranuleInfo) with part23Length := 8, bigValues := 1, tableSelect := [1, 0, 0], count1Table := true }
    let q := (huffmanBlock 0 gi 0 (mainReader [0x6E, 0] 0)).1
    (List.range 6).map (fun l => entry q l 0) = [-1, 0, 1, 0, 0, 0] := by decide +kernel

/-! ### Witnesses: for each statement with hypotheses, a state and operands that meet them all -/

theorem witness_CommandDecodeIsRule101 :
    (0x424 : Word) ≠ 1 ∧ (0x424 : Word) ≠ 2 ∧ (0x424 : Word) ≠ 0x12 ∧ (0x424 : Word) ≠ 3
      ∧ ∀ n : Nat, n ≤ 32 → (0x424 : Word) ≠ BitVec.ofNat 32 (4 + 32 * n) := by decide

theorem witness_DecodeInvertsEncode :
    (Instr.getbits 32).wf = true ∧ (Instr.illegal 0x424).wf = true ∧ (Instr.mpeg1L3 ⟨1, 14, 2, 1, 1, 3, 3, 1, 1, 3⟩).wf = true
      ∧ (Instr.invalidVersion01 0x7EBFF).wf = true ∧ (Instr.invalidBitrate15 31 0xFFF).wf = true ∧ (Instr.invalidSr3 0x1FE 0x3FF).wf = true := by
  decide

theorem witness_EncodeInvertsDecode : decodeHeader 0xFFF380C0 = .ok (.mpeg2L3 ⟨1, 8, 0, 0, 0, 3, 0, 0, 0, 0⟩) := by rfl

theorem witness_InvalidHeadersAreNeverLocated :
    InvalidHeader 0xFEFB10C0 ∧ InvalidHeader 0xFF1B10C0 ∧ InvalidHeader 0xFFEB10C0 ∧ InvalidHeader 0xFFF910C0 ∧ InvalidHeader 0xFFE710C0
      ∧ InvalidHeader 0xFFE510C0 ∧ InvalidHeader 0xFFFBF0C0 ∧ InvalidHeader 0xFFFB1CC0 := by
  refine ⟨?_, ?_, ?_, ?_, ?_, ?_, ?_, ?_⟩ <;> (unfold InvalidHeader; decide)

theorem witness_InvalidHeadersAreNeverLocated_fastPath : fastPath { buf sil 104 with lastHeader := 0xFFFB10C0 } = some 104 := by
  decide +kernel

theorem witness_ResInfoIsRule182 : hdrValid 0xFFFA10C0 = true ∧ hdrInfo 0xFFFA10C0 = 0x068D := by decide

/-- The shortest frame and the longest: 8 kbit/s at 24000 Hz, and Layer II at 384 kbit/s and 32000 Hz with its padding slot. -/
theorem witness_CbrFrameLengthsAreBounded :
    hdrValid 0xFFF314C0 = true ∧ hdrFree 0xFFF314C0 = false ∧ hdrFrameLen 0xFFF314C0 0 = 24
      ∧ hdrValid 0xFFFDEA00 = true ∧ hdrFree 0xFFFDEA00 = false ∧ hdrFrameLen 0xFFFDEA00 0 = 1729 := by decide

theorem witness_StepRunsTheDecodedInstruction :
    let s := State.reset.withCommand 3
    (fetchWord s = some (.command, 3) ∧ decodeIn .command 3 = some .probe ∧ s.bus = [])
      ∧ (fetchWord { s with bus := [.wait] } = some (.command, 3) ∧ ∃ rest, { s with bus := [.wait] }.bus = .wait :: rest)
      ∧ (fetchWord { s with bus := [.read .b4 4] } = some (.command, 3) ∧ HostOp.read .b4 4 ≠ .wait)
      ∧ (let u := scanning .probe 0xFE000000 5
         u.engine = .scan .probe 0 ∧ decodeHeader (u.slice.word 0) = .error .firstByte ∧ u.bus = [])
      ∧ State.reset.engine = .idle := by
  refine ⟨⟨rfl, by decide, rfl⟩, ⟨rfl, ⟨[], rfl⟩⟩, ⟨rfl, by decide⟩, ⟨rfl, rfl, rfl⟩, rfl⟩

theorem witness_StepKeepsInvariant : ∃ s t : State, StateInv s ∧ step s = .next t := by
  refine ⟨State.reset, State.reset, ⟨List.Pairwise.nil, ?_, by decide, by decide, by decide, by decide, .inl rfl, trivial⟩, rfl⟩
  intro c hc
  cases hc

/-- A host that sets a slice, decodes, waits, sets the next slice and reads PCM_BUF. -/
def dutiful : List HostOp :=
  [.write .b4 0x10 104, .write .b4 0 2, .read .b4 4, .wait, .write .b4 0x10 96, .write .b1 0x4FFF 0xFF, .write .b1 0x8000 0, .read .b2 0x91FE]

theorem witness_AdmittedRunsNeverStop :
    (∀ k u op, k < 1 → Sys2Proof.core.run k { State.reset with bus := dutiful } = .next u → u.nextAccess = some op → op.admitted u.busy = true)
      ∧ State.nextAccess { State.reset with bus := dutiful } = some (.write .b4 0x10 104)
      ∧ keepsDuties State.reset.busy dutiful = true := by
  refine ⟨fun k u op hk hu ho => ?_, rfl, by decide⟩
  obtain rfl : k = 0 := by omega
  obtain rfl : { State.reset with bus := dutiful } = u := Host.Outcome.next.inj hu
  obtain rfl : HostOp.write .b4 0x10 104 = op := Option.some.inj ho
  decide

/-- A racing write right after a CMD write keeps no duty, and a WAIT between makes it one. -/
theorem test_keeps_duties :
    keepsDuties false [.write .b4 0 2, .write .b4 0x0C 0] = false ∧ keepsDuties false [.write .b4 0 2, .wait, .write .b4 0x0C 0] = true := by
  decide

theorem witness_EveryCommandCompletes :
    Instr.space .reset = .command ∧ Instr.space .decode = .command ∧ Instr.space .decodeNw = .command ∧ Instr.space .probe = .command
      ∧ Instr.space (.getbits 63) = .command ∧ Instr.space (.illegal 0) = .command := by decide

/-- A read that ends exactly at the limit, and one that ends one bit past it. -/
theorem witness_GetbitsReadsMsbFirst :
    let s := { State.reset with brPos := 131040, brLimit := 131072 }
    (BitVec.toNat (32 : BitVec 6) ≤ 32 ∧ s.brLimit.toNat ≤ 8 * Config.inBufSize ∧ s.brPos.toNat + 32 ≤ s.brLimit.toNat)
      ∧ { s with brPos := 131041 }.brPos.toNat + 32 > s.brLimit.toNat := by decide

/-- A slice one byte too long, the largest slice, a frame found and none. -/
theorem witness_ProbeOutcome :
    let s := { buf sil 16280 with inOff := 104 }
    s.inOff.toNat + s.inLen.toNat ≤ 16384 ∧ { s with inLen := 16281 }.inOff.toNat + 16281 > 16384 ∧ findFrame (buf sil 104).slice = some (0, 104, 0) ∧ findFrame (buf sil 4).slice = none := by
  decide +kernel

/-- A slice that is too long, the fast path, a frame found by a search, and none. -/
theorem witness_DecodeOutcomeTable :
    let s := { buf sil 104 with lastHeader := 0xFFFB10C0 }
    { s with inOff := 16281 }.inOff.toNat + s.inLen.toNat > 16384 ∧ s.inOff.toNat + s.inLen.toNat ≤ 16384 ∧ fastPath s = some 104 ∧ fastPath (buf sil 104) = none
      ∧ findFrame (buf sil 104).slice = some (0, 104, 0) ∧ findFrame (buf sil 4).slice = none := by decide +kernel

theorem witness_DecodeNwDiffersOnlyInPcm : ∃ t, exec .decode (buf sil 104) = .next t := ⟨_, rfl⟩

theorem witness_CommandsReadOnlyTheSlice :
    let s := buf sil 2
    let m := s.mem.write 0x8000 [1, 2]
    m ≠ s.mem ∧ ∀ p, p < s.inLen.toNat → m.read (inBase + s.inOff.toNat + p) = s.mem.read (inBase + s.inOff.toNat + p) := by decide

theorem witness_ResyncForgetsThePast :
    let s := { buf sil 104 with lastHeader := 0xFFFB14C0, freeFormat := 7, reservoir := [1] }
    s.argsOk = true ∧ fastPath s = none ∧ fastPath { s with lastHeader := 0, freeFormat := 9, reservoir := [] } = none := by decide +kernel

/-- Side information all of whose granules code nothing. -/
theorem emptyGranules_of_all {si : SideInfo}
    (h : ∀ row ∈ si.granules, ∀ gi ∈ row, gi.part23Length = 0 ∧ gi.bigValues = 0) : EmptyGranules si := by
  intro gr ch
  unfold SideInfo.at
  rw [List.getD_eq_getElem?_getD, List.getD_eq_getElem?_getD]
  cases hr : si.granules[gr]? with
  | none => exact ⟨rfl, rfl⟩
  | some row =>
    cases hg : row[ch]? with
    | none => simp only [Option.getD_some, hg]; exact ⟨rfl, rfl⟩
    | some gi =>
      simp only [Option.getD_some, hg]
      exact h row (List.mem_of_getElem? hr) gi (List.mem_of_getElem? hg)

/-- SIL with two channels: the same frame in stereo mode, whose side information has 32 bytes. -/
def silStereo : List Byte := [0xFF, 0xFB, 0x10, 0x00] ++ List.replicate 32 0

/-- What a search locates in a slice with nothing before it. -/
theorem located_of_search {s : State} {off fl ff : Nat} (hp : fastPath s = none) (hf : findFrame s.slice = some (off, fl, ff)) :
    located s = some (off, fl, { s.stateReset with freeFormat := ff }) := by
  unfold located
  rw [hp]
  simp only
  rw [hf]

/-- A mono and a two-channel frame with no granule that codes anything. -/
theorem witness_SilenceDecodesToSilence :
    ∀ s ∈ [buf sil 104, buf silStereo 104], ∃ s1 : State,
      let h := s.slice.word 0
      s.argsOk = true ∧ located s = some (0, 104, s1) ∧ hdrLayer h = 3 ∧ s1.chan0 = .zero ∧ s1.chan1 = .zero
        ∧ sideCheck h (sideInfoAt s1 0 104 h).1 (sideInfoAt s1 0 104 h).2 = none
        ∧ (sideInfoAt s1 0 104 h).1.mainDataBegin ≤ s1.reservoir.length ∧ EmptyGranules (sideInfoAt s1 0 104 h).1 := by
  intro s hs
  simp only [List.mem_cons, List.not_mem_nil, or_false] at hs
  rcases hs with rfl | rfl
  · refine ⟨_, by decide +kernel, located_of_search (ff := 0) (by decide +kernel) (by decide +kernel), by decide +kernel, rfl, rfl,
      by decide +kernel, by decide +kernel, emptyGranules_of_all (by decide +kernel)⟩
  · refine ⟨_, by decide +kernel, located_of_search (ff := 0) (by decide +kernel) (by decide +kernel), by decide +kernel, rfl, rfl,
      by decide +kernel, by decide +kernel, emptyGranules_of_all (by decide +kernel)⟩

theorem witness_LayerOneTwoHeadersAreUnsupported :
    let i := Instr.mpeg1L1 ⟨1, 1, 0, 0, 0, 3, 0, 0, 0, 0⟩
    let s := scanning (.decode false) (encode i) 32
    i.wf = true ∧ isLayer12Kind i = true ∧ s.engine = .scan (.decode false) 0 ∧ FrameAt s.slice 0 (encode i) 32 0 := by
  unfold FrameAt
  decide +kernel

theorem witness_LayerThreeHeadersAreDecoded :
    let i := Instr.mpeg1L3 ⟨1, 1, 0, 0, 0, 3, 0, 0, 0, 0⟩
    let s := scanning (.decode true) (encode i) 104
    i.wf = true ∧ isLayer3Kind i = true ∧ s.engine = .scan (.decode true) 0 ∧ FrameAt s.slice 0 (encode i) 104 0 := by
  unfold FrameAt
  decide +kernel

theorem witness_ProbedHeadersAreReported :
    let i := Instr.mpeg25L3 ⟨1, 1, 2, 0, 0, 3, 0, 0, 0, 0⟩
    let s := scanning .probe (encode i) 72
    i.wf = true ∧ isValidKind i = true ∧ s.engine = .scan .probe 0 ∧ FrameAt s.slice 0 (encode i) 72 0 := by
  unfold FrameAt
  decide +kernel

/-- An invalid row with another candidate left, and one at the last candidate. -/
theorem witness_OtherHeadersArePassedOver :
    let i := Instr.invalidMpeg25L2 0
    i.wf = true ∧ isInvalidKind i = true ∧ (scanning .probe (encode i) 6).engine = .scan .probe 0
      ∧ 0 + 5 < (scanning .probe (encode i) 6).inLen.toNat ∧ (scanning .probe (encode i) 5).inLen.toNat ≤ 0 + 5 := by decide

/-- A valid row whose frame is cut off by the end of the slice. -/
theorem witness_OtherHeadersArePassedOver_valid :
    let i := Instr.mpeg1L3 ⟨1, 1, 0, 0, 0, 3, 0, 0, 0, 0⟩
    i.wf = true ∧ isValidKind i = true ∧ ∀ fl ff, ¬FrameAt (scanning .probe (encode i) 20).slice 0 (encode i) fl ff := by
  refine ⟨by decide, by decide, ?_⟩
  rintro fl ff ⟨_, h2, _, h4⟩
  have h5 : fl = 104 ∧ ff = 0 := by
    rw [if_neg (by decide)] at h2
    exact ⟨h2.1.trans (by decide), h2.2⟩
  obtain ⟨rfl, rfl⟩ := h5
  revert h4
  decide +kernel

theorem witness_HeadersOutsideASearchAreRefused :
    Instr.space (.mpeg2L1 default) = .header ∧ ∀ mode pos, State.reset.engine ≠ .scan mode pos :=
  ⟨rfl, fun _ _ h => nomatch h⟩

theorem witness_SearchByStepsIsTheCommand :
    (buf sil 5).bus = [] ∧ (buf sil 5).argsOk = true ∧ 4 < (buf sil 5).inLen.toNat ∧ fastPath (buf sil 5) = none := by decide +kernel

/-- Eleven headers of 24-byte frames. -/
def elevenHeaders : Slice :=
  ⟨Memory.cells inBase ((List.range 11).flatMap fun _ => [0xFF, 0xF3, 0x14, 0xC0] ++ List.replicate 20 0), 0, 264⟩

/-- A frame cut off, one that ends the slice, one with a following header only, and ten matches. -/
theorem witness_GenuineWalkCorners :
    let S := elevenHeaders
    let h := S.word 0
    (S.len < 250 + 24 ∧ 240 + 24 = S.len)
      ∧ ((216 + 24 + 4 ≤ S.len ∧ hdrCompare h (S.word (216 + 24)) = true) ∧ S.len < 216 + 24 + hdrFrameLen (S.word (216 + 24)) 0 + 4)
      ∧ ((fun k => 24 * (k + 1)) 0 = 0 + 24 ∧ ∀ k, k < 10 → 24 * (k + 1) + 4 ≤ S.len ∧ hdrCompare h (S.word (24 * (k + 1))) = true
          ∧ 24 * (k + 1 + 1) = 24 * (k + 1) + hdrFrameLen (S.word (24 * (k + 1))) 0) := by decide +kernel

/-- A reader over two bytes. -/
def reader : BitReader := ⟨[0xA5, 0x0F], 4, 16, 0⟩

theorem witness_GetBitsIsRule161 :
    reader.pos + 12 ≤ reader.limit ∧ reader.limit < reader.pos + 13 ∧ (reader.getBits 12).1 = 0x50F ∧ (reader.getBits 13).1 = 0 := by decide

theorem witness_RegionsPartitionTheBigValues :
    let gi : GranuleInfo := { (default : GranuleInfo) with windowSwitching := true, blockType := 2, bigValues := 288 }
    gi.windowSwitching = true ∧ gi.bigValues ≤ 288 ∧ gi.regionLen 0 0 = 36 ∧ gi.regionLen 0 1 = 540 := by decide

theorem witness_ShortLinesMapBack : (8 < 9 ∧ 2 < 3 ∧ 191 < 192) ∧ lineAt 8 2 191 = 575 ∧ lineAt 0 1 5 = 17 := by decide +kernel

theorem witness_ScfsiKeepsScalefactors :
    let gi : GranuleInfo := { (default : GranuleInfo) with scalefacCompress := 15 }
    let si : SideInfo := { mainDataBegin := 0, scfsi := [[false, false, false, true]], granules := [[gi], [gi]] }
    20 < 21 ∧ (si.at 0 0).kind = .long ∧ (si.at 1 0).kind = .long ∧ (si.scfsi.getD 0 []).getD (scfsiGroup 20) false = true := by decide

theorem witness_GivenCodewordsDecode :
    let r : BitReader := ⟨[0xF0], 0, 8, 0⟩
    (∀ k, k < (code [1]).length → r.pos + k < 8 * r.buf.length ∧ bitOf r.buf (r.pos + k) = (code [1]).getD k false)
      ∧ (∀ k, k < (code [1, 1, 1, 1]).length → r.pos + k < 8 * r.buf.length ∧ bitOf r.buf (r.pos + k) = (code [1, 1, 1, 1]).getD k false)
      ∧ (2, (0, 0), [1]) ∈ codebookRows ∧ (0, [1]) ∈ tableARows ∧ (0, [1, 1, 1, 1]) ∈ tableBRows := by decide

theorem witness_HuffmanBlockEndsAtItsLength :
    let gi : GranuleInfo := default
    gi.bigValues = 0 ∧ gi.part23Length = 0 ∧ 4 ≤ reader.pos := by decide

theorem witness_RequantisationExamples :
    let gi : GranuleInfo := default
    let sf : Scalefactors := { Scalefactors.zero with long := [0, 2] }
    gi.scalefacScale = false ∧ { gi with globalGain := 210 }.globalGain = 210 ∧ { gi with globalGain := 214 }.globalGain = 214
      ∧ sf.long.getD 0 0 = 0 ∧ sf.long.getD 1 0 = 2 := by decide

theorem witness_PlainStereoIsUntouched :
    (hdrMode 0xFFFB9080 ≠ 1 ∨ (0xFFFB9080 : Word).extractLsb' 4 2 = 0) ∧ (hdrMode 0xFFFB9040 ≠ 1 ∨ (0xFFFB9040 : Word).extractLsb' 4 2 = 0) := by
  decide

theorem witness_LongIntensityBandsLieAboveTheSpectrum :
    (stereoCtx 0xFFFB9054 default 0 (Vector.replicate 576 0) default).kind = .long := by decide

theorem witness_IntensityCoefficientValues : 0 ≤ 6 ∧ 6 ≤ 6 := by decide

/-- The last pair of the last boundary, and the two lines of a subband that no pair touches. -/
theorem witness_AntialiasButterflies :
    (1 ≤ 31 ∧ 31 ≤ antialiasLast .long ∧ 7 < 8) ∧ (1 ≤ 1 ∧ 1 ≤ antialiasLast .mixed ∧ 0 < 8)
      ∧ (26 < 576 ∧ ∀ sb, sb < 32 → ∀ i, i < 8 → 26 ≠ 18 * sb - 1 - i ∧ 26 ≠ 18 * sb + i) := by decide

theorem witness_ImdctIsRule305 : (36 = 36 ∨ 36 = 12) ∧ 35 < 36 ∧ (12 = 36 ∨ 12 = 12) ∧ 11 < 12 := by decide

theorem witness_WindowTailsAreZero :
    let start : GranuleInfo := { (default : GranuleInfo) with windowSwitching := true, blockType := 1 }
    let short : GranuleInfo := { (default : GranuleInfo) with windowSwitching := true, blockType := 2 }
    let mixed : GranuleInfo := { short with mixedBlock := true }
    31 < 32 ∧ 12 ≤ 12 ∧ 17 < 18 ∧ (start.kind = .long ∧ start.blockType = 1) ∧ short.kind = .short ∧ mixed.kind = .mixed ∧ 2 ≤ 2 := by decide

theorem witness_MatrixedVectorSymmetry : 32 ≤ 32 ∧ 33 ≤ 33 ∧ 63 ≤ 63 := by decide

theorem witness_MonoFramesLeaveChannelOneAlone : hdrChannels 0xFFFB10C0 = 1 := by decide

theorem witness_PcmConversionIsRule335 : ∃ x, wordValue 0xBF800000 = some x :=
  ⟨_, by rw [wordValue, show binary32Value 0xBF800000 = some (-8388608, -23) from by decide]; rfl⟩

theorem witness_CmdWriteIsAcceptedOrDropped : (State.reset.withCommand 3).busy = true ∧ State.reset.busy = false := by decide

theorem witness_StatusBitsAndInterrupt : ∀ p ∈ resultCodes, { State.reset with result := p.1 }.result = p.1 := by decide

/-- Each clause at an offset of its own. -/
theorem witness_RegisterWritesFollowTheMap :
    State.reset.busy = false ∧ ∀ k : Fin 64, BitVec.toNat (BitVec.ofNat 16 (4 * k.val)) < 0x100 ∧ BitVec.toNat (BitVec.ofNat 16 (4 * k.val)) % 4 = 0 := by
  decide

theorem witness_InBufStoreIsLittleEndian :
    State.reset.busy = false ∧ regionOf (BitVec.toNat (0x1000 : BitVec 16)) = .inBuf ∧ regionOf (BitVec.toNat (0x4FFC : BitVec 16)) = .inBuf
      ∧ BitVec.toNat (0x4FFC : BitVec 16) % Width.b4.bytes = 0 ∧ regionOf (BitVec.toNat (0x4FFF : BitVec 16)) = .inBuf := by decide

/-- Every register offset, the last word of each buffer and an unmapped byte with BUSY = 0; and with BUSY = 1 a register that
stays readable and one that does not. -/
theorem witness_HostReadsHaveNoSideEffect :
    let s := State.reset.withCommand 3
    (∀ k : Fin 64, ∃ t, hostStep (.read .b4 (BitVec.ofNat 16 (4 * k.val))) State.reset = .next t)
      ∧ ((registerMap State.reset).map Prod.fst = (List.range 18).map (4 * ·) ∧ regionOf (BitVec.toNat (0xFC : BitVec 16)) = .reg)
      ∧ (∃ t, hostStep (.read .b2 0x91FE) State.reset = .next t) ∧ (∃ t, hostStep (.read .b1 0x4FFF) State.reset = .next t)
      ∧ (∃ t, hostStep (.read .b1 0xFFFF) State.reset = .next t)
      ∧ (State.reset.busy = false ∧ s.busy = true ∧ ¬OpenWhileBusy (BitVec.toNat (0x38 : BitVec 16)) ∧ OpenWhileBusy (BitVec.toNat (0x34 : BitVec 16)))
      ∧ (∃ t, hostStep (.read .b4 0x38) s = .next t) ∧ ∃ t, hostStep (.read .b4 0x34) s = .next t :=
  ⟨fun k => ⟨_, hostRead_eq (by revert k; decide) (by revert k; decide) _⟩, ⟨rfl, rfl⟩, ⟨_, rfl⟩, ⟨_, rfl⟩, ⟨_, rfl⟩,
    ⟨rfl, rfl, by unfold OpenWhileBusy; decide, by unfold OpenWhileBusy; decide⟩, ⟨_, rfl⟩, ⟨_, rfl⟩⟩

theorem witness_UnmappedAndPcmWritesAreIgnored :
    (BitVec.toNat (0x0100 : BitVec 16) % Width.b4.bytes = 0 ∧ regionOf (BitVec.toNat (0x0100 : BitVec 16)) = .unmapped)
      ∧ (BitVec.toNat (0x9200 : BitVec 16) % Width.b2.bytes = 0 ∧ regionOf (BitVec.toNat (0x9200 : BitVec 16)) = .unmapped)
      ∧ (BitVec.toNat (0x91FF : BitVec 16) % Width.b1.bytes = 0 ∧ regionOf (BitVec.toNat (0x91FF : BitVec 16)) = .pcm) := by decide

theorem witness_PcmWordLayout :
    [(0 : Word), 0].length = [(0 : Word), 0x3F800000].length ∧ 1 < [(0 : Word), 0].length
      ∧ interleave [0, 0] [0, 0x3F800000] = [0, 0, 0, 32767] := by decide

/-- The last sample of a two-channel MPEG-1 frame's granule 1, the last of a mono MPEG-2 frame, and the last of a granule. -/
theorem witness_PcmWordLayout_frame :
    (1 < hdrGranules 0xFFFB1000 ∧ 575 < 576 ∧ 1 < hdrChannels 0xFFFB1000) ∧ (0 < hdrGranules 0xFFF380C0 ∧ 0 < hdrChannels 0xFFF380C0)
      ∧ 17 < 18 ∧ 31 < 32 := by decide

/-- Each clause: too few bits for the side information; a corrupt granule that is also unsupported, a merely unsupported one after a
good one, main data that does not fit, and all checks passed. -/
theorem witness_FirstFailingCheckGivesTheCode :
    let good : GranuleInfo := default
    let mixed : GranuleInfo := { good with windowSwitching := true, blockType := 2, mixedBlock := true }
    let both : GranuleInfo := { mixed with bigValues := 289 }
    let long : GranuleInfo := { good with part23Length := 9 }
    let fr : BitReader := ⟨[0], 0, 8, 0⟩
    let of := fun gs => ({ mainDataBegin := 0, scfsi := [], granules := [gs] } : SideInfo)
    ({ fr with pos := 9 }.limit < 9 ∧ fr.pos ≤ fr.limit ∧ hdrSfreq 0xFFE318C0 = 8)
      ∧ ((of [both]).granules.flatten = [] ++ both :: [] ∧ GranuleCorrupt 8 both ∧ GranuleUnsupported 8 both)
      ∧ ((of [good, mixed]).granules.flatten = [good] ++ mixed :: [] ∧ ¬(GranuleCorrupt 8 good ∨ GranuleUnsupported 8 good)
          ∧ ¬GranuleCorrupt 8 mixed ∧ GranuleUnsupported 8 mixed)
      ∧ ¬(GranuleCorrupt 8 long ∨ GranuleUnsupported 8 long)
      ∧ (((of [long]).granules.flatten.map (·.part23Length)).sum > fr.limit - fr.pos + 8 * (of [long]).mainDataBegin)
      ∧ ((of [good]).granules.flatten.map (·.part23Length)).sum ≤ fr.limit - fr.pos + 8 * (of [good]).mainDataBegin := by
  unfold GranuleCorrupt GranuleUnsupported
  decide

end Sys2Proof.Tests
end

section
/-! Proofs about the state: the invariant and what keeps it, one step of the two agents, the search taken header by
header, and host writes of registers (`10_state.md`). -/

namespace Sys2Proof.Machine

/-! ### Which agent a step lets move (R8, R447) -/

/-- A pending command word or search means BUSY = 1 (R32). -/
theorem busy_of_fetchWord {s : State} {p : Space × Word} (h : fetchWord s = some p) : s.busy = true := by
  cases he : s.engine <;> simp_all [fetchWord, State.busy]

theorem engine_idle_of_not_busy {s : State} (h : s.busy = false) : s.engine = .idle := by
  simpa [State.busy] using h

/-- With no host access left the engine moves. -/
theorem step_bus_nil {s : State} (hb : s.bus = []) : step s = engineStep s := by
  simp [step, hb]

/-- A WAIT leaves a running command to the engine (R103). -/
theorem step_wait {s : State} {rest : List HostOp} (hb : s.bus = .wait :: rest) (hbusy : s.busy = true) : step s = engineStep s := by
  simp [step, hb, hbusy]

/-- While BUSY = 0 the host moves. -/
theorem step_host {s : State} {op : HostOp} {rest : List HostOp} (hb : s.bus = op :: rest) (hbusy : s.busy = false) :
    step s = hostStep op { s with bus := rest } := by
  simp [step, hb, hbusy]

/-- While BUSY = 1 a free value decides between the engine and a host access (R447, log entry 3). -/
theorem step_contended {s : State} {op : HostOp} {rest : List HostOp} (hb : s.bus = op :: rest) (hbusy : s.busy = true)
    (hop : op ≠ .wait) :
    step s = if Config.engineFirst s.draws then engineStep { s with draws := s.draws + 1 }
      else hostStep op { s with bus := rest, draws := s.draws + 1 } := by
  simp [step, hb, hbusy, hop]

/-- A step is a transition of the engine or the next host access, up to the count of free values. -/
theorem step_cases (s : State) :
    (∃ d, step s = engineStep { s with draws := d })
      ∨ ∃ op rest d, step s = hostStep op { s with bus := rest, draws := d } := by
  obtain hb | ⟨op, rest, hb⟩ : s.bus = [] ∨ ∃ op rest, s.bus = op :: rest := by cases s.bus <;> simp
  · exact .inl ⟨s.draws, step_bus_nil hb⟩
  · cases hbusy : s.busy with
    | false => exact .inr ⟨op, rest, s.draws, step_host hb hbusy⟩
    | true =>
      by_cases hop : op = .wait
      · exact .inl ⟨s.draws, step_wait (hop ▸ hb) hbusy⟩
      · rw [step_contended hb hbusy hop]
        split
        · exact .inl ⟨s.draws + 1, rfl⟩
        · exact .inr ⟨op, rest, s.draws + 1, rfl⟩

/-- The engine runs the instruction its word decodes to (R33). -/
theorem engineStep_decoded {s : State} {sp : Space} {w : Word} {i : Instr} (hf : fetchWord s = some (sp, w))
    (hd : decodeIn sp w = some i) : engineStep s = exec i s := by
  simp [engineStep, hf, hd]

/-! ### What one host access does (R80, R91) -/

/-- A host read changes only the returned data and the count of free values. -/
theorem hostRead_next {w : Width} {off : Nat} {s t : State} (h : hostRead w off s = .next t) :
    ∃ v d, t = { s with busData := v, draws := d } := by
  unfold hostRead at h
  split at h
  · cases h
  split at h
  · cases h
  split at h <;> cases h
  · split <;> exact ⟨_, _, rfl⟩
  · exact ⟨_, _, rfl⟩
  · split <;> exact ⟨_, _, rfl⟩
  · exact ⟨_, _, rfl⟩

/-- A host write that is answered writes a register it does not race for, or stores to IN_BUF, or does nothing. -/
theorem hostWrite_next {w : Width} {off : Nat} {v : Word} {s t : State} (h : hostWrite w off v s = .next t) :
    ((s.busy && isCommandInput off) = false ∧ t = s.writeReg off v)
      ∨ (off % w.bytes = 0 ∧ regionOf off = .inBuf ∧ t = { s with mem := s.mem.write off (bytesLE w.bytes v) })
      ∨ t = s := by
  unfold hostWrite at h
  split at h
  · cases h
  rename_i haligned
  split at h
  · cases h
  split at h
  · split at h <;> cases h
    rename_i hrace
    exact .inl ⟨by simpa using hrace, rfl⟩
  · split at h <;> cases h
    exact .inr (.inl ⟨by simpa using haligned, ‹_›, rfl⟩)
  · cases h
    exact .inr (.inr rfl)
  · cases h
    exact .inr (.inr rfl)

/-! ### Frame lengths (R184, R186) -/

/-- R184's length of a Layer III frame, from its version, bitrate index and sample-rate index. -/
theorem cbrBytes_layer3_table : ∀ v < 3, ∀ i < 15, ∀ r < 3,
    (if v = 0 then 144000 else 72000) * (bitrateRow v 3).getD i 0 / rateTable.getD (3 * v + r) 0 ≤ 1440 := by
  decide

theorem hdrCbrBytes_layer3_le {h : Word} (hv : hdrValid h = true) (hl : hdrLayer h = 3) : hdrCbrBytes h ≤ 1440 := by
  obtain ⟨-, hb, hs, -, -⟩ := hdrValid_fields hv
  have hlen : hdrCbrBytes h = (if hdrVersion h = 0 then 144000 else 72000) * hdrKbps h / hdrHz h := by
    by_cases h0 : hdrVersion h = 0 <;> simp [hdrCbrBytes, hl, h0]
  rw [hlen, hdrKbps, hl]
  exact cbrBytes_layer3_table _ (Nat.lt_succ_of_le (hdrVersion_le h)) _ hb _ hs

/-- No Layer III frame is longer than `P_MAX_FF`. -/
theorem hdrFrameLen_layer3_le {h : Word} {ff : Nat} (hv : hdrValid h = true) (hl : hdrLayer h = 3) (hff : ff < 2304) :
    hdrFrameLen h ff ≤ 2304 := by
  have hcbr := hdrCbrBytes_layer3_le hv hl
  have hpad : hdrPad h ≤ 1 := by simp only [hdrPad, hl]; split <;> simp
  simp only [hdrFrameLen, hdrFrameBytes]
  split <;> split <;> omega

/-- What the search says of a Layer III frame's length. -/
theorem candidate_layer3_le {S : Slice} {i : Nat} {h : Word} {fl ff : Nat} (hc : candidate S i h = some (fl, ff))
    (hl : hdrLayer h = 3) : fl ≤ 2304 := by
  obtain ⟨hv, hlen, -, -⟩ := (candidate_eq_some S i h fl ff).mp hc
  split at hlen
  · have hb := (freeProbe_bound S i h).1
    rw [hlen] at hb
    exact Nat.le_of_lt hb
  · rw [hlen.1]
    exact hdrFrameLen_layer3_le hv hl (by omega)

/-! ### The invariant, operation by operation -/

/-- Bytes written inside the two buffers keep memory inside them (R80). -/
theorem inWindow_write {m : Memory} {b : Nat} {bs : List Byte} (hm : Memory.inWindow m)
    (hb : ∀ a, b ≤ a → a < b + bs.length → regionOf a = .inBuf ∨ regionOf a = .pcm) : Memory.inWindow (m.write b bs) := by
  intro c hc
  rcases mem_write m b bs c hc with hold | ⟨hlo, hhi⟩
  · exact hm c hold
  · exact hb c.1 hlo hhi

/-- The window's layout in numbers (R80). -/
theorem window_layout : inBase = 0x1000 ∧ Config.inBufSize = 16384 ∧ pcmBase = 0x8000 ∧ Config.pcmWords = 2304 :=
  ⟨rfl, rfl, rfl, rfl⟩

theorem regionOf_pcm {a : Nat} (hlo : pcmBase ≤ a) (hhi : a < pcmBase + 2 * Config.pcmWords) : regionOf a = .pcm := by
  have := window_layout
  unfold regionOf
  rw [if_neg (by omega), if_neg (by omega), if_pos ⟨hlo, hhi⟩]

theorem regionOf_inBuf_iff {a : Nat} : regionOf a = .inBuf ↔ inBase ≤ a ∧ a < inBase + Config.inBufSize := by
  have := window_layout
  unfold regionOf
  by_cases hin : inBase ≤ a ∧ a < inBase + Config.inBufSize
  · rw [if_neg (by omega), if_pos hin]
    simp [hin]
  · rw [if_neg hin]
    split
    · simp [hin]
    · split <;> simp [hin]

/-- An aligned access that starts in IN_BUF lies in it. -/
theorem regionOf_inBuf_of_aligned {w : Width} {off a : Nat} (ha : off % w.bytes = 0) (hr : regionOf off = .inBuf) (hlo : off ≤ a)
    (hhi : a < off + w.bytes) : regionOf a = .inBuf := by
  have := window_layout
  rw [regionOf_inBuf_iff] at hr ⊢
  cases w <;> simp only [Width.bytes] at ha hhi <;> omega

/-- A state that is not busy is not searching. -/
theorem scanOk_of_idle {s : State} (h : s.engine = .idle) : scanOk s := by
  simp [scanOk, h]

/-- The zeros of a Layer III frame fit PCM_BUF. -/
theorem length_zeroPcm_le {h : Word} (hl : hdrLayer h = 3) : (zeroPcm h).length ≤ 2304 := by
  rw [length_zeroPcm, hdrSamples_layer3 hl]
  exact pcm_fits h

/-- What is saved of the main data fits the reservoir (R353). -/
theorem reservoirSave_le (md : List Byte) (p : Nat) : (reservoirSave md p).length ≤ Config.resMax := by
  rw [length_reservoirSave]
  exact Nat.min_le_right _ _

/-- BR_LIMIT stores at most the number of bits of IN_BUF (R31). -/
theorem clampLimit_toNat (v : Word) : (clampLimit v).toNat = min v.toNat (8 * Config.inBufSize) := by
  unfold clampLimit
  split
  · omega
  · rw [show (BitVec.ofNat 32 (8 * Config.inBufSize)).toNat = 8 * Config.inBufSize from rfl]
    omega

theorem clampLimit_le (v : Word) : (clampLimit v).toNat ≤ 8 * Config.inBufSize := by
  rw [clampLimit_toNat]
  exact Nat.min_le_right _ _

namespace StateInv

variable {s : State} (h : StateInv s)
include h

theorem raiseResult (c : ResultCode) : StateInv (s.raiseResult c) := { h with scan := trivial }

theorem stateReset : StateInv s.stateReset :=
  { h with freeFormat := Nat.zero_lt_succ _, reservoir := by simp, lastHeader := .inl rfl }

theorem emitPcm (nw : Bool) {ws : List Half} (hws : ws.length ≤ 2304) : StateInv (s.emitPcm nw ws) := by
  cases nw with
  | true => exact h
  | false =>
    refine { h with memWf := wf_write _ _ _ h.memWf, memWindow := inWindow_write h.memWindow fun a hlo hhi => .inr ?_ }
    rw [length_halfBytes] at hhi
    exact regionOf_pcm hlo (by simp only [Config.pcmWords]; omega)

theorem frameUnsupported : StateInv (frameUnsupported s) :=
  (StateInv.stateReset (s := { s with resSamples := 0 }) { h with }).raiseResult _

theorem frameCorrupt (nw : Bool) {hd : Word} (hl : hdrLayer hd = 3) : StateInv (frameCorrupt nw hd s) :=
  have he := h.emitPcm nw (length_zeroPcm_le hl)
  (StateInv.stateReset (s := { s.emitPcm nw (zeroPcm hd) with resSamples := 0 }) { he with }).raiseResult _

/-- The end of a frame that restored the main-data buffer and saved a reservoir, whatever its samples and signal state (R351,
R353). -/
theorem endRestored (n : Word) (c0 c1 : Channel) (d : Nat) {md res : List Byte} (c : ResultCode)
    (hmd : md.length ≤ Config.scratch) (hres : res.length ≤ Config.resMax) :
    StateInv (State.raiseResult c
      { s with resSamples := n, chan0 := c0, chan1 := c1, draws := d, mainData := md, reservoir := res }) :=
  { h with mainData := hmd, reservoir := hres, scan := trivial }

theorem frameUnderflow (nw : Bool) {hd : Word} {md : List Byte} (hl : hdrLayer hd = 3) (hmd : md.length ≤ Config.scratch) :
    StateInv (frameUnderflow nw hd md s) :=
  (h.emitPcm nw (length_zeroPcm_le hl)).endRestored _ _ _ _ _ hmd (reservoirSave_le md 0)

theorem frameOk (nw : Bool) {hd : Word} {md : List Byte} {w : FrameWork} (hw : w.pcm.length ≤ 2304)
    (hmd : md.length ≤ Config.scratch) : StateInv (frameOk nw hd md w s) :=
  (h.emitPcm nw hw).endRestored _ _ _ _ _ hmd (reservoirSave_le md _)

/-- The main data of a frame fits the main-data buffer: the reservoir and the longest frame (R62). -/
theorem restored_le {off fl b siEnd : Nat} (hfl : fl ≤ 2304) :
    (reservoirRestore s.reservoir b (freshBytes s.slice off fl siEnd)).length ≤ Config.scratch := by
  have := h.reservoir
  simp only [length_reservoirRestore, freshBytes, length_bytes, Config.scratch, Config.resMax, Config.maxFreeFormat] at *
  omega

theorem decodeLayer3 (nw : Bool) (off : Nat) {fl : Nat} {hd : Word} (hl : hdrLayer hd = 3) (hfl : fl ≤ 2304) :
    StateInv (decodeLayer3 nw off fl hd s) := by
  rcases decodeLayer3_cases nw off fl hd s with ⟨-, e⟩ | ⟨c, -, -, e⟩ | ⟨-, -, e⟩ | ⟨-, -, e⟩ <;> rw [e]
  · exact h.frameUnsupported
  · exact h.frameCorrupt nw hl
  · exact h.frameUnderflow nw hl (h.restored_le hfl)
  · exact h.frameOk nw (by rw [length_decodeMainData]; exact pcm_fits hd) (h.restored_le hfl)

theorem decodeLocated (nw : Bool) (off : Nat) {fl : Nat} {hd : Word} (hv : hdrValid hd = true) (hfl : hdrLayer hd = 3 → fl ≤ 2304) :
    StateInv (decodeLocated nw off fl hd s) := by
  have ha : StateInv (afterLocation off fl hd s) := { h with lastHeader := .inr hv }
  rw [decodeLocated_eq]
  split
  · exact ha.decodeLayer3 nw off ‹_› (hfl ‹_›)
  · exact ha.frameUnsupported

/-- What follows a candidate that the search took (R190). -/
theorem onLocated (mode : ScanMode) {S : Slice} {off fl ff : Nat} {hd : Word} (hc : candidate S off hd = some (fl, ff)) :
    StateInv (onLocated mode off fl ff hd s) := by
  cases mode with
  | probe => exact { h with scan := trivial }
  | decode nw =>
    have hff : StateInv { s with freeFormat := ff } := { h with freeFormat := candidate_free_bound hc }
    exact hff.decodeLocated nw off ((candidate_eq_some S off hd fl ff).mp hc).1 (candidate_layer3_le hc)

theorem noFrame : StateInv (noFrame s) := { h with scan := trivial }

theorem searchAndRun (mode : ScanMode) : StateInv (searchAndRun mode s) := by
  unfold Machine.searchAndRun
  split
  · exact h.onLocated mode (findFrame_some ‹_›).2.1
  · exact h.noFrame

theorem decodeCommandRun (nw : Bool) : StateInv (decodeCommandRun nw s) := by
  unfold Machine.decodeCommandRun
  split
  · exact h.raiseResult _
  split
  · obtain ⟨-, hcmp, rfl, -, -⟩ := fastPath_some ‹_›
    exact h.decodeLocated nw 0 (hdrCompare_valid hcmp) fun hl => hdrFrameLen_layer3_le (hdrCompare_valid hcmp) hl h.freeFormat
  · exact h.stateReset.searchAndRun _

/-- Every command keeps the invariant. -/
theorem exec_command {i : Instr} (hi : i.space = .command) {t : State} (ht : exec i s = .next t) : StateInv t := by
  rw [Machine.exec_command i s hi] at ht
  cases ht
  split
  · exact h.stateReset.raiseResult _
  · exact h.decodeCommandRun false
  · exact h.decodeCommandRun true
  · split
    · exact h.raiseResult _
    · exact h.searchAndRun _
  · exact { h with scan := trivial }
  · exact h.raiseResult _

/-- A search that moves on stays at a candidate of its slice (R190). -/
theorem scanHeader (hd : Word) {mode : ScanMode} {pos : Nat} (he : s.engine = .scan mode pos) :
    StateInv (scanHeader hd mode pos s) := by
  unfold Machine.scanHeader
  split
  · exact h.onLocated mode ‹_›
  · unfold scanNext
    split
    · have hscan := h.scan
      simp only [scanOk, he] at hscan
      exact { h with scan := ⟨hscan.1, ‹_›⟩ }
    · exact h.noFrame

/-- A transition of the engine keeps the invariant. -/
theorem engineStep {t : State} (ht : engineStep s = .next t) : StateInv t := by
  cases he : s.engine with
  | idle =>
    rw [engineStep_idle he] at ht
    cases ht
    exact h
  | command =>
    rw [engineStep_command he] at ht
    exact h.exec_command (decodeCommand_space _) ht
  | scan mode pos =>
    rw [engineStep_scan he] at ht
    cases ht
    exact h.scanHeader _ he

/-- A register write keeps the invariant: it moves the slice only while no search runs, and BR_LIMIT is clamped (R31, R91). -/
theorem writeReg {off : Nat} (v : Word) (hrace : (s.busy && isCommandInput off) = false) : StateInv (s.writeReg off v) := by
  have hidle : isCommandInput off = true → s.engine = .idle := fun hin => engine_idle_of_not_busy (by simpa [hin] using hrace)
  unfold State.writeReg
  split
  · unfold State.writeCmd
    split
    · exact { h with }
    · exact { h with scan := trivial }
  · exact { h with }
  · exact { h with }
  · exact { h with scan := scanOk_of_idle (hidle rfl) }
  · exact { h with scan := scanOk_of_idle (hidle rfl) }
  · exact { h with }
  · exact { h with brLimit := clampLimit_le v }
  · exact h

/-- A host access keeps the invariant. -/
theorem hostStep {op : HostOp} {t : State} (ht : hostStep op s = .next t) : StateInv t := by
  cases op with
  | read w off =>
    obtain ⟨_, _, rfl⟩ := hostRead_next ht
    exact { h with }
  | write w off v =>
    obtain ⟨hrace, rfl⟩ | ⟨ha, hr, rfl⟩ | rfl := hostWrite_next ht
    · exact h.writeReg v hrace
    · refine { h with memWf := wf_write _ _ _ h.memWf, memWindow := inWindow_write h.memWindow fun a hlo hhi => .inl ?_ }
      rw [length_bytesLE] at hhi
      exact regionOf_inBuf_of_aligned ha hr hlo hhi
    · exact h
  | wait =>
    cases ht
    exact h

/-- A step keeps the invariant, whichever agent moves. -/
theorem step {t : State} (ht : step s = .next t) : StateInv t := by
  obtain ⟨d, e⟩ | ⟨op, rest, d, e⟩ := step_cases s <;> rw [e] at ht
  · exact StateInv.engineStep (s := { s with draws := d }) { h with } ht
  · exact StateInv.hostStep (s := { s with bus := rest, draws := d }) { h with } ht

end StateInv

/-- The reset state meets the invariant. -/
theorem stateInv_reset : StateInv State.reset where
  memWf := wf_reset
  memWindow _ hc := nomatch hc
  brLimit := Nat.zero_le _
  freeFormat := Nat.zero_lt_succ _
  reservoir := Nat.zero_le _
  mainData := Nat.zero_le _
  lastHeader := .inl rfl
  scan := trivial

/-! ### The search taken header by header (R190, log entry 4) -/

/-- How a frame ends does not depend on where the engine stood: every outcome leaves it idle (R34). -/
theorem decodeLayer3_engine (nw : Bool) (off fl : Nat) (h : Word) (e : Engine) (s : State) :
    decodeLayer3 nw off fl h { s with engine := e } = decodeLayer3 nw off fl h s := by
  have hcorrupt : frameCorrupt nw h { s with engine := e } = frameCorrupt nw h s := by cases nw <;> rfl
  have hunder (md) : frameUnderflow nw h md { s with engine := e } = frameUnderflow nw h md s := by cases nw <;> rfl
  have hok (md) (w : FrameWork) : frameOk nw h md w { s with engine := e } = frameOk nw h md w s := by cases nw <;> rfl
  unfold decodeLayer3
  simp only [hcorrupt, hunder, hok]
  rfl

theorem onLocated_engine (mode : ScanMode) (off fl ff : Nat) (h : Word) (e : Engine) (s : State) :
    onLocated mode off fl ff h { s with engine := e } = onLocated mode off fl ff h s := by
  cases mode with
  | probe => rfl
  | decode nw =>
    simp only [onLocated, decodeLocated_eq]
    rw [← decodeLayer3_engine nw off fl h e (afterLocation off fl h { s with freeFormat := ff })]
    rfl

/-- What a command's search does from candidate `pos` on, with `n` candidates left, and what follows it. -/
def searchFrom (mode : ScanMode) (n pos : Nat) (s : State) : State :=
  match findFrom s.slice n pos with
  | some (off, fl, ff) => onLocated mode off fl ff (s.slice.word off) s
  | none => noFrame s

/-- The command's own search is the one from the first candidate on. -/
theorem searchFrom_zero (mode : ScanMode) (s : State) : searchFrom mode (s.inLen.toNat - 4) 0 s = searchAndRun mode s := rfl

/-- One step of the search: the candidate is taken, or the search goes on, or no candidate is left (R190, R191). -/
theorem searchFrom_succ (mode : ScanMode) (n pos : Nat) (s : State) :
    searchFrom mode (n + 1) pos s = match candidate s.slice pos (s.slice.word pos) with
      | some (fl, ff) => onLocated mode pos fl ff (s.slice.word pos) s
      | none => searchFrom mode n (pos + 1) s := by
  unfold searchFrom
  rw [findFrom]
  cases candidate s.slice pos (s.slice.word pos) <;> rfl

/-- An idle machine with no host access left stays as it is (R429, log entry 28). -/
theorem run_idle {s : State} (he : s.engine = .idle) (hb : s.bus = []) (k : Nat) : Sys2Proof.core.run k s = .next s := by
  induction k with
  | zero => rfl
  | succ k ih => rw [run_succ ((step_bus_nil hb).trans (engineStep_idle he)), ih]

/-- A search with `n` candidates left, the next at `pos`: it stands before that one, or has ended with NO_FRAME. -/
def searching (mode : ScanMode) (pos : Nat) (s : State) : Nat → State
  | 0 => noFrame s
  | _ + 1 => { s with engine := .scan mode pos }

/-- One step of a search within its slice: the candidate is taken, or the search moves on. -/
theorem step_searching {s : State} (hb : s.bus = []) (mode : ScanMode) {n pos : Nat} (hn : pos + (n + 1) + 4 = s.inLen.toNat) :
    step (searching mode pos s (n + 1)) = .next (match candidate s.slice pos (s.slice.word pos) with
      | some (fl, ff) => onLocated mode pos fl ff (s.slice.word pos) s
      | none => searching mode (pos + 1) s n) := by
  have hnext : scanNext mode pos { s with engine := .scan mode pos } = searching mode (pos + 1) s n := by
    unfold scanNext
    cases n with
    | zero => exact if_neg (by simp only; omega)
    | succ n => exact if_pos (by simp only; omega)
  have hstep : step { s with engine := .scan mode pos }
      = .next (scanHeader (s.slice.word pos) mode pos { s with engine := .scan mode pos }) :=
    (step_bus_nil (s := { s with engine := .scan mode pos }) hb).trans (engineStep_scan rfl)
  rw [searching, hstep, scanHeader, hnext]
  simp only [onLocated_engine]
  rfl

/-- From candidate `pos` on, the run ends as the rest of the command's search does, however many steps follow. -/
theorem run_searching {s : State} (hb : s.bus = []) (mode : ScanMode) (k : Nat) {n pos : Nat} (hn : pos + n + 4 = s.inLen.toNat) :
    Sys2Proof.core.run (n + k) (searching mode pos s n) = .next (searchFrom mode n pos s) := by
  induction n generalizing pos with
  | zero =>
    rw [Nat.zero_add]
    exact run_idle (s := noFrame s) rfl hb k
  | succ n ih =>
    rw [Nat.succ_add, run_succ (step_searching hb mode hn), searchFrom_succ]
    cases candidate s.slice pos (s.slice.word pos) with
    | none => exact ih (by omega)
    | some p =>
      have hend := finished_onLocated mode pos p.1 p.2 (s.slice.word pos) s
      exact run_idle hend.idle (hend.bus.trans hb) _

/-- A search stepped from its first candidate ends as the command's own search (R33, R90). -/
theorem run_scan_eq_searchAndRun {s : State} (hb : s.bus = []) (hlen : 4 < s.inLen.toNat) (mode : ScanMode) :
    Sys2Proof.core.run s.inLen.toNat { s with engine := .scan mode 0 } = .next (searchAndRun mode s) := by
  have hrun := run_searching hb mode 4 (n := s.inLen.toNat - 4) (pos := 0) (by omega)
  have hstart : searching mode 0 s (s.inLen.toNat - 4) = { s with engine := .scan mode 0 } := by
    rw [show s.inLen.toNat - 4 = s.inLen.toNat - 5 + 1 by omega, searching]
  rw [hstart, Nat.sub_add_cancel hlen.le] at hrun
  exact hrun

/-! ### Host writes of registers (R31, R32) -/

/-- An aligned 32-bit write of a register that does not race is the register's write (R80, R91). -/
theorem hostStep_write_reg {off : BitVec 16} {s : State} (v : Word) (hreg : off.toNat < 0x100) (halign : off.toNat % 4 = 0)
    (hrace : (s.busy && isCommandInput off.toNat) = false) : hostStep (.write .b4 off v) s = .next (s.writeReg off.toNat v) := by
  have hr : regionOf off.toNat = .reg := by simp [regionOf, hreg]
  rw [hostStep, hostWrite_eq halign (by rw [hr]; rfl), hr]
  exact if_neg (by simp [hrace])

/-- Offsets that no write changes anything at (R31). -/
theorem writeReg_readOnly {off : Nat} (h : off ∉ [0x00, 0x04, 0x08, 0x0C, 0x10, 0x2C, 0x30]) (v : Word) (s : State) :
    s.writeReg off v = s := by
  simp only [List.mem_cons, List.not_mem_nil, or_false, not_or] at h
  unfold State.writeReg
  split <;> simp_all

/-- A write of any register but CMD and STATUS changes the five writable registers at most (R31). -/
theorem writeReg_registers {off : Nat} (hcmd : off ≠ 0x00) (hstatus : off ≠ 0x04) (v : Word) (s : State) :
    s.writeReg off v = { s with
      irqEn := (s.writeReg off v).irqEn, inOff := (s.writeReg off v).inOff, inLen := (s.writeReg off v).inLen,
      brPos := (s.writeReg off v).brPos, brLimit := (s.writeReg off v).brLimit } := by
  unfold State.writeReg
  split <;> first | rfl | contradiction

/-- A register write leaves what every other register but STATUS reads; STATUS shows DONE_IE in its bit 3 (R31, R32). -/
theorem readReg_writeReg_ne {off o : Nat} (hcmd : off ≠ 0x00) (hstatus : off ≠ 0x04) (hne : o ≠ off) (ho : o ≠ 0x04) (v : Word)
    (s : State) : (s.writeReg off v).readReg o = s.readReg o := by
  unfold State.writeReg
  split
  · contradiction
  · contradiction
  all_goals
    unfold State.readReg
    split <;> first | rfl | contradiction

/-! ### The bits of STATUS (R32, R400) -/

theorem statusWord_flags (s : State) :
    s.statusWord.getLsbD 0 = s.busy ∧ s.statusWord.getLsbD 1 = s.done ∧ s.statusWord.getLsbD 2 = s.overrun
      ∧ s.statusWord.getLsbD 3 = s.irq := by
  simp only [State.statusWord, BitVec.getLsbD_append, BitVec.getLsbD_ofBool]
  simp

/-- STATUS below its four flags: the code of the result, then zeros. -/
theorem statusWord_extract (s : State) (i n : Nat) :
    s.statusWord.extractLsb' (4 + i) n = ((0 : BitVec 24) ++ s.result.code).extractLsb' i n := by
  unfold State.statusWord
  rw [show 4 + i = 1 + (1 + (1 + (1 + i))) by omega]
  rw [extract_append_hi, extract_append_hi, extract_append_hi, extract_append_hi]

theorem statusWord_result (s : State) : s.statusWord.extractLsb' 4 4 = s.result.code := by
  rw [statusWord_extract s 0 4, extract_append_lo _ _ 0 4 (by omega)]
  simp

theorem statusWord_reserved (s : State) : s.statusWord.extractLsb' 8 24 = 0 := by
  rw [statusWord_extract s 4 24, extract_append_hi _ _ 0 24]
  rfl

/-- The codes of R400. -/
theorem code_of_resultCodes : ∀ p ∈ Claims.resultCodes, p.1.code.toNat = p.2 := by
  decide

end Sys2Proof.Machine

namespace Sys2Proof.Proofs
open Sys2Proof.Machine Sys2Proof.Claims

/-- Settles O12: `StateInv` is kept by each operation a step is made of. -/
theorem stepKeepsInvariant : Obligations.StepKeepsInvariant := fun _ _ h ht => h.step ht

/-- Settles O28: both searches run through the same candidates, and the machine is idle once a search has ended. -/
theorem searchByStepsIsTheCommand : Obligations.SearchByStepsIsTheCommand := by
  intro s hb hargs hlen
  refine ⟨?_, fun nw hfast => ?_⟩
  · have hexec : exec .probe s = .next (searchAndRun .probe s) := by simp [exec, execProbe, hargs]
    exact (run_scan_eq_searchAndRun hb hlen .probe).trans hexec.symm
  · have hexec : exec (decodeInstr nw) s = .next (searchAndRun (.decode nw) s.stateReset) := by
      cases nw <;> simp [decodeInstr, exec, execDecode, execDecodeNw, decodeCommandRun, hargs, hfast]
    exact (run_scan_eq_searchAndRun (s := s.stateReset) hb hlen (.decode nw)).trans hexec.symm

/-- Settles O11: reset is empty, zero and idle. -/
theorem resetMeetsInvariant : Obligations.ResetMeetsInvariant := stateInv_reset

/-- Settles O54: a write reaches `writeReg`, which changes the field of its own offset. -/
theorem registerWritesFollowTheMap : Obligations.RegisterWritesFollowTheMap := by
  intro s v off hbusy hreg halign
  refine ⟨_, hostStep_write_reg v hreg halign (by simp [hbusy]), ?_, ?_, ?_, fun hro => writeReg_readOnly hro v s,
    fun hcmd hstatus => ⟨fun o hne ho => readReg_writeReg_ne hcmd hstatus hne ho v s, writeReg_registers hcmd hstatus v s⟩⟩
  · intro hoff
    simp only [List.mem_cons, List.not_mem_nil, or_false] at hoff
    rcases hoff with h | h | h <;> rw [h] <;> rfl
  · intro hoff
    rw [hoff]
    show (if v.getLsbD 0 then 1 else 0) = BitVec.ofNat 32 (v.toNat % 2)
    rcases Nat.mod_two_eq_zero_or_one v.toNat with hbit | hbit <;> simp [BitVec.getLsbD, hbit]
  · intro hoff
    rw [hoff]
    exact clampLimit_toNat v

/-- Settles O10, agent by agent. -/
theorem stepRunsTheDecodedInstruction : Obligations.StepRunsTheDecodedInstruction := by
  intro s
  have hengine (hbusy : s.busy = true) (hb : s.bus = [] ∨ ∃ rest, s.bus = .wait :: rest) : step s = engineStep s := by
    obtain hb | ⟨rest, hb⟩ := hb
    · exact step_bus_nil hb
    · exact step_wait hb hbusy
  refine ⟨fun sp w i hf hd hb => ?_, fun mode pos e he hd hb => ?_, fun sp w i op rest hf hb hop hd => ?_, fun he => ?_⟩
  · rw [hengine (busy_of_fetchWord hf) hb, engineStep_decoded hf hd]
  · rw [hengine (by simp [State.busy, he]) hb, engineStep_scan he, scanHeader_invalid (hdrValid_of_noSync hd)]
  · rw [step_contended hb (busy_of_fetchWord hf) hop,
      engineStep_decoded (s := { s with draws := s.draws + 1 }) hf hd]
  · split
    · rw [step_bus_nil ‹_›, engineStep_idle he]
    · rw [step_host ‹_› (by simp [State.busy, he])]

/-- Settles O52: CMD is no register a running command reads, so the write is never refused. -/
theorem cmdWriteIsAcceptedOrDropped : Obligations.CmdWriteIsAcceptedOrDropped := by
  intro s w
  have hwrite : hostStep (.write .b4 0 w) s = .next (s.writeCmd w) :=
    hostStep_write_reg (off := 0) w (by decide) (by decide) (Bool.and_false _)
  exact ⟨fun hbusy => by rw [hwrite, State.writeCmd, if_pos hbusy],
    fun hbusy => by rw [hwrite, State.writeCmd, if_neg (by simp [hbusy])]⟩

/-- Settles O53, from the bits of `statusWord` and R400's codes. -/
theorem statusBitsAndInterrupt : Obligations.StatusBitsAndInterrupt := by
  intro s v
  obtain ⟨hbusy, hdone, hoverrun, hirq⟩ := statusWord_flags s
  refine ⟨hbusy, hdone, hoverrun, hirq, rfl, fun p hp hres => ?_, statusWord_reserved s, ?_⟩
  · rw [statusWord_result, hres]
    exact code_of_resultCodes p hp
  · exact hostStep_write_reg (off := 4) v (by decide) (by decide) (Bool.and_false _)

end Sys2Proof.Proofs
end

section
/-! Proofs about the host window and the PCM words: what host reads and writes answer, little-endian stores, where R85 puts the
words of a frame, and headers outside a search (`20_memory.md`). -/

namespace Sys2Proof.Machine

/-! ### Headers outside a search (R92) -/

/-- Every header row is a step of the search, and of nothing else (R190, log entry 10). -/
theorem exec_header_whenScanning {i : Instr} (hi : i.space = .header) : ∃ act, ∀ s, exec i s = whenScanning act s := by
  cases i with
  | reset | decode | decodeNw | probe | getbits _ | illegal _ => exact nomatch hi
  | _ => exact ⟨_, fun _ => rfl⟩

theorem whenScanning_refused {s : State} (h : ∀ mode pos, s.engine ≠ .scan mode pos) (act : ScanMode → Nat → State → State) :
    whenScanning act s = .refused .headerNotScanned := by
  unfold whenScanning
  split
  · exact absurd ‹_› (h _ _)
  · rfl

/-! ### Little-endian values (R84) -/

theorem bytesLE_getD {n k : Nat} (hk : k < n) (v : Word) : (bytesLE n v).getD k 0 = v.extractLsb' (8 * k) 8 := by
  simp [bytesLE, hk]

/-- Bytes that are the base-256 digits of `v` read as its low `n` bytes. -/
theorem readLE_eq_mod {m : Memory} {a n v : Nat} (h : ∀ k, k < n → (m.read (a + k)).toNat = v / 256 ^ k % 256) :
    m.readLE a n = v % 256 ^ n := by
  induction n generalizing a v with
  | zero => simp [Memory.readLE, Nat.mod_one]
  | succ n ih =>
    have hlow : (m.read a).toNat = v % 256 := by simpa using h 0 n.succ_pos
    have hhigh : m.readLE (a + 1) n = v / 256 % 256 ^ n := ih fun k hk => by
      rw [Nat.add_assoc, Nat.add_comm 1 k, h (k + 1) (Nat.succ_lt_succ hk), Nat.pow_succ', Nat.div_div_eq_div_mul]
    rw [Memory.readLE, hlow, hhigh, Nat.pow_succ', Nat.mod_mul]

/-- What a little-endian store wrote, read at the same offset and width. -/
theorem readLE_write_bytesLE (m : Memory) (a n : Nat) (v : Word) :
    (m.write a (bytesLE n v)).readLE a n = v.toNat % 2 ^ (8 * n) := by
  rw [Nat.pow_mul]
  refine readLE_eq_mod fun k hk => ?_
  rw [read_write_inside _ _ _ k (by simpa using hk), bytesLE_getD hk, BitVec.extractLsb'_toNat, Nat.shiftRight_eq_div_pow, Nat.pow_mul]

/-! ### What a host access answers (R80, R84, R86, R91) -/

theorem hostRead_wellPlaced {w : Width} {off : Nat} {s t : State} (h : hostRead w off s = .next t) :
    off % w.bytes = 0 ∧ readable (regionOf off) w = true := by
  unfold hostRead at h
  split at h
  · cases h
  split at h
  · cases h
  exact ⟨by simpa using ‹¬off % w.bytes ≠ 0›, by simpa using ‹¬(!readable _ w) = true›⟩

theorem hostWrite_wellPlaced {w : Width} {off : Nat} {v : Word} {s t : State} (h : hostWrite w off v s = .next t) :
    off % w.bytes = 0 ∧ writable (regionOf off) w = true := by
  unfold hostWrite at h
  split at h
  · cases h
  split at h
  · cases h
  exact ⟨by simpa using ‹¬off % w.bytes ≠ 0›, by simpa using ‹¬(!writable _ w) = true›⟩

/-- A write that is answered while BUSY = 1 races with nothing (R91, log entry 11). -/
theorem hostWrite_raceFree {w : Width} {off : BitVec 16} {v : Word} {s t : State} (h : hostWrite w off.toNat v s = .next t)
    (hbusy : s.busy = true) : (HostOp.write w off v).raceFree = true := by
  obtain ⟨ha, hw⟩ := hostWrite_wellPlaced h
  rw [hostWrite_eq ha hw] at h
  cases hr : regionOf off.toNat with
  | reg =>
    cases hin : isCommandInput off.toNat with
    | true => simp [hr, hbusy, hin] at h
    | false => simp [HostOp.raceFree, hr, hin]
  | inBuf => simp [hr, hbusy] at h
  | pcm | unmapped => simp [HostOp.raceFree, hr]

/-- A host access that is answered keeps R440. -/
theorem admitted_of_hostStep {op : HostOp} {s t : State} (h : hostStep op s = .next t) : op.admitted s.busy = true := by
  cases op with
  | read w off => simp [HostOp.admitted, HostOp.wellPlaced, HostOp.raceFree, hostRead_wellPlaced h]
  | write w off v =>
    have hplaced : (HostOp.write w off v).wellPlaced = true := by simp [HostOp.wellPlaced, hostWrite_wellPlaced h]
    cases hbusy : s.busy with
    | false => simp [HostOp.admitted, hplaced]
    | true => simp [HostOp.admitted, hplaced, hostWrite_raceFree h hbusy]
  | wait => simp [HostOp.admitted, HostOp.wellPlaced, HostOp.raceFree]

/-- Every region but REG takes writes of every width (R80, log entry 12). -/
theorem writable_of_ne_reg {r : Region} (hr : r ≠ .reg) (w : Width) : writable r w = true := by
  cases r with
  | reg => exact absurd rfl hr
  | inBuf | pcm | unmapped => rfl

/-- A store to IN_BUF while BUSY = 0 (R84). -/
theorem hostWrite_inBuf {w : Width} {off : Nat} {s : State} (hr : regionOf off = .inBuf) (ha : off % w.bytes = 0)
    (hbusy : s.busy = false) (v : Word) : hostWrite w off v s = .next { s with mem := s.mem.write off (bytesLE w.bytes v) } := by
  rw [hostWrite_eq ha (writable_of_ne_reg (by simp [hr]) w), hr]
  simp [hbusy]

/-- PCM_BUF and unmapped offsets ignore writes (R80, log entry 12). -/
theorem hostWrite_ignored {w : Width} {off : Nat} (hr : regionOf off = .pcm ∨ regionOf off = .unmapped) (ha : off % w.bytes = 0)
    (v : Word) (s : State) : hostWrite w off v s = .next s := by
  rcases hr with hr | hr <;> rw [hostWrite_eq ha (writable_of_ne_reg (by simp [hr]) w), hr]

/-- What stands at a window offset: a register, buffer bytes in little-endian order, or 0 (R31, R80, R84). -/
def State.windowValue (s : State) (w : Width) (off : Nat) : Word :=
  match regionOf off with
  | .reg => s.readReg off
  | .inBuf | .pcm => BitVec.ofNat 32 (s.mem.readLE off w.bytes)
  | .unmapped => 0

theorem windowValue_reg {s : State} {off : Nat} (hr : regionOf off = .reg) (w : Width) : s.windowValue w off = s.readReg off := by
  simp [State.windowValue, hr]

theorem windowValue_buffer {s : State} {off : Nat} (hr : regionOf off = .inBuf ∨ regionOf off = .pcm) (w : Width) :
    s.windowValue w off = BitVec.ofNat 32 (s.mem.readLE off w.bytes) := by
  rcases hr with hr | hr <;> simp [State.windowValue, hr]

theorem windowValue_unmapped {s : State} {off : Nat} (hr : regionOf off = .unmapped) (w : Width) : s.windowValue w off = 0 := by
  simp [State.windowValue, hr]

/-- A read of a register that is answered is of the result registers exactly when R440.2 names its offset. -/
theorem openWhileBusy_reg_iff {w : Width} {off : Nat} (hr : regionOf off = .reg) (ha : off % w.bytes = 0)
    (hw : readable (regionOf off) w = true) : Claims.OpenWhileBusy off ↔ isResultReg off = true := by
  obtain rfl : w = .b4 := by simpa [hr, readable] using hw
  rw [isResultReg_iff ha, Claims.OpenWhileBusy, hr]
  simp

/-- R440.2 names offsets of PCM_BUF and REG only. -/
theorem regionOf_of_openWhileBusy {off : Nat} (h : Claims.OpenWhileBusy off) : regionOf off = .pcm ∨ regionOf off = .reg :=
  h.imp_right ((by decide : ∀ o ∈ [0x14, 0x18, 0x1C, 0x20, 0x24, 0x28, 0x34], regionOf o = .reg) off)

theorem not_openWhileBusy {off : Nat} (hr : regionOf off = .inBuf ∨ regionOf off = .unmapped) : ¬Claims.OpenWhileBusy off := by
  intro ho
  rcases regionOf_of_openWhileBusy ho with h | h <;> simp [h] at hr

section
variable {w : Width} {off : Nat} {s : State}

/-- A read of what R440.2 names returns a free value while BUSY = 1 (log entry 9). -/
theorem hostRead_open (ha : off % w.bytes = 0) (hw : readable (regionOf off) w = true) (hbusy : s.busy = true)
    (ho : Claims.OpenWhileBusy off) : hostRead w off s = .next (s.returnOpen w) := by
  rw [hostRead_eq ha hw]
  rcases regionOf_of_openWhileBusy ho with hr | hr
  · simp [hr, hbusy]
  · simp [hr, hbusy, (openWhileBusy_reg_iff hr ha hw).mp ho]

/-- Every other read returns what stands at its offset. -/
theorem hostRead_closed (ha : off % w.bytes = 0) (hw : readable (regionOf off) w = true)
    (hc : s.busy = false ∨ ¬Claims.OpenWhileBusy off) : hostRead w off s = .next (s.returnData (s.windowValue w off)) := by
  rw [hostRead_eq ha hw]
  cases hr : regionOf off with
  | reg =>
    have hfree : (s.busy && isResultReg off) = false := by
      rw [openWhileBusy_reg_iff hr ha hw] at hc
      simpa only [Bool.and_eq_false_iff, Bool.not_eq_true] using hc
    simp [hfree, windowValue_reg hr]
  | inBuf => rw [windowValue_buffer (.inl hr)]
  | pcm => simp [hc.resolve_right (not_not_intro (.inl hr)), windowValue_buffer (.inr hr)]
  | unmapped => rw [windowValue_unmapped hr]

theorem hostRead_inBuf (hr : regionOf off = .inBuf) (ha : off % w.bytes = 0) :
    hostRead w off s = .next (s.returnData (BitVec.ofNat 32 (s.mem.readLE off w.bytes))) := by
  rw [hostRead_closed ha (by rw [hr]; rfl) (.inr (not_openWhileBusy (.inl hr))), windowValue_buffer (.inl hr)]

theorem hostRead_unmapped (hr : regionOf off = .unmapped) (ha : off % w.bytes = 0) : hostRead w off s = .next (s.returnData 0) := by
  rw [hostRead_closed ha (by rw [hr]; rfl) (.inr (not_openWhileBusy (.inr hr))), windowValue_unmapped hr]

/-- The two answers of a host read. -/
theorem hostRead_cases {t : State} (h : hostRead w off s = .next t) :
    (s.busy = true ∧ Claims.OpenWhileBusy off ∧ t = s.returnOpen w)
      ∨ ((s.busy = false ∨ ¬Claims.OpenWhileBusy off) ∧ t = s.returnData (s.windowValue w off)) := by
  obtain ⟨ha, hw⟩ := hostRead_wellPlaced h
  by_cases ho : s.busy = true ∧ Claims.OpenWhileBusy off
  · obtain ⟨hbusy, ho⟩ := ho
    rw [hostRead_open ha hw hbusy ho] at h
    exact .inl ⟨hbusy, ho, (Host.Outcome.next.inj h).symm⟩
  · have hc : s.busy = false ∨ ¬Claims.OpenWhileBusy off := by simpa only [not_and_or, Bool.not_eq_true] using ho
    rw [hostRead_closed ha hw hc] at h
    exact .inr ⟨hc, (Host.Outcome.next.inj h).symm⟩

end

/-- The offsets of R31's registers. -/
theorem registerMap_offsets (s : State) : (Claims.registerMap s).map Prod.fst = (List.range 18).map (4 * ·) := rfl

/-- R31's map is what `readReg` reads at its offsets. -/
theorem registerMap_readReg (s : State) :
    Claims.registerMap s = ((List.range 18).map (4 * ·)).map fun off => (off, s.readReg off) := rfl

theorem readReg_of_registerMap {s : State} {off : Nat} {v : Word} (h : (off, v) ∈ Claims.registerMap s) :
    off < 0x100 ∧ s.readReg off = v := by
  rw [registerMap_readReg] at h
  obtain ⟨o, ho, heq⟩ := List.mem_map.mp h
  obtain ⟨k, hk, rfl⟩ := List.mem_map.mp ho
  obtain ⟨rfl, rfl⟩ := Prod.mk.inj heq
  exact ⟨by have := List.mem_range.mp hk; omega, rfl⟩

/-- Each REG offset R440.2 names is a register of R31. -/
theorem mem_registerMap_of_openWhileBusy {off : Nat} (hr : regionOf off = .reg) (h : Claims.OpenWhileBusy off) (s : State) :
    off ∈ (Claims.registerMap s).map Prod.fst := by
  rw [registerMap_offsets]
  exact (by decide : ∀ o ∈ [0x14, 0x18, 0x1C, 0x20, 0x24, 0x28, 0x34], o ∈ (List.range 18).map (4 * ·)) off
    (h.resolve_left (by simp [hr]))

/-! ### PCM words of a granule (R85, R336) -/

theorem interleave_getD (y0 y1 : List Word) (n : Nat) (hlen : y0.length = y1.length) (hn : n < y0.length) :
    (interleave y0 y1).getD (2 * n) 0 = pcmOf (y0.getD n 0) ∧ (interleave y0 y1).getD (2 * n + 1) 0 = pcmOf (y1.getD n 0) := by
  induction y0 generalizing y1 n with
  | nil => simp at hn
  | cons a y0 ih =>
    cases y1 with
    | nil => simp at hlen
    | cons b y1 =>
      cases n with
      | zero => simp [interleave]
      | succ n =>
        rw [Nat.mul_succ]
        simpa [interleave] using ih y1 n (by simpa using hlen) (by simpa using hn)

/-- Word `i * nch + c` of a granule is channel `c`'s sample `i`, for one channel and for two. -/
theorem pcmWords_getD {ys : List (List Word)} {len i c : Nat} (hch : ys.length = 1 ∨ ys.length = 2) (hlen : ∀ y ∈ ys, y.length = len)
    (hi : i < len) (hc : c < ys.length) : (pcmWords ys).getD (i * ys.length + c) 0 = pcmOf ((ys.getD c []).getD i 0) := by
  match ys with
  | [y0] =>
    obtain rfl : c = 0 := by simpa using hc
    have hi0 : i < y0.length := by simpa [hlen y0] using hi
    simp [pcmWords, hi0]
  | [y0, y1] =>
    have h0 : y0.length = len := hlen y0 (by simp)
    have h1 : y1.length = len := hlen y1 (by simp)
    obtain ⟨heven, hodd⟩ := interleave_getD y0 y1 i (h0.trans h1.symm) (h0.symm ▸ hi)
    obtain rfl | rfl : c = 0 ∨ c = 1 := by simp at hc; omega
    · simpa [pcmWords, Nat.mul_comm i 2] using heven
    · simpa [pcmWords, Nat.mul_comm i 2] using hodd
  | [] | _ :: _ :: _ :: _ => simp at hch

/-- The word `n * nch + c` of a sample below `len` stands within `len` samples' words. -/
theorem sampleWord_lt {n len nch c : Nat} (hn : n < len) (hc : c < nch) : n * nch + c < len * nch :=
  calc n * nch + c < (n + 1) * nch := by rw [Nat.succ_mul]; exact Nat.add_lt_add_left hc _
    _ ≤ len * nch := Nat.mul_le_mul_right _ hn

/-! ### PCM words of a frame (R333, R360) -/

theorem decodeGranules_add (h : Word) (si : SideInfo) (m n gr : Nat) (w : FrameWork) :
    decodeGranules h si (m + n) gr w = decodeGranules h si n (gr + m) (decodeGranules h si m gr w) := by
  induction m generalizing gr w with
  | zero => simp [decodeGranules]
  | succ m ih =>
    rw [Nat.succ_add, decodeGranules, ih, Nat.add_assoc, Nat.add_comm 1 m]
    rfl

theorem decodeGranule_pcm (h : Word) (si : SideInfo) (gr : Nat) (w : FrameWork) :
    (decodeGranule h si gr w).pcm = w.pcm ++ pcmWords (granuleOut h si gr w).2 :=
  congrArg (· ++ _) (granuleOut_spec h si gr w).1

/-- Later granules leave the words of earlier ones where they stand. -/
theorem decodeGranules_pcm_prefix (h : Word) (si : SideInfo) (n gr : Nat) (w : FrameWork) :
    w.pcm <+: (decodeGranules h si n gr w).pcm := by
  induction n generalizing gr w with
  | zero => exact List.prefix_rfl
  | succ n ih => exact (decodeGranule_pcm h si gr w ▸ List.prefix_append _ _).trans (ih (gr + 1) (decodeGranule h si gr w))

/-- Granule `g`'s words stand in the frame's after those of the granules before it. -/
theorem granule_pcm_prefix (h : Word) (si : SideInfo) (md : List Byte) (s : State) {g : Nat} (hg : g < hdrGranules h) :
    (Claims.beforeGranule h si md s g).pcm ++ pcmWords (granuleOut h si g (Claims.beforeGranule h si md s g)).2
      <+: (decodeMainData h si md s).pcm := by
  obtain ⟨n, hn⟩ := Nat.exists_eq_add_of_lt hg
  rw [decodeMainData, hn, Nat.add_assoc, decodeGranules_add, decodeGranules, ← decodeGranule_pcm, Nat.zero_add]
  exact decodeGranules_pcm_prefix h si n (g + 1) _

theorem length_beforeGranule (h : Word) (si : SideInfo) (md : List Byte) (s : State) (g : Nat) :
    (Claims.beforeGranule h si md s g).pcm.length = g * (576 * hdrChannels h) := by
  rw [Claims.beforeGranule, length_decodeGranules]
  simp [frameStart]

theorem hdrChannels_eq (h : Word) : hdrChannels h = 1 ∨ hdrChannels h = 2 := by
  have := hdrChannels_le h
  have := hdrChannels_pos h
  omega

/-- Word `n * nch + c` of a frame is channel `c`'s sample `n = 576*g + i` (R85, R336). -/
theorem decodeMainData_pcm_getD (h : Word) (si : SideInfo) (md : List Byte) (s : State) {g i c : Nat} (hg : g < hdrGranules h)
    (hi : i < 576) (hc : c < hdrChannels h) :
    (decodeMainData h si md s).pcm.getD ((576 * g + i) * hdrChannels h + c) 0 =
      pcmOf ((Claims.granuleSamples h si md s g c).getD i 0) := by
  obtain ⟨-, hch, hlen⟩ := granuleOut_spec h si g (Claims.beforeGranule h si md s g)
  obtain ⟨later, hpcm⟩ := granule_pcm_prefix h si md s hg
  have hword := pcmWords_getD (hch ▸ hdrChannels_eq h) hlen hi (hch ▸ hc)
  have hlt : i * hdrChannels h + c < (pcmWords (granuleOut h si g (Claims.beforeGranule h si md s g)).2).length := by
    rw [length_pcmWords _ 576 (hch ▸ hdrChannels_eq h) hlen, hch]
    exact sampleWord_lt hi hc
  have hpos : (576 * g + i) * hdrChannels h + c = (Claims.beforeGranule h si md s g).pcm.length + (i * hdrChannels h + c) := by
    rw [length_beforeGranule]
    ring
  rw [hch] at hword
  rw [hpos, ← hpcm, List.append_assoc, List.getD_append_right _ _ _ _ (Nat.le_add_right _ _), Nat.add_sub_cancel_left,
    List.getD_append _ _ _ _ hlt, hword, Claims.granuleSamples]

/-! ### The samples of one channel (R330, R333) -/

/-- Each decoded channel's samples and new signal state come from its own transform and synthesis. -/
theorem granuleOut_channel (h : Word) (si : SideInfo) (g : Nat) (w : FrameWork) {c : Nat} (hc : c < hdrChannels h) :
    ∃ x : Vector Word 576, ((granuleOut h si g w).2.getD c [], Claims.channelOf (granuleOut h si g w).1 c) =
      channelOut h (si.at g c) x (Claims.channelOf w c) := by
  unfold granuleOut
  rcases hdrChannels_eq h with hch | hch <;> rw [hch] at hc ⊢
  · obtain rfl : c = 0 := by omega
    exact ⟨_, rfl⟩
  · obtain rfl | rfl : c = 0 ∨ c = 1 := by omega
    · exact ⟨_, rfl⟩
    · exact ⟨_, rfl⟩

theorem length_synthCall (x : List Word) (hist : Vector Row 15) : (synthCall x hist).1.length = 32 := by simp [synthCall]

/-- Sample `32*k + j` of a run of synthesis calls from slot `t` is `y[j]` of the call of slot `t + k`. -/
theorem synthFrom_getD (S : Vector Word 576) (hist : Vector Row 15) {n t k j : Nat} (hk : k < n) (hj : j < 32) :
    (synthFrom S n t (Claims.historyAt S hist t)).1.getD (32 * k + j) 0 =
      (synthCall (slot S (t + k)) (Claims.historyAt S hist (t + k))).1.getD j 0 := by
  induction n generalizing t k with
  | zero => exact absurd hk (Nat.not_lt_zero k)
  | succ n ih =>
    have hsucc : (synthFrom S (n + 1) t (Claims.historyAt S hist t)).1 =
        (synthCall (slot S t) (Claims.historyAt S hist t)).1 ++ (synthFrom S n (t + 1) (Claims.historyAt S hist (t + 1))).1 := rfl
    have hlen := length_synthCall (slot S t) (Claims.historyAt S hist t)
    rw [hsucc]
    cases k with
    | zero => rw [Nat.mul_zero, Nat.zero_add, List.getD_append _ _ _ _ (hj.trans_eq hlen.symm), Nat.add_zero]
    | succ k =>
      rw [List.getD_append_right _ _ _ _ (by omega), hlen, show 32 * (k + 1) + j - 32 = 32 * k + j by omega,
        ih (Nat.lt_of_succ_lt_succ hk), Nat.add_right_comm, Nat.add_assoc]

end Sys2Proof.Machine

namespace Sys2Proof.Proofs
open Sys2Proof.Machine Sys2Proof.Claims

/-- Settles O55: the store writes the value's low bytes, which read back as the value's low bits. -/
theorem inBufStoreIsLittleEndian : Obligations.InBufStoreIsLittleEndian := by
  intro s w off v hbusy hr ha
  refine ⟨_, hostWrite_inBuf hr ha hbusy v, rfl, fun k hk => ?_, fun a ha' => ?_, ?_⟩
  · rw [read_write_inside _ _ _ k (by simpa using hk), bytesLE_getD hk]
  · exact read_write_outside _ _ _ a (by simpa using ha')
  · rw [hostStep, hostRead_inBuf hr ha, readLE_write_bytesLE]
    rfl

/-- Settles O56: a read returns what stands at its offset or, while BUSY = 1 at the offsets R440.2 names, a free value. -/
theorem hostReadsHaveNoSideEffect : Obligations.HostReadsHaveNoSideEffect := by
  intro s t w off h
  have hclosed (hc : s.busy = false ∨ ¬OpenWhileBusy off.toNat) : t = s.returnData (s.windowValue w off.toNat) := by
    obtain ⟨hbusy, hopen, -⟩ | ⟨-, ht⟩ := hostRead_cases h
    · exact absurd hc (by simp [hbusy, hopen])
    · exact ht
  refine ⟨?_, fun hc => by rw [hclosed hc]; rfl, fun v hv hc => ?_, fun hr hv => ?_, fun hr => ?_, fun hr => ?_⟩
  · obtain ⟨_, _, rfl⟩ := hostRead_next h
    rfl
  · obtain ⟨hoff, rfl⟩ := readReg_of_registerMap hv
    rw [hclosed hc]
    exact windowValue_reg (by simp [regionOf, hoff]) w
  · rw [hclosed (.inr fun ho => hv (mem_registerMap_of_openWhileBusy hr ho s))]
    exact (windowValue_reg hr w).trans (readReg_reserved s hv)
  · rw [hclosed (hr.symm.imp And.right fun hin => not_openWhileBusy (.inl hin))]
    exact windowValue_buffer (hr.imp_right And.left) w
  · rw [hclosed (.inr (not_openWhileBusy (.inr hr)))]
    exact windowValue_unmapped hr w

/-- Settles O57: what is answered was admitted, and what is admitted is answered. -/
theorem onlyUndulyHostStepsAreRefused : Obligations.OnlyUndulyHostStepsAreRefused := fun _ _ =>
  ⟨fun ⟨_, ht⟩ => admitted_of_hostStep ht, fun h => (hostStep_admitted h).imp fun _ ht => ht.1⟩

/-- Settles O59, from the word list up to the frame's samples. -/
theorem pcmWordLayout : Obligations.PcmWordLayout := by
  refine ⟨writePcm_spec, fun y0 y1 n hlen hn => ?_, fun h si md s s' g i c hg hi hc => ?_,
    fun h si g w c hc => granuleOut_channel h si g w hc, fun h gi x ch t j ht hj => ?_⟩
  · obtain ⟨heven, hodd⟩ := interleave_getD y0 y1 n hlen hn
    exact ⟨heven, hodd, length_interleave y0 y1 hlen⟩
  · have hlt : (576 * g + i) * hdrChannels h + c < (decodeMainData h si md s).pcm.length := by
      rw [length_decodeMainData]
      exact sampleWord_lt (by omega) hc
    rw [(writePcm_spec _ s').1 _ hlt, decodeMainData_pcm_getD h si md s hg hi hc]
  · have hcall := synthFrom_getD (transform (hdrSfreq h) gi x ch.overlap).1 ch.history (t := 0) ht hj
    rwa [Nat.zero_add] at hcall

/-- Settles O27: a header row does nothing but a step of the search. -/
theorem headersOutsideASearchAreRefused : Obligations.HeadersOutsideASearchAreRefused := by
  intro i s hi hidle
  obtain ⟨act, hexec⟩ := exec_header_whenScanning hi
  rw [hexec s, whenScanning_refused hidle]

/-- Settles O58, from the answers of reads and writes outside REG and IN_BUF. -/
theorem unmappedAndPcmWritesAreIgnored : Obligations.UnmappedAndPcmWritesAreIgnored := by
  intro s w off v ha
  exact ⟨fun hr => ⟨hostRead_unmapped hr ha, hostWrite_ignored (.inr hr) ha v s⟩, fun hr => hostWrite_ignored (.inl hr) ha v s⟩

end Sys2Proof.Proofs
end

section
/-! Proofs about the encodings: both decoders invert the encoder and are inverted by it, valid and invalid headers, what the engine
does at each kind of header under a search, and the codewords the spec gives (`30_encoding.md`). -/

namespace Sys2Proof.Machine
open Sys2Proof.Claims

/-- Words put together from pieces of the same lengths are equal only piece by piece. -/
theorem bits_append_inj {n m : Nat} {x x' : BitVec n} {y y' : BitVec m} : x ++ y = x' ++ y' ↔ x = x' ∧ y = y' := by
  refine ⟨fun h => ⟨?_, ?_⟩, fun ⟨hx, hy⟩ => by rw [hx, hy]⟩
  · simpa only [BitVec.extractLsb'_append_eq_left] using congrArg (BitVec.extractLsb' m n) h
  · simpa only [BitVec.extractLsb'_append_eq_right] using congrArg (BitVec.extractLsb' 0 m) h

/-! ### Command words (R100, R101) -/

/-- GETBITS n is the word 4 + 32n. -/
theorem encode_getbits (n : BitVec 6) : encode (.getbits n) = BitVec.ofNat 32 (4 + 32 * n.toNat) := by
  revert n; decide

theorem matchesRow_full {w p : Word} : matchesRow w 0xFFFFFFFF p = true ↔ w = p := by
  rw [matchesRow, beq_iff_eq, show (0xFFFFFFFF : Word) = BitVec.allOnes 32 from rfl, BitVec.and_allOnes]

/-- A command word is its reserved bits, GETBITS's count and the five bits below it. -/
theorem word_of_count (w : Word) : w = w.extractLsb' 11 21 ++ w.extractLsb' 5 6 ++ w.extractLsb' 0 5 := by
  rw [show w.extractLsb' 11 21 ++ w.extractLsb' 5 6 = w.extractLsb' 5 27 from extract_append w 5 21 6,
    show w.extractLsb' 5 27 ++ w.extractLsb' 0 5 = w.extractLsb' 0 32 from extract_append w 0 27 5, BitVec.extractLsb'_eq_self]

/-- The row of GETBITS leaves only the count free. -/
theorem matchesRow_getbits {w : Word} : matchesRow w 0xFFFFF81F 4 = true ↔ w = encode (.getbits (w.extractLsb' 5 6)) := by
  have hmask : (0xFFFFF81F : Word) = BitVec.allOnes 21 ++ (0 : BitVec 6) ++ BitVec.allOnes 5 := rfl
  have hrow : (4 : Word) = (0 : BitVec 21) ++ (0 : BitVec 6) ++ (4 : BitVec 5) := rfl
  have hword := word_of_count w
  generalize w.extractLsb' 11 21 = high at hword
  generalize w.extractLsb' 5 6 = count at hword ⊢
  generalize w.extractLsb' 0 5 = low at hword
  rw [matchesRow, beq_iff_eq, hmask, hrow, hword, BitVec.and_append, BitVec.and_append, BitVec.and_allOnes, BitVec.and_allOnes,
    encode, bits_append_inj, bits_append_inj, bits_append_inj, bits_append_inj]
  simp

/-- The legal command words (R101). -/
theorem isCommandRow_iff {w : Word} :
    isCommandRow w = true ↔ w = 1 ∨ w = 2 ∨ w = 0x12 ∨ w = 3 ∨ ∃ n : BitVec 6, n.toNat ≤ 32 ∧ w = encode (.getbits n) := by
  have hcount : matchesRow w 0xFFFFF81F 4 = true ∧ (w.extractLsb' 5 6).toNat ≤ 32
      ↔ ∃ n : BitVec 6, n.toNat ≤ 32 ∧ w = encode (.getbits n) := by
    rw [matchesRow_getbits]
    refine ⟨fun ⟨hw, hn⟩ => ⟨_, hn, hw⟩, ?_⟩
    rintro ⟨n, hn, rfl⟩
    have hfield : (encode (.getbits n)).extractLsb' 5 6 = n := by revert n; decide
    rw [hfield]
    exact ⟨rfl, hn⟩
  simp only [isCommandRow, Bool.or_eq_true, Bool.and_eq_true, decide_eq_true_eq, matchesRow_full, hcount, or_assoc]

theorem decodeCommand_getbits {n : BitVec 6} (hn : n.toNat ≤ 32) : decodeCommand (encode (.getbits n)) = .getbits n := by
  revert n; decide

/-- The value of a command word from the fields its decoder tests (R100). -/
theorem toNat_of_commandFields (w : Word) :
    w.toNat = 2048 * (w.extractLsb' 11 21).toNat + 32 * (w.extractLsb' 5 6).toNat + 16 * (w.getLsbD 4).toNat + (w.extractLsb' 0 4).toNat
      ∧ (w.extractLsb' 4 7).toNat = 2 * (w.extractLsb' 5 6).toNat + (w.getLsbD 4).toNat := by
  have hw := w.isLt
  have hbit : (w.getLsbD 4).toNat = w.toNat / 16 % 2 := by rw [BitVec.getLsbD, Nat.toNat_testBit]
  simp only [hbit, BitVec.extractLsb'_toNat, Nat.shiftRight_eq_div_pow]
  omega

/-- A word of no legal row is read as reserved: the fields of every other branch give a legal word. -/
theorem decodeCommand_illegal {w : Word} (h : isCommandRow w = false) : decodeCommand w = .illegal w := by
  have hlegal (hw : w = 1 ∨ w = 2 ∨ w = 0x12 ∨ w = 3 ∨ ∃ n : BitVec 6, n.toNat ≤ 32 ∧ w = encode (.getbits n)) : False := by
    simp [isCommandRow_iff.mpr hw] at h
  by_cases hhigh : w.extractLsb' 11 21 = 0
  · obtain ⟨hvalue, hmid⟩ := toNat_of_commandFields w
    simp only [decodeCommand, hhigh, ne_eq, not_true_eq_false, if_false]
    split_ifs with hreset hdecode hnw hprobe hget
    · rw [hhigh, hreset.1] at hvalue
      rw [hreset.2] at hmid
      exact (hlegal (.inl (by bv_omega))).elim
    · rw [hhigh, hdecode.1, hdecode.2, hnw] at hvalue
      exact (hlegal (.inr (.inr (.inl (by bv_omega))))).elim
    · rw [hhigh, hdecode.1, hdecode.2, eq_false_of_ne_true hnw] at hvalue
      exact (hlegal (.inr (.inl (by bv_omega)))).elim
    · rw [hhigh, hprobe.1] at hvalue
      rw [hprobe.2] at hmid
      exact (hlegal (.inr (.inr (.inr (.inl (by bv_omega)))))).elim
    · obtain ⟨hop, hlow, hcount⟩ := hget
      rw [hhigh, hop, hlow] at hvalue
      refine (hlegal (.inr (.inr (.inr (.inr ⟨_, hcount, ?_⟩))))).elim
      rw [encode_getbits]
      bv_omega
    · rfl
  · simp only [decodeCommand, ne_eq, hhigh, not_false_eq_true, if_true]

theorem decodeCommand_encode {i : Instr} (hi : i.space = .command) (hwf : i.wf = true) : decodeCommand (encode i) = i := by
  cases i with
  | reset | decode | decodeNw | probe => rfl
  | getbits n => exact decodeCommand_getbits (by simpa [Instr.wf] using hwf)
  | illegal w => exact decodeCommand_illegal (w := w) (by simpa [Instr.wf] using hwf)
  | _ => exact nomatch hi

/-- Every word is the encoding of a command instruction, legal or reserved (R101). -/
theorem exists_command_of_word (w : Word) : ∃ i : Instr, i.wf = true ∧ i.space = .command ∧ encode i = w := by
  cases hrow : isCommandRow w with
  | false => exact ⟨.illegal w, by simp [Instr.wf, hrow], rfl, rfl⟩
  | true =>
    obtain rfl | rfl | rfl | rfl | ⟨n, hn, rfl⟩ := isCommandRow_iff.mp hrow
    · exact ⟨.reset, rfl, rfl, rfl⟩
    · exact ⟨.decode, rfl, rfl, rfl⟩
    · exact ⟨.decodeNw, rfl, rfl, rfl⟩
    · exact ⟨.probe, rfl, rfl, rfl⟩
    · exact ⟨.getbits n, by simpa [Instr.wf] using hn, rfl, rfl⟩

/-! ### The branches of the header decoder (R117, R118) -/

/-- The two sync fields of R110 are the eleven sync bits. -/
theorem sync_iff {h : Word} : h.extractLsb' 21 11 = 0x7FF ↔ h.extractLsb' 24 8 = 0xFF ∧ h.extractLsb' 21 3 = 7 := by
  rw [← show h.extractLsb' 24 8 ++ h.extractLsb' 21 3 = h.extractLsb' 21 11 from extract_append h 21 8 3,
    show (0x7FF : BitVec 11) = (0xFF : BitVec 8) ++ (7 : BitVec 3) from rfl, bits_append_inj]

section
variable {h : Word} (hsync : h.extractLsb' 21 11 = 0x7FF)
include hsync

theorem decodeHeader_bitrate15 (hb : h.extractLsb' 12 4 = 15) :
    decodeHeader h = .ok (.invalidBitrate15 (h.extractLsb' 16 5) (h.extractLsb' 0 12)) := by
  obtain ⟨hfirst, hthree⟩ := sync_iff.mp hsync
  rw [decodeHeader, if_neg (not_not.mpr hfirst), if_neg (not_not.mpr hthree), if_pos hb]

theorem decodeHeader_sr3 (hb : h.extractLsb' 12 4 ≠ 15) (hs : h.extractLsb' 10 2 = 3) :
    decodeHeader h = .ok (.invalidSr3 (h.extractLsb' 12 9) (h.extractLsb' 0 10)) := by
  obtain ⟨hfirst, hthree⟩ := sync_iff.mp hsync
  rw [decodeHeader, if_neg (not_not.mpr hfirst), if_neg (not_not.mpr hthree), if_neg hb, if_pos hs]

theorem decodeHeader_kind (hb : h.extractLsb' 12 4 ≠ 15) (hs : h.extractLsb' 10 2 ≠ 3) : decodeHeader h = .ok (headerKind h) := by
  obtain ⟨hfirst, hthree⟩ := sync_iff.mp hsync
  rw [decodeHeader, if_neg (not_not.mpr hfirst), if_neg (not_not.mpr hthree), if_neg hb, if_neg hs]

end

/-- What a word that the header decoder reads can be. -/
theorem decodeHeader_cases {h : Word} {i : Instr} (hd : decodeHeader h = .ok i) :
    h.extractLsb' 21 11 = 0x7FF ∧
      ((h.extractLsb' 12 4 = 15 ∧ i = .invalidBitrate15 (h.extractLsb' 16 5) (h.extractLsb' 0 12))
        ∨ (h.extractLsb' 12 4 ≠ 15 ∧ h.extractLsb' 10 2 = 3 ∧ i = .invalidSr3 (h.extractLsb' 12 9) (h.extractLsb' 0 10))
        ∨ (h.extractLsb' 12 4 ≠ 15 ∧ h.extractLsb' 10 2 ≠ 3 ∧ i = headerKind h)) := by
  rw [sync_iff]
  unfold decodeHeader at hd
  split_ifs at hd with hfirst hthree hb hs <;> cases hd
  · exact ⟨⟨not_not.mp hfirst, not_not.mp hthree⟩, .inl ⟨hb, rfl⟩⟩
  · exact ⟨⟨not_not.mp hfirst, not_not.mp hthree⟩, .inr (.inl ⟨hb, hs, rfl⟩)⟩
  · exact ⟨⟨not_not.mp hfirst, not_not.mp hthree⟩, .inr (.inr ⟨hb, hs, rfl⟩)⟩

/-! ### Decoded headers are well-formed (R111) -/

theorem headerFields_wf {h : Word} : (headerFields h).wf = true ↔ h.extractLsb' 12 4 ≠ 15 ∧ h.extractLsb' 10 2 ≠ 3 := by
  simp [HeaderFields.wf, headerFields]

/-- The kind of a header whose indexes are legal is well-formed: by its fields, or by the low bits of an invalid row. -/
theorem headerKind_wf {h : Word} (hb : h.extractLsb' 12 4 ≠ 15) (hs : h.extractLsb' 10 2 ≠ 3) : (headerKind h).wf = true := by
  have hfields : (headerFields h).wf = true := headerFields_wf.mpr ⟨hb, hs⟩
  have hlow (n : Nat) (hn : 16 ≤ n) :
      indexBitsFree ((h.extractLsb' 0 n).extractLsb' 12 4) ((h.extractLsb' 0 n).extractLsb' 10 2) = true := by
    rw [BitVec.extractLsb'_extractLsb'_of_le (by omega), BitVec.extractLsb'_extractLsb'_of_le (by omega)]
    simp only [indexBitsFree, bne_iff_ne.mpr hb, bne_iff_ne.mpr hs, Bool.and_self]
  unfold headerKind
  split
  case h_1 | h_2 | h_3 | h_5 | h_6 | h_7 | h_11 => exact hfields
  case h_4 | h_8 | h_9 | h_10 | h_12 => exact hlow 17 (by omega)
  case h_13 => exact hlow 19 (by omega)

theorem decodeHeader_wf {h : Word} {i : Instr} (hd : decodeHeader h = .ok i) : i.wf = true := by
  obtain ⟨-, ⟨-, rfl⟩ | ⟨hb, -, rfl⟩ | ⟨hb, hs, rfl⟩⟩ := decodeHeader_cases hd
  · rfl
  · have hbitrate : (h.extractLsb' 12 9).extractLsb' 0 4 = h.extractLsb' 12 4 := by
      ext k hk
      simp [show k < 9 by omega]
    simpa [Instr.wf, hbitrate] using hb
  · exact headerKind_wf hb hs

/-! ### The header decoder inverts the encoder (R110, R117, R118) -/

/-- Two headers with the same low bits have the same fields. -/
theorem headerFields_encode_inj {f g : HeaderFields} (h : f.encode = g.encode) : f = g := by
  obtain ⟨hpieces, hemphasis⟩ := bits_append_inj.mp h
  simp only [bits_append_inj] at hpieces
  cases f
  cases g
  simp_all only

theorem headerOf_low (t : BitVec 15) (r : BitVec 17) : (headerOf t r).extractLsb' 0 17 = r := BitVec.extractLsb'_append_eq_right

theorem headerFields_headerOf (t : BitVec 15) (f : HeaderFields) : headerFields (headerOf t f.encode) = f :=
  headerFields_encode_inj ((encode_headerFields _).trans (headerOf_low t f.encode))

/-- The two indexes of a word put together from its top bits and the rest. -/
theorem indexes_headerOf (t : BitVec 15) (r : BitVec 17) :
    (headerOf t r).extractLsb' 12 4 = r.extractLsb' 12 4 ∧ (headerOf t r).extractLsb' 10 2 = r.extractLsb' 10 2 :=
  ⟨extract_append_lo t r 12 4 (by omega), extract_append_lo t r 10 2 (by omega)⟩

theorem indexBitsFree_encode {f : HeaderFields} (hf : f.wf = true) :
    indexBitsFree (f.encode.extractLsb' 12 4) (f.encode.extractLsb' 10 2) = true := by
  obtain ⟨hbitrate, hsr⟩ := indexes_headerOf 0 f.encode
  rw [← headerFields_headerOf 0 f, headerFields_wf, hbitrate, hsr] at hf
  simpa [indexBitsFree] using hf

/-- A word put together from synchronised top bits and legal indexes is read as its kind. -/
theorem decodeHeader_headerOf {t : BitVec 15} {r : BitVec 17} (ht : t.extractLsb' 4 11 = 0x7FF)
    (hr : indexBitsFree (r.extractLsb' 12 4) (r.extractLsb' 10 2) = true) : decodeHeader (headerOf t r) = .ok (headerKind (headerOf t r)) := by
  obtain ⟨hbitrate, hsr⟩ := indexes_headerOf t r
  simp only [indexBitsFree, Bool.and_eq_true, bne_iff_ne] at hr
  exact decodeHeader_kind ((extract_append_hi t r 4 11).trans ht) (hbitrate ▸ hr.1) (hsr ▸ hr.2)

theorem decodeHeader_encode_version01 {r : BitVec 19} (hwf : (Instr.invalidVersion01 r).wf = true) :
    decodeHeader (encode (.invalidVersion01 r)) = .ok (.invalidVersion01 r) := by
  have hsync : (encode (.invalidVersion01 r)).extractLsb' 21 11 = 0x7FF := extract_append_hi (0x1FFD : BitVec 13) r 2 11
  have hversion : (encode (.invalidVersion01 r)).extractLsb' 19 2 = 1 := extract_append_hi (0x1FFD : BitVec 13) r 0 2
  have hlow (i n : Nat) (hn : i + n ≤ 19) : (encode (.invalidVersion01 r)).extractLsb' i n = r.extractLsb' i n :=
    extract_append_lo (0x1FFD : BitVec 13) r i n hn
  simp only [Instr.wf, indexBitsFree, Bool.and_eq_true, bne_iff_ne] at hwf
  rw [decodeHeader_kind hsync (hlow 12 4 (by omega) ▸ hwf.1) (hlow 10 2 (by omega) ▸ hwf.2), headerKind, hversion,
    hlow 0 19 (by omega), BitVec.extractLsb'_eq_self]
  rfl

theorem decodeHeader_encode_bitrate15 (high : BitVec 5) (low : BitVec 12) :
    decodeHeader (encode (.invalidBitrate15 high low)) = .ok (.invalidBitrate15 high low) := by
  obtain ⟨hbitrate, hsync⟩ := Laws.RowMatch.invalidBitrate15 high low
  have hd := decodeHeader_bitrate15 hsync hbitrate
  obtain ⟨htop, hlow⟩ := bits_append_inj.mp (encode_of_decodeHeader hd)
  obtain ⟨htop, -⟩ := bits_append_inj.mp htop
  obtain ⟨-, hhigh⟩ := bits_append_inj.mp htop
  rw [hd, hhigh, hlow]

theorem decodeHeader_encode_sr3 {high : BitVec 9} {low : BitVec 10} (hwf : (Instr.invalidSr3 high low).wf = true) :
    decodeHeader (encode (.invalidSr3 high low)) = .ok (.invalidSr3 high low) := by
  obtain ⟨hsr, hsync⟩ := Laws.RowMatch.invalidSr3 high low
  have hbitrate : (encode (.invalidSr3 high low)).extractLsb' 12 4 = high.extractLsb' 0 4 :=
    (extract_append_hi ((0x7FF : BitVec 11) ++ high ++ (3 : BitVec 2)) low 2 4).trans
      ((extract_append_hi ((0x7FF : BitVec 11) ++ high) (3 : BitVec 2) 0 4).trans
        (extract_append_lo (0x7FF : BitVec 11) high 0 4 (by omega)))
  have hd := decodeHeader_sr3 hsync (hbitrate ▸ bne_iff_ne.mp hwf) hsr
  obtain ⟨htop, hlow⟩ := bits_append_inj.mp (encode_of_decodeHeader hd)
  obtain ⟨htop, -⟩ := bits_append_inj.mp htop
  obtain ⟨-, hhigh⟩ := bits_append_inj.mp htop
  rw [hd, hhigh, hlow]

theorem decodeHeader_encode {i : Instr} (hi : i.space = .header) (hwf : i.wf = true) : decodeHeader (encode i) = .ok i := by
  cases i with
  | reset | decode | decodeNw | probe | getbits _ | illegal _ => exact nomatch hi
  | mpeg1L3 f | mpeg2L3 f | mpeg25L3 f | mpeg1L1 f | mpeg1L2 f | mpeg2L1 f | mpeg2L2 f =>
    rw [encode, decodeHeader_headerOf (by decide) (indexBitsFree_encode hwf), headerKind, (codes_headerOf _ _).1, (codes_headerOf _ _).2,
      headerFields_headerOf]
    rfl
  | invalidLayer00Mpeg1 r | invalidLayer00Mpeg2 r | invalidLayer00Mpeg25 r | invalidMpeg25L1 r | invalidMpeg25L2 r =>
    rw [encode, decodeHeader_headerOf (by decide) hwf, headerKind, (codes_headerOf _ _).1, (codes_headerOf _ _).2, headerOf_low]
    rfl
  | invalidVersion01 r => exact decodeHeader_encode_version01 hwf
  | invalidBitrate15 high low => exact decodeHeader_encode_bitrate15 high low
  | invalidSr3 high low => exact decodeHeader_encode_sr3 hwf

/-! ### Valid headers (R111, R117, R118) -/

theorem hdrBitrateIndex_eq_15 {h : Word} : hdrBitrateIndex h = 15 ↔ h.extractLsb' 12 4 = 15 :=
  BitVec.toNat_inj (y := (15 : BitVec 4))

theorem hdrSrIndex_eq_3 {h : Word} : hdrSrIndex h = 3 ↔ h.extractLsb' 10 2 = 3 :=
  BitVec.toNat_inj (y := (3 : BitVec 2))

/-- H[20] is the high bit of the version code: MPEG-1 and MPEG-2 have it. -/
theorem getLsbD_20_iff {h : Word} : h.getLsbD 20 = true ↔ 2 ≤ hdrVersionCode h := by
  have hhigh (v : BitVec 2) : v.getLsbD 1 = true ↔ 2 ≤ v.toNat := by revert v; decide
  have hbit : (h.extractLsb' 19 2).getLsbD 1 = h.getLsbD 20 := by simp
  rw [← hbit, hhigh, hdrVersionCode]

/-- The valid kinds by version and layer code (R117). -/
theorem isValidKind_headerKind {h : Word} :
    isValidKind (headerKind h) = true ↔
      hdrLayerCode h ≠ 0 ∧ (2 ≤ hdrVersionCode h ∨ hdrVersionCode h = 0 ∧ hdrLayerCode h = 1) := by
  have hversion := hdrVersionCode_lt h
  have hlayer := hdrLayerCode_lt h
  rw [hdrVersionCode] at *
  rw [hdrLayerCode] at *
  unfold headerKind
  split <;> simp only [isValidKind] <;> grind

/-- R111's validity in the decoder's terms. -/
theorem hdrValid_iff {h : Word} :
    hdrValid h = true ↔
      h.extractLsb' 21 11 = 0x7FF ∧ h.extractLsb' 12 4 ≠ 15 ∧ h.extractLsb' 10 2 ≠ 3 ∧ isValidKind (headerKind h) = true := by
  simp only [hdrValid, Bool.and_eq_true, Bool.or_eq_true, beq_iff_eq, bne_iff_ne, ne_eq, hdrBitrateIndex_eq_15, hdrSrIndex_eq_3,
    getLsbD_20_iff, Config.mpeg25, true_and, ← sync_iff, isValidKind_headerKind]
  tauto

/-- A header is valid exactly when the decoder names one of the seven valid kinds. -/
theorem hdrValid_iff_decodeHeader {h : Word} : hdrValid h = true ↔ ∃ i, decodeHeader h = .ok i ∧ isValidKind i = true := by
  rw [hdrValid_iff]
  constructor
  · rintro ⟨hsync, hb, hs, hkind⟩
    exact ⟨_, decodeHeader_kind hsync hb hs, hkind⟩
  · rintro ⟨i, hd, hi⟩
    obtain ⟨hsync, ⟨-, rfl⟩ | ⟨-, -, rfl⟩ | ⟨hb, hs, rfl⟩⟩ := decodeHeader_cases hd
    · exact nomatch hi
    · exact nomatch hi
    · exact ⟨hsync, hb, hs, hi⟩

/-- R118's invalid encodings fail R111's test. -/
theorem hdrValid_of_invalidHeader {h : Word} (hi : InvalidHeader h) : hdrValid h = false := by
  have hsync (hv : hdrValid h = true) := sync_iff.mp (hdrValid_iff.mp hv).1
  obtain hfirst | hthree | hversion | hlayer | ⟨hversion, hlayer⟩ | ⟨-, hoff⟩ | hbitrate | hsr := hi
  · exact Bool.eq_false_iff.mpr fun hv => hfirst (hsync hv).1
  · exact Bool.eq_false_iff.mpr fun hv => hthree (hsync hv).2
  · exact hdrValid_of_version01 (BitVec.eq_of_toNat_eq hversion)
  · exact hdrValid_of_layer0 (BitVec.eq_of_toNat_eq hlayer)
  · refine hdrValid_of_mpeg25 (BitVec.eq_of_toNat_eq hversion) fun hone => ?_
    have hcode : hdrLayerCode h = 1 := congrArg BitVec.toNat hone
    omega
  · exact nomatch hoff
  · exact hdrValid_of_bitrate15 (hdrBitrateIndex_eq_15.mp hbitrate)
  · exact hdrValid_of_sr3 (hdrSrIndex_eq_3.mp hsr)

/-! ### The kinds of the header rows -/

theorem space_of_isValidKind {i : Instr} (h : isValidKind i = true) : i.space = .header := by
  cases i with
  | mpeg1L3 f | mpeg2L3 f | mpeg25L3 f | mpeg1L1 f | mpeg1L2 f | mpeg2L1 f | mpeg2L2 f => rfl
  | _ => exact nomatch h

theorem isInvalidKind_iff {i : Instr} : isInvalidKind i = true ↔ i.space = .header ∧ isValidKind i = false := by
  simp [isInvalidKind]

/-- An invalid row is no valid header (R118): the decoder names the row, which is no valid kind. -/
theorem hdrValid_of_isInvalidKind {i : Instr} (hwf : i.wf = true) (hi : isInvalidKind i = true) : hdrValid (encode i) = false := by
  obtain ⟨hspace, hkind⟩ := isInvalidKind_iff.mp hi
  refine Bool.eq_false_iff.mpr fun hv => ?_
  obtain ⟨j, hd, hj⟩ := hdrValid_iff_decodeHeader.mp hv
  cases (decodeHeader_encode hspace hwf).symm.trans hd
  exact absurd hj (by simp [hkind])

theorem hdrLayer_headerOf (t : BitVec 15) (r : BitVec 17) : hdrLayer (headerOf t r) = 4 - (t.extractLsb' 0 2).toNat := by
  rw [hdrLayer, hdrLayerCode, (codes_headerOf t r).2]

theorem header_of_isLayer3Kind {i : Instr} (h : isLayer3Kind i = true) : i.space = .header ∧ hdrLayer (encode i) = 3 := by
  cases i with
  | mpeg1L3 f | mpeg2L3 f | mpeg25L3 f => exact ⟨rfl, hdrLayer_headerOf _ _⟩
  | _ => exact nomatch h

theorem header_of_isLayer12Kind {i : Instr} (h : isLayer12Kind i = true) : i.space = .header ∧ hdrLayer (encode i) ≠ 3 := by
  cases i with
  | mpeg1L1 f | mpeg1L2 f | mpeg2L1 f | mpeg2L2 f =>
    rw [encode, hdrLayer_headerOf]
    exact ⟨rfl, by decide⟩
  | _ => exact nomatch h

/-! ### Header rows met by a search (R190) -/

theorem candidate_eq_some_iff_frameAt {S : Slice} {pos fl ff : Nat} {h : Word} :
    candidate S pos h = some (fl, ff) ↔ FrameAt S pos h fl ff := candidate_eq_some S pos h fl ff

theorem candidate_eq_none_iff_frameAt {S : Slice} {pos : Nat} {h : Word} :
    candidate S pos h = none ↔ ∀ fl ff, ¬FrameAt S pos h fl ff := by
  simp only [Option.eq_none_iff_forall_ne_some, Prod.forall, ne_eq, candidate_eq_some_iff_frameAt]

section
variable {i : Instr} {mode : ScanMode} {pos : Nat} {s : State} (hi : i.space = .header) (he : s.engine = .scan mode pos)
include hi he

/-- A search that stands before a genuine frame hands it to its command. -/
theorem exec_genuine {fl ff : Nat} (hf : FrameAt s.slice pos (encode i) fl ff) :
    exec i s = .next (onLocated mode pos fl ff (encode i) s) := by
  rw [exec_header hi he, scanHeader, candidate_eq_some_iff_frameAt.mpr hf]

/-- A search that stands before no frame moves on. -/
theorem exec_passed (hc : candidate s.slice pos (encode i) = none) : exec i s = .next (scanNext mode pos s) := by
  rw [exec_header hi he, scanHeader, hc]

end

/-- Moving on from a candidate touches neither DecoderState nor the host's side (R190, R191). -/
theorem scanNext_frame (mode : ScanMode) (pos : Nat) (s : State) :
    SameDecoderState s (scanNext mode pos s) ∧ SameInputs s (scanNext mode pos s) ∧ SameBitRegs s (scanNext mode pos s)
      ∧ SameMemory s (scanNext mode pos s) ∧ SameScratch s (scanNext mode pos s) := by
  unfold scanNext
  split
  · exact ⟨⟨rfl, rfl, rfl, rfl, rfl⟩, ⟨rfl, rfl, rfl, rfl, rfl, rfl, rfl, rfl⟩, ⟨rfl, rfl⟩, fun _ => rfl, rfl, rfl⟩
  · exact ⟨⟨rfl, rfl, rfl, rfl, rfl⟩, ⟨rfl, rfl, rfl, rfl, rfl, rfl, rfl, rfl⟩, ⟨rfl, rfl⟩, fun _ => rfl, rfl, rfl⟩

theorem noFrameRow_noFrame (s : State) : NoFrameRow s (noFrame s) :=
  ⟨⟨rfl, rfl, rfl⟩, rfl, rfl, rfl, rfl, rfl, rfl, fun _ => rfl, rfl, rfl⟩

theorem Finished.same {s t : State} (h : Finished s t) : SameInputs s t ∧ SameBitRegs s t :=
  ⟨⟨h.cmd, h.overrun, h.irqEn, h.inOff, h.inLen, h.brLimit, h.bus, h.busData⟩, h.brPos, h.brData⟩

/-! ### The rows of a located frame (R362) -/

/-- What writing PCM words unless NOWRITE does to the window (R336, R361). -/
theorem pcmUnless_emitPcm (nw : Bool) (ws : List Half) (s : State) : PcmUnless nw ws s (s.emitPcm nw ws) := by
  cases nw with
  | true => exact fun _ => rfl
  | false => exact writePcm_spec ws s

/-- Writing PCM words keeps the registers of the located frame. -/
theorem locatedRegs_emitPcm (nw : Bool) (ws : List Half) (off fl : Nat) (h : Word) (s : State) :
    LocatedRegs off fl h ((afterLocation off fl h s).emitPcm nw ws) :=
  ⟨emitPcm_resOffset _ nw ws, emitPcm_resFrameBytes _ nw ws, emitPcm_resInfo _ nw ws, emitPcm_resHz _ nw ws, emitPcm_resKbps _ nw ws⟩

/-- UNSUPPORTED (R371). -/
theorem unsupportedRow (off fl : Nat) (h : Word) (s : State) :
    let t := frameUnsupported (afterLocation off fl h s)
    LocatedRegs off fl h t ∧ Ended .unsupported t ∧ t.resSamples = 0 ∧ DecoderReset t ∧ SameMemory s t ∧ SameScratch s t :=
  ⟨⟨rfl, rfl, rfl, rfl, rfl⟩, ⟨rfl, rfl, rfl⟩, rfl, ⟨rfl, rfl, rfl, rfl, rfl⟩, fun _ => rfl, rfl, rfl⟩

/-- CORRUPT (R370). -/
theorem corruptRow (nw : Bool) (off fl : Nat) (h : Word) (s : State) :
    let t := frameCorrupt nw h (afterLocation off fl h s)
    LocatedRegs off fl h t ∧ Ended .corrupt t ∧ t.resSamples = 0 ∧ DecoderReset t ∧ PcmUnless nw (zeroPcm h) s t ∧ SameScratch s t :=
  ⟨locatedRegs_emitPcm nw _ off fl h s, ⟨rfl, rfl, rfl⟩, rfl, ⟨rfl, rfl, rfl, rfl, rfl⟩,
    pcmUnless_emitPcm nw _ (afterLocation off fl h s), emitPcm_mainData _ nw _, emitPcm_draws _ nw _⟩

/-- RES_UNDERFLOW (R372). -/
theorem underflowRow (nw : Bool) (off fl : Nat) (h : Word) (md : List Byte) (s : State) :
    let t := frameUnderflow nw h md (afterLocation off fl h s)
    LocatedRegs off fl h t ∧ Ended .resUnderflow t ∧ t.resSamples = 0 ∧ t.lastHeader = h ∧ t.freeFormat = s.freeFormat
      ∧ t.chan0 = .zero ∧ t.chan1 = .zero ∧ t.reservoir = reservoirSave md 0 ∧ PcmUnless nw (zeroPcm h) s t ∧ t.mainData = md :=
  ⟨locatedRegs_emitPcm nw _ off fl h s, ⟨rfl, rfl, rfl⟩, rfl, by simp [frameUnderflow, afterLocation],
    by simp [frameUnderflow, afterLocation], rfl, rfl, by simp [frameUnderflow], pcmUnless_emitPcm nw _ (afterLocation off fl h s), rfl⟩

/-- OK (R360). -/
theorem okRow (nw : Bool) (off fl : Nat) (h : Word) (md : List Byte) (w : FrameWork) (s : State) :
    let t := frameOk nw h md w (afterLocation off fl h s)
    LocatedRegs off fl h t ∧ Ended .ok t ∧ t.resSamples = BitVec.ofNat 32 (576 * hdrGranules h) ∧ t.lastHeader = h
      ∧ t.freeFormat = s.freeFormat ∧ t.chan0 = w.chan0 ∧ t.chan1 = w.chan1
      ∧ t.reservoir = reservoirSave md (bytesConsumed w.md.pos) ∧ PcmUnless nw w.pcm s t ∧ t.mainData = md :=
  ⟨locatedRegs_emitPcm nw _ off fl h s, ⟨rfl, rfl, rfl⟩, rfl, by simp [frameOk, afterLocation],
    by simp [frameOk, afterLocation], rfl, rfl, by simp [frameOk], pcmUnless_emitPcm nw _ (afterLocation off fl h s), rfl⟩

/-- The four ways a located Layer III frame ends, in the terms of the claims. -/
theorem decodeLocated_layer3_cases (nw : Bool) (off fl : Nat) {h : Word} (s : State) (hl : hdrLayer h = 3) :
    let check := sideCheck h (sideInfoAt s off fl h).1 (sideInfoAt s off fl h).2
    let u := afterLocation off fl h s
    (check = some .unsupported ∧ decodeLocated nw off fl h s = frameUnsupported u)
    ∨ (∃ c, check = some c ∧ c ≠ .unsupported ∧ decodeLocated nw off fl h s = frameCorrupt nw h u)
    ∨ (check = none ∧ s.reservoir.length < (sideInfoAt s off fl h).1.mainDataBegin
        ∧ decodeLocated nw off fl h s = frameUnderflow nw h (mainDataAt s off fl h) u)
    ∨ (check = none ∧ (sideInfoAt s off fl h).1.mainDataBegin ≤ s.reservoir.length
        ∧ decodeLocated nw off fl h s = frameOk nw h (mainDataAt s off fl h)
            (decodeMainData h (sideInfoAt s off fl h).1 (mainDataAt s off fl h) s) u) := by
  rw [decodeLocated_eq, if_pos hl]
  exact decodeLayer3_cases nw off fl h (afterLocation off fl h s)

/-- A located frame ends in its row of R362's table. -/
theorem locatedRows_decodeLocated (nw : Bool) (off fl : Nat) (h : Word) (s : State) :
    LocatedRows nw off fl h s (decodeLocated nw off fl h s) := by
  unfold LocatedRows
  by_cases hl : hdrLayer h = 3
  · rw [if_neg (not_not.mpr hl)]
    obtain ⟨hside, hrun⟩ | ⟨c, hside, hc, hrun⟩ | ⟨hside, hres, hrun⟩ | ⟨hside, hres, hrun⟩ :=
      decodeLocated_layer3_cases nw off fl s hl
    · rw [hrun, hside]
      exact unsupportedRow off fl h s
    · rw [hrun, hside]
      obtain ⟨hregs, hrow⟩ := corruptRow nw off fl h s
      refine ⟨hregs, ?_⟩
      split
      · exact absurd (Option.some.inj ‹_›) hc
      · exact hrow
      · exact nomatch ‹some c = none›
    · rw [hrun, hside]
      dsimp only
      rw [if_pos hres]
      exact underflowRow nw off fl h _ s
    · rw [hrun, hside]
      dsimp only
      rw [if_neg (Nat.not_lt.mpr hres)]
      obtain ⟨hregs, hend, hsamples, hlast, hfree, hchan0, hchan1, hsave, hpcm, hmd⟩ := okRow nw off fl h (mainDataAt s off fl h)
        (decodeMainData h (sideInfoAt s off fl h).1 (mainDataAt s off fl h) s) s
      exact ⟨hregs, hend, hsamples, hlast, hfree, hchan0, hchan1, hsave, length_decodeMainData h _ _ _, hpcm, hmd⟩
  · rw [if_pos hl, decodeLocated_eq, if_neg hl]
    exact unsupportedRow off fl h s

/-! ### Codewords (R151, R152, R255) -/

/-- The leaf at the end of a codeword, if the codeword is one of the code's. -/
def leafAt {α : Type} : PrefixCode α → List Bool → Option α
  | .leaf a, [] => some a
  | .node zero one, b :: bits => leafAt (if b then one else zero) bits
  | _, _ => none

/-- The first of the upcoming bits is the next raw bit, and the others come after it. -/
theorem upcoming_cons {r : BitReader} {b : Bool} {bits : List Bool} (h : Upcoming r (b :: bits)) :
    r.rawBit = (b, { r with pos := r.pos + 1 }) ∧ Upcoming { r with pos := r.pos + 1 } bits := by
  have hfirst := h 0 (Nat.zero_lt_succ _)
  refine ⟨?_, fun k hk => ?_⟩
  · rw [rawBit_inside r hfirst.1]
    exact congrArg (·, _) hfirst.2
  · have hnext := h (k + 1) (Nat.succ_lt_succ hk)
    rwa [show r.pos + (k + 1) = r.pos + 1 + k by omega] at hnext

/-- A walk over a codeword's bits ends at its leaf, the codeword read. -/
theorem walk_of_leafAt {α : Type} {c : PrefixCode α} {bits : List Bool} {a : α} {r : BitReader} (hleaf : leafAt c bits = some a)
    (hbits : Upcoming r bits) : walk c r = (a, { r with pos := r.pos + bits.length }) := by
  induction bits generalizing c r with
  | nil =>
    cases c with
    | leaf a' => cases hleaf; rfl
    | node zero one => exact nomatch hleaf
  | cons b bits ih =>
    cases c with
    | leaf a' => exact nomatch hleaf
    | node zero one =>
      obtain ⟨hraw, hrest⟩ := upcoming_cons hbits
      have hwalk := ih hleaf hrest
      rw [walk, hraw, List.length_cons, Nat.add_comm bits.length, ← Nat.add_assoc]
      cases b <;> exact hwalk

/-- Bits as a number, the first most significant, on from `v` (R12). -/
def bitsNat (v : Nat) (bits : List Bool) : Nat := bits.foldl (fun n b => 2 * n + b.toNat) v

theorem rawBitsOn_of_upcoming {bits : List Bool} {r : BitReader} (v : Nat) (h : Upcoming r bits) :
    BitReader.rawBitsOn v bits.length r = (bitsNat v bits, { r with pos := r.pos + bits.length }) := by
  induction bits generalizing v r with
  | nil => rfl
  | cons b bits ih =>
    obtain ⟨hraw, hrest⟩ := upcoming_cons h
    rw [List.length_cons, rawBitsOn_succ, hraw, ih _ hrest, Nat.add_right_comm, Nat.add_assoc]
    rfl

theorem length_code (digits : List Nat) : (code digits).length = digits.length := List.length_map _

theorem codebookRows_leafAt : ∀ row ∈ codebookRows, leafAt (codebook row.1) (code row.2.2) = some row.2.1 := by decide

theorem tableARows_leafAt : ∀ row ∈ tableARows, leafAt count1A (code row.2) = some row.1 := by decide

theorem tableBRows_value : ∀ row ∈ tableBRows, row.2.length = 4 ∧ 15 - bitsNat 0 (code row.2) = row.1 := by decide

end Sys2Proof.Machine

namespace Sys2Proof.Proofs
open Sys2Proof.Machine Sys2Proof.Claims

/-- Settles O2, command words and header words each by their own decoder. -/
theorem decodeInvertsEncode : Obligations.DecodeInvertsEncode := by
  intro i hwf
  cases hspace : i.space with
  | command => exact congrArg some (decodeCommand_encode hspace hwf)
  | header => exact congrArg Except.toOption (decodeHeader_encode hspace hwf)

/-- Settles O3: every word is some command's encoding, which its decoder reads back; a header is put together again from its fields. -/
theorem encodeInvertsDecode : Obligations.EncodeInvertsDecode := by
  refine ⟨fun w => ?_, fun h i hd => ⟨decodeHeader_wf hd, decodeHeader_space hd, encode_of_decodeHeader hd⟩⟩
  obtain ⟨i, hwf, hspace, rfl⟩ := exists_command_of_word w
  rw [decodeCommand_encode hspace hwf]
  exact ⟨hwf, hspace, rfl⟩

/-- Settles O1: the words left out are those of no legal row. -/
theorem commandDecodeIsRule101 : Obligations.CommandDecodeIsRule101 := by
  refine ⟨rfl, rfl, rfl, rfl, fun n hn => ?_, fun w h1 h2 h12 h3 hget => ⟨decodeCommand_illegal ?_, fun _ => rfl⟩⟩
  · have hcount : (BitVec.ofNat 6 n).toNat = n := Nat.mod_eq_of_lt (by omega)
    rw [← decodeCommand_getbits (hcount.trans_le hn), encode_getbits, hcount]
  · rw [← Bool.not_eq_true, isCommandRow_iff]
    rintro (hw | hw | hw | hw | ⟨n, hn, hw⟩)
    · exact h1 hw
    · exact h2 hw
    · exact h12 hw
    · exact h3 hw
    · exact hget _ hn (hw.trans (encode_getbits n))

/-- Settles O4, from the version and layer codes of the seven kinds. -/
theorem validHeadersAreTheSevenKinds : Obligations.ValidHeadersAreTheSevenKinds := fun _ => hdrValid_iff_decodeHeader

/-- Settles O5: the search and the fast path take only valid headers. -/
theorem invalidHeadersAreNeverLocated : Obligations.InvalidHeadersAreNeverLocated := by
  refine ⟨fun S i h hi => candidate_invalid (hdrValid_of_invalidHeader hi), fun s fl hfast hi => ?_⟩
  obtain ⟨-, hcompare, -⟩ := fastPath_some hfast
  exact absurd (hdrCompare_valid hcompare) (by simp [hdrValid_of_invalidHeader hi])

/-- Settles O23: of the rows of a located frame, the one for Layer I and II. -/
theorem layerOneTwoHeadersAreUnsupported : Obligations.LayerOneTwoHeadersAreUnsupported := by
  intro i nw pos fl ff s _ hi he hf
  obtain ⟨hspace, hlayer⟩ := header_of_isLayer12Kind hi
  obtain ⟨hinputs, hbits⟩ := (finished_onLocated (.decode nw) pos fl ff (encode i) s).same
  obtain ⟨hregs, hrow⟩ := locatedRows_decodeLocated nw pos fl (encode i) { s with freeFormat := ff }
  rw [if_pos hlayer] at hrow
  obtain ⟨hend, hsamples, hreset, hmem, hscratch⟩ := hrow
  exact ⟨_, exec_genuine hspace he hf, hend, hregs, hsamples, hreset, hmem, hinputs, hbits, hscratch⟩

/-- Settles O24: the header's step is the decoding of the frame at its place. -/
theorem layerThreeHeadersAreDecoded : Obligations.LayerThreeHeadersAreDecoded := by
  intro i nw pos fl ff s _ hi he hf
  obtain ⟨hspace, hlayer⟩ := header_of_isLayer3Kind hi
  exact ⟨_, exec_genuine hspace he hf, hlayer, locatedRows_decodeLocated nw pos fl (encode i) _,
    (finished_onLocated (.decode nw) pos fl ff (encode i) s).same⟩

/-- Settles O26: no frame starts at such a header, so the search moves on. -/
theorem otherHeadersArePassedOver : Obligations.OtherHeadersArePassedOver := by
  intro i mode pos s hwf he hcase
  obtain ⟨hspace, hnone⟩ : i.space = .header ∧ candidate s.slice pos (encode i) = none := by
    obtain hi | ⟨hi, hf⟩ := hcase
    · exact ⟨(isInvalidKind_iff.mp hi).1, candidate_invalid (hdrValid_of_isInvalidKind hwf hi)⟩
    · exact ⟨space_of_isValidKind hi, candidate_eq_none_iff_frameAt.mpr hf⟩
  obtain ⟨hdec, hinputs, hbits, hmem, hscratch⟩ := scanNext_frame mode pos s
  refine ⟨_, exec_passed hspace he hnone, hdec, hinputs, hbits, hmem, hscratch, fun hnext => ?_, fun hlast => ?_⟩
  · rw [scanNext, if_pos (by omega)]
  · rw [scanNext, if_neg (by omega)]
    exact noFrameRow_noFrame s

/-- Settles O38: each given codeword is a path of its code, or the four bits of table B. -/
theorem givenCodewordsDecode : Obligations.GivenCodewordsDecode := by
  intro r digits hbits
  rw [← length_code]
  refine ⟨fun cb xy hrow => walk_of_leafAt (codebookRows_leafAt _ hrow) hbits, fun n hrow => ?_, fun n hrow => ?_⟩
  · have hwalk := walk_of_leafAt (tableARows_leafAt _ hrow) hbits
    simp only [decodeQuadCode, hwalk, Bool.false_eq_true, if_false]
  · obtain ⟨hlen, hvalue⟩ := tableBRows_value _ hrow
    have hraw := rawBitsOn_of_upcoming 0 hbits
    rw [show (code digits).length = 4 from (length_code digits).trans hlen] at *
    simp only [decodeQuadCode, BitReader.rawBits, hraw, hvalue, if_true]

/-- Settles O6: the decoders evaluated at the five words. -/
theorem sampleWordsDecode : Obligations.SampleWordsDecode := ⟨rfl, rfl, rfl, rfl, rfl⟩

end Sys2Proof.Proofs
end

section
/-! Proofs about the bit reader: the bits `get_bits` and `raw_bits` return, and GETBITS as a `get_bits` over IN_BUF
(`40_bitreader.md`). -/

namespace Sys2Proof.Machine

/-! ### Reading inside the limit (R161, R167) -/

theorem testBit_getBits (r : BitReader) {n k : Nat} (h : r.pos + n ≤ r.limit) (hk : k < n) :
    (r.getBits n).1.testBit (n - 1 - k) = bitOf r.buf (r.pos + k) := by
  rw [getBits_inside r n h]
  exact testBit_bitsValue r.buf r.pos n k hk

@[simp] theorem bitReader_buf (s : State) : s.bitReader.buf = s.inBuf := by rw [State.bitReader]

@[simp] theorem bitReader_pos (s : State) : s.bitReader.pos = s.brPos.toNat := rfl

/-- A GETBITS inside BR_LIMIT reads no bit past IN_BUF, for BR_LIMIT never does (R167). -/
theorem testBit_getBits_bitReader (s : State) {n k : Nat} (hlimit : s.brLimit.toNat ≤ 8 * Config.inBufSize)
    (h : s.brPos.toNat + n ≤ s.brLimit.toNat) (hk : k < n) :
    (s.bitReader.getBits n).1.testBit k =
      (s.mem.read (inBase + (s.brPos.toNat + n - 1 - k) / 8)).getLsbD (7 - (s.brPos.toNat + n - 1 - k) % 8) := by
  have hp : s.brPos.toNat + n - 1 - k < 8 * Config.inBufSize := by omega
  rw [← bitOf_inBuf s _ hp]
  have hbit := testBit_getBits s.bitReader h (show n - 1 - k < n by omega)
  rw [show n - 1 - (n - 1 - k) = k by omega] at hbit
  rw [hbit, bitReader_buf, bitReader_pos, show s.brPos.toNat + n - 1 - k = s.brPos.toNat + (n - 1 - k) by omega]

/-! ### Raw reads (R164) -/

/-- The `k`-th bit that raw reads from here on return: the buffer's inside its valid bytes, past them the free value whose number is
the count of bits past them read before it. -/
def BitReader.rawBitAt (r : BitReader) (k : Nat) : Bool :=
  if r.pos + k < 8 * r.buf.length then bitOf r.buf (r.pos + k)
  else Config.drawBit (r.draws + (r.pos + k - max r.pos (8 * r.buf.length)))

theorem rawBit_value (r : BitReader) : r.rawBit.1 = r.rawBitAt 0 := by
  by_cases h : r.pos < 8 * r.buf.length
  · simp [rawBit_inside r h, BitReader.rawBitAt, h]
  · simp [rawBit_past r (Nat.not_lt.mp h), BitReader.rawBitAt, h, Nat.max_eq_left (Nat.not_lt.mp h)]

theorem rawBit_draws (r : BitReader) : r.rawBit.2.draws = r.draws + (r.pos + 1 - max r.pos (8 * r.buf.length)) := by
  by_cases h : r.pos < 8 * r.buf.length
  · rw [rawBit_inside r h]
    dsimp only
    omega
  · rw [rawBit_past r (Nat.not_lt.mp h)]
    dsimp only
    omega

/-- After one raw read the upcoming bits are those that stood behind its bit. -/
theorem rawBitAt_rawBit (r : BitReader) (k : Nat) : r.rawBit.2.rawBitAt k = r.rawBitAt (k + 1) := by
  simp only [BitReader.rawBitAt, rawBit_pos, rawBit_buf, rawBit_draws]
  rw [show r.pos + 1 + k = r.pos + (k + 1) by omega]
  by_cases h : r.pos + (k + 1) < 8 * r.buf.length
  · rw [if_pos h, if_pos h]
  · rw [if_neg h, if_neg h]
    congr 1
    omega

@[simp] theorem rawBits_limit (r : BitReader) (n : Nat) : (r.rawBits n).2.limit = r.limit := by
  induction n generalizing r with
  | zero => rfl
  | succ n ih => rw [(rawBits_succ r n).2, ih, rawBit_limit]

theorem rawBits_draws (r : BitReader) (n : Nat) :
    (r.rawBits n).2.draws = r.draws + (r.pos + n - max r.pos (8 * r.buf.length)) := by
  induction n generalizing r with
  | zero =>
    change r.draws = _
    omega
  | succ n ih =>
    rw [(rawBits_succ r n).2, ih, rawBit_draws, rawBit_pos, rawBit_buf]
    omega

/-- The first raw bit is the most significant (R12, R164). -/
theorem testBit_rawBits (r : BitReader) {n k : Nat} (hk : k < n) : (r.rawBits n).1.testBit (n - 1 - k) = r.rawBitAt k := by
  induction n generalizing r k with
  | zero => omega
  | succ n ih =>
    rw [(rawBits_succ r n).1, Nat.mul_comm, Nat.testBit_two_pow_mul_add _ (rawBits_lt _ n)]
    cases k with
    | zero =>
      rw [if_neg (by omega), show n + 1 - 1 - 0 - n = 0 by omega, rawBit_value]
      cases r.rawBitAt 0 <;> rfl
    | succ k =>
      rw [if_pos (by omega), show n + 1 - 1 - (k + 1) = n - 1 - k by omega, ih _ (by omega), rawBitAt_rawBit]

end Sys2Proof.Machine

namespace Sys2Proof.Proofs
open Sys2Proof.Machine Sys2Proof.Claims

/-- Settles O16: GETBITS is `get_bits` over IN_BUF, and BR_DATA above the bits read is 0. -/
theorem getbitsReadsMsbFirst : Obligations.GetbitsReadsMsbFirst := by
  intro n s _ hlimit
  refine ⟨BitVec.ofNat 32 (s.bitReader.getBits n.toNat).1, exec_command (.getbits n) s rfl, fun hpast => ?_, fun hin k hk => ?_⟩
  · rw [getBits_past s.bitReader n.toNat hpast]
    rfl
  · rw [BitVec.getLsbD_ofNat, decide_eq_true hk, Bool.true_and]
    by_cases hkn : k < n.toNat
    · rw [if_pos hkn]
      exact testBit_getBits_bitReader s hlimit hin hkn
    · rw [if_neg hkn]
      exact Nat.testBit_lt_two_pow ((getBits_lt _ _).trans_le (Nat.pow_le_pow_right Nat.two_pos (Nat.not_lt.mp hkn)))

/-- Settles O32, from what `get_bits` returns on either side of the limit. -/
theorem getBitsIsRule161 : Obligations.GetBitsIsRule161 := fun r n =>
  ⟨getBits_pos r n, getBits_past r n, fun h => ⟨getBits_lt r n, fun _ hk => testBit_getBits r h hk⟩⟩

/-- Settles O33: bit by bit, with the free values counted. -/
theorem rawBitsIsRule164 : Obligations.RawBitsIsRule164 := fun r n =>
  ⟨rawBits_lt r n, rawBits_pos r n, rawBits_buf r n, rawBits_limit r n, rawBits_draws r n, fun _ hk => testBit_rawBits r hk⟩

end Sys2Proof.Proofs
end

section
/-! Proofs about frame synchronisation: the result registers and length of a header, the genuineness walk, the free-format probe and
the search, and what PROBE and DECODE do with the frame they locate (`41_framesync.md`). -/

namespace Sys2Proof.Machine
open Sys2Proof.Claims

/-! ### RES_INFO (R35, R182) -/

/-- The value of a word put together from two pieces. -/
theorem toNat_append_eq_add {n m : Nat} (x : BitVec n) (y : BitVec m) : (x ++ y).toNat = 2 ^ m * x.toNat + y.toNat := by
  rw [BitVec.toNat_append, ← Nat.shiftLeft_add_eq_or_of_lt y.isLt, Nat.shiftLeft_eq, Nat.mul_comm]

theorem hdrLayer_lt_of_valid {h : Word} (hv : hdrValid h = true) : hdrLayer h < 4 :=
  Nat.sub_lt (by omega) (Nat.pos_of_ne_zero (hdrValid_fields hv).1)

/-- The fields of RES_INFO do not overlap: version, layer and channel count fit their two bits. -/
theorem hdrInfo_toNat {h : Word} (hl : hdrLayer h < 4) :
    (hdrInfo h).toNat = hdrChannels h + 4 * hdrLayer h + 16 * hdrVersion h + 64 * (hdrFree h).toNat + 128 * (hdrCrc h).toNat
      + 256 * (hdrPadded h).toNat + 512 * hdrMode h + 2048 * (h.extractLsb' 4 2).toNat := by
  have hversion := hdrVersion_le h
  have hchannels := hdrChannels_le h
  have hzero : (0 : BitVec 19).toNat = 0 := rfl
  rw [hdrMode]
  simp only [hdrInfo, hzero, toNat_append_eq_add, BitVec.toNat_ofBool, BitVec.toNat_ofNat]
  omega

/-! ### Frame lengths at a constant bitrate (R184, R186) -/

/-- R184's length from the version, the layer, the bitrate index and the sample-rate index. -/
def cbrBytesOf (version layer bitrate sr : Nat) : Nat :=
  let kbps := (bitrateRow version layer).getD bitrate 0
  let hz := rateTable.getD (3 * version + sr) 0
  if layer = 1 then 4 * (12000 * kbps / hz) else if layer = 2 ∨ version = 0 then 144000 * kbps / hz else 72000 * kbps / hz

theorem hdrCbrBytes_eq (h : Word) :
    hdrCbrBytes h = cbrBytesOf (hdrVersion h) (hdrLayer h) (hdrBitrateIndex h) (hdrSrIndex h) := rfl

/-- The versions and layers of the seven valid kinds (R117). -/
def validVersionLayers : List (Nat × Nat) := [(0, 1), (0, 2), (0, 3), (1, 1), (1, 2), (1, 3), (2, 3)]

theorem versionLayer_of_valid {h : Word} (hv : hdrValid h = true) : (hdrVersion h, hdrLayer h) ∈ validVersionLayers := by
  obtain ⟨hlayer, hkind⟩ := isValidKind_headerKind.mp (hdrValid_iff.mp hv).2.2.2
  have hversion := hdrVersionCode_lt h
  have hcode := hdrLayerCode_lt h
  simp only [validVersionLayers, List.mem_cons, Prod.mk.injEq, List.not_mem_nil, or_false]
  unfold hdrVersion hdrLayer
  split_ifs <;> omega

/-- R184's lengths at every bitrate and sample rate of every valid kind. -/
theorem cbrBytesOf_table : ∀ k ∈ validVersionLayers, ∀ i < 15, ∀ r < 3, i ≠ 0 →
    24 ≤ cbrBytesOf k.1 k.2 i r ∧ cbrBytesOf k.1 k.2 i r ≤ (if k.2 = 1 then 768 else 1728) := by
  decide

theorem hdrCbrBytes_bounds {h : Word} (hv : hdrValid h = true) (hf : hdrFree h = false) :
    24 ≤ hdrCbrBytes h ∧ hdrCbrBytes h ≤ (if hdrLayer h = 1 then 768 else 1728) := by
  obtain ⟨-, hbitrate, hsr, -, -⟩ := hdrValid_fields hv
  rw [hdrCbrBytes_eq]
  exact cbrBytesOf_table _ (versionLayer_of_valid hv) _ hbitrate _ hsr (by simpa [hdrFree] using hf)

theorem hdrPad_le_of_layer (h : Word) : hdrPad h ≤ if hdrLayer h = 1 then 4 else 1 := by
  unfold hdrPad
  split_ifs <;> omega

/-- The frame length of a header that is not free-format, if it is not 0 (R185, R186). -/
theorem hdrFrameLen_cbr {h : Word} (hf : hdrFree h = false) (hpos : hdrCbrBytes h ≠ 0) (ff : Nat) :
    hdrFrameLen h ff = hdrCbrBytes h + hdrPad h := by
  simp [hdrFrameLen, hdrFrameBytes, hf, hpos]

/-! ### The genuineness walk (R192, R193) -/

section
variable {S : Slice} {h : Word} {ff m p len : Nat}

/-- Where no header fits behind the frame, the frame is accepted after a match or at the slice's end. -/
theorem genuineFrom_last (hq : S.len < p + len + 4) (n : Nat) :
    genuineFrom S h ff (n + 1) m p len = (decide (1 ≤ m) || p + len == S.len) := by
  rw [genuineFrom, if_pos hq]

/-- A comparable header behind the frame is a match, and the walk goes on from it. -/
theorem genuineFrom_match (hq : p + len + 4 ≤ S.len) (hc : hdrCompare h (S.word (p + len)) = true) (n : Nat) :
    genuineFrom S h ff (n + 1) m p len =
      genuineFrom S h ff n (m + 1) (p + len) (hdrFrameLen (S.word (p + len)) ff) := by
  rw [genuineFrom, if_neg (Nat.not_lt.mpr hq), hc]
  rfl

end

/-- A chain of `n` comparable headers, each where the frame before it ends, is accepted by a walk of `n` matches. -/
theorem genuineFrom_chain {S : Slice} {h : Word} {ff : Nat} {q : Nat → Nat} (n : Nat) {m p len : Nat} (hstart : q 0 = p + len)
    (hchain : ∀ k, k < n → q k + 4 ≤ S.len ∧ hdrCompare h (S.word (q k)) = true
      ∧ q (k + 1) = q k + hdrFrameLen (S.word (q k)) ff) : genuineFrom S h ff n m p len = true := by
  induction n generalizing q m p len with
  | zero => rfl
  | succ n ih =>
    obtain ⟨hfits, hcompare, hnext⟩ := hchain 0 n.succ_pos
    rw [hstart] at hfits hcompare hnext
    rw [genuineFrom_match hfits hcompare]
    exact ih (q := fun k => q (k + 1)) hnext fun k hk => hchain (k + 1) (Nat.succ_lt_succ hk)

/-! ### The free-format probe (R194) -/

/-- The probe stops, at a stride it reaches, where the stride is confirmed. -/
theorem confirms_iff {S : Slice} {i : Nat} {h : Word} {k : Nat} :
    Confirms S i h k ↔ 4 ≤ k ∧ k < 2304 ∧ i + k + 4 ≤ S.len ∧ probeStops S i h k = true := by
  simp only [Confirms, probeStops, Bool.and_eq_true, decide_eq_true_eq, and_assoc]

/-! ### The search (R190) -/

theorem findFrame_eq_some_iff {S : Slice} {i fl ff : Nat} :
    findFrame S = some (i, fl, ff) ↔
      i + 4 < S.len ∧ candidate S i (S.word i) = some (fl, ff) ∧ ∀ j, j < i → candidate S j (S.word j) = none := by
  refine ⟨findFrame_some, fun ⟨hi, hc, hfirst⟩ => ?_⟩
  obtain ⟨-, hnone⟩ | ⟨j, fl', ff', -, hc', hfind, hfirst'⟩ := findFrame_spec S
  · exact absurd (hnone i hi) (by simp [hc])
  · obtain hlt | rfl | hgt := Nat.lt_trichotomy i j
    · exact absurd (hfirst' i hlt) (by simp [hc])
    · cases hc.symm.trans hc'
      exact hfind
    · exact absurd (hfirst j hgt) (by simp [hc'])

theorem findFrame_eq_none_iff {S : Slice} : findFrame S = none ↔ ∀ j, j + 4 < S.len → candidate S j (S.word j) = none := by
  obtain ⟨hnone, hall⟩ | ⟨j, fl, ff, hj, hc, hfind, -⟩ := findFrame_spec S
  · exact iff_of_true hnone hall
  · exact iff_of_false (by simp [hfind]) fun hall => absurd (hall j hj) (by simp [hc])

/-! ### The fast path (R200) -/

/-- The branches of the fast path in R200's order: a frame of length 0, one that ends the slice, one without a comparable header behind
it, one with it, and a slice or a last header that rules it out. -/
theorem fastPath_eq_some_iff {s : State} {fl : Nat} : fastPath s = some fl ↔ FastPathTakes s fl := by
  have hslice : s.slice.len = s.inLen.toNat := rfl
  unfold fastPath FastPathTakes
  dsimp only
  rw [hslice]
  split_ifs with hguard hzero hend hnext
  all_goals
    simp only [Bool.and_eq_true, Bool.or_eq_true, decide_eq_true_eq, beq_iff_eq, Bool.not_eq_true', not_or, Bool.not_eq_false] at *
  · exact iff_of_false nofun fun ⟨_, _, _, hfl, hpos, _⟩ => by omega
  · obtain ⟨⟨hlen, hfirst⟩, hcompare⟩ := hguard
    exact ⟨fun h => by cases h; exact ⟨hlen, hfirst, hcompare, rfl, Nat.pos_of_ne_zero hzero, .inl hend⟩,
      fun ⟨_, _, _, hfl, _⟩ => congrArg some hfl.symm⟩
  · refine iff_of_false nofun ?_
    rintro ⟨-, -, -, rfl, -, hfull | ⟨hfits, hcompare⟩⟩
    · exact hend hfull
    · exact hnext.elim (fun hlong => by omega) (fun hdiff => by simp [hcompare] at hdiff)
  · obtain ⟨⟨hlen, hfirst⟩, hcompare⟩ := hguard
    obtain ⟨hfits, hsame⟩ := hnext
    exact ⟨fun h => by cases h; exact ⟨hlen, hfirst, hcompare, rfl, Nat.pos_of_ne_zero hzero, .inr ⟨by omega, hsame⟩⟩,
      fun ⟨_, _, _, hfl, _⟩ => congrArg some hfl.symm⟩
  · exact iff_of_false nofun fun ⟨hlen, hfirst, hcompare, _⟩ => hguard ⟨⟨hlen, hfirst⟩, hcompare⟩

/-! ### The slice check and what follows it (R82, R210, R360) -/

theorem argsOk_iff {s : State} : s.argsOk = true ↔ s.inOff.toNat + s.inLen.toNat ≤ 16384 := by
  rw [State.argsOk, decide_eq_true_eq, Config.inBufSize]

theorem argsOk_eq_false {s : State} (h : s.inOff.toNat + s.inLen.toNat > 16384) : s.argsOk = false :=
  Bool.eq_false_iff.mpr fun ha => absurd (argsOk_iff.mp ha) (Nat.not_le.mpr h)

theorem exec_probe_badArgs {s : State} (ha : s.argsOk = false) : exec .probe s = .next (s.raiseResult .badArgs) := by
  rw [exec_command .probe s rfl, ha]
  rfl

theorem exec_probe_search {s : State} (ha : s.argsOk = true) : exec .probe s = .next (searchAndRun .probe s) := by
  rw [exec_command .probe s rfl, ha]
  rfl

theorem exec_decodeInstr (nw : Bool) (s : State) : exec (decodeInstr nw) s = .next (decodeCommandRun nw s) := by
  cases nw <;> rfl

theorem decodeCommandRun_badArgs {s : State} (ha : s.argsOk = false) (nw : Bool) :
    decodeCommandRun nw s = s.raiseResult .badArgs := by
  rw [decodeCommandRun, ha]
  rfl

theorem decodeCommandRun_fast {s : State} {fl : Nat} (ha : s.argsOk = true) (hfast : fastPath s = some fl) (nw : Bool) :
    decodeCommandRun nw s = decodeLocated nw 0 fl (s.slice.word 0) s := by
  rw [decodeCommandRun, ha, hfast]
  rfl

theorem decodeCommandRun_search {s : State} (ha : s.argsOk = true) (hfast : fastPath s = none) (nw : Bool) :
    decodeCommandRun nw s = searchAndRun (.decode nw) s.stateReset := by
  rw [decodeCommandRun, ha, hfast]
  rfl

theorem searchAndRun_none {s : State} (hf : findFrame s.slice = none) (mode : ScanMode) : searchAndRun mode s = noFrame s := by
  rw [searchAndRun, hf]

theorem searchAndRun_some {s : State} {off fl ff : Nat} (hf : findFrame s.slice = some (off, fl, ff)) (mode : ScanMode) :
    searchAndRun mode s = onLocated mode off fl ff (s.slice.word off) s := by
  rw [searchAndRun, hf]

/-! ### PROBE (R210) -/

/-- What PROBE reports of a located frame. -/
theorem probeLocated_row (off fl : Nat) (h : Word) (s : State) :
    let t := probeLocated off fl h s
    Ended .ok t ∧ LocatedRegs off fl h t ∧ t.resSamples = BitVec.ofNat 32 (hdrSamples h) :=
  ⟨⟨rfl, rfl, rfl⟩, ⟨rfl, rfl, rfl, rfl, rfl⟩, rfl⟩

/-- PROBE leaves DecoderState, the window and the main-data buffer alone when it has located a frame. -/
theorem probeLocated_frame (off fl : Nat) (h : Word) (s : State) :
    let t := probeLocated off fl h s
    SameDecoderState s t ∧ SameMemory s t ∧ SameScratch s t :=
  ⟨⟨rfl, rfl, rfl, rfl, rfl⟩, fun _ => rfl, rfl, rfl⟩

/-- Nor does a command that locates no frame touch them. -/
theorem noFrame_frame (s : State) :
    let t := noFrame s
    SameDecoderState s t ∧ SameMemory s t ∧ SameScratch s t :=
  ⟨⟨rfl, rfl, rfl, rfl, rfl⟩, fun _ => rfl, rfl, rfl⟩

end Sys2Proof.Machine

namespace Sys2Proof.Proofs
open Sys2Proof.Machine Sys2Proof.Claims

/-- Settles O7: the fields of RES_INFO do not overlap. -/
theorem resInfoIsRule182 : Obligations.ResInfoIsRule182 := by
  intro h hv
  rw [← hdrInfo_toNat (hdrLayer_lt_of_valid hv), BitVec.ofNat_toNat, BitVec.setWidth_eq]

/-- Settles O8: the lengths of R184's tables, and the padding of the layer. -/
theorem cbrFrameLengthsAreBounded : Obligations.CbrFrameLengthsAreBounded := by
  intro h ff hv hf
  obtain ⟨hmin, hmax⟩ := hdrCbrBytes_bounds hv hf
  have hpad := hdrPad_le_of_layer h
  rw [hdrFrameLen_cbr hf (by omega)]
  split_ifs at hmax hpad <;> omega

/-- Settles O17: the search decides the row, and neither row touches DecoderState. -/
theorem probeOutcome : Obligations.ProbeOutcome := by
  intro s
  refine ⟨fun hlong => exec_probe_badArgs (argsOk_eq_false hlong), fun hfit => ?_⟩
  obtain ⟨hinputs, hbits⟩ := (finished_searchAndRun .probe s).same
  refine ⟨_, exec_probe_search (argsOk_iff.mpr hfit), ?_⟩
  cases hfind : findFrame s.slice with
  | none =>
    rw [searchAndRun_none hfind] at hinputs hbits ⊢
    obtain ⟨hdec, hmem, hscratch⟩ := noFrame_frame s
    exact ⟨hdec, hinputs, hbits, hmem, hscratch, noFrameRow_noFrame s⟩
  | some found =>
    rw [searchAndRun_some hfind] at hinputs hbits ⊢
    obtain ⟨hdec, hmem, hscratch⟩ := probeLocated_frame found.1 found.2.1 (s.slice.word found.1) s
    exact ⟨hdec, hinputs, hbits, hmem, hscratch, probeLocated_row _ _ _ s⟩

/-- Settles O18, branch by branch of the command: the fast path, the search, or neither. -/
theorem decodeOutcomeTable : Obligations.DecodeOutcomeTable := by
  intro nw s
  rw [exec_decodeInstr]
  refine ⟨fun hlong => by rw [decodeCommandRun_badArgs (argsOk_eq_false hlong)]; rfl, fun hfit => ?_,
    fun _ => fastPath_eq_some_iff⟩
  obtain ⟨hinputs, hbits⟩ := (finished_decodeCommandRun nw s).same
  refine ⟨_, rfl, hinputs, hbits, ?_⟩
  have hargs := argsOk_iff.mpr hfit
  cases hfast : fastPath s with
  | some fl =>
    rw [decodeCommandRun_fast hargs hfast]
    exact locatedRows_decodeLocated nw 0 fl _ s
  | none =>
    rw [decodeCommandRun_search hargs hfast]
    cases hfind : findFrame s.slice with
    | none =>
      rw [searchAndRun_none (s := s.stateReset) hfind]
      exact ⟨noFrameRow_noFrame s.stateReset, rfl, rfl, rfl, rfl, rfl⟩
    | some found =>
      rw [searchAndRun_some (s := s.stateReset) hfind]
      exact locatedRows_decodeLocated nw _ _ _ _

/-- Settles O21: both states are the same after the full resync. -/
theorem resyncForgetsThePast : Obligations.ResyncForgetsThePast := by
  intro nw s lh ff res c0 c1 s' hargs hfast hfast'
  rw [exec_decodeInstr, exec_decodeInstr, decodeCommandRun_search hargs hfast, decodeCommandRun_search (s := s') hargs hfast']
  rfl

/-- Settles O25: the header's step is PROBE's report of the frame at its place. -/
theorem probedHeadersAreReported : Obligations.ProbedHeadersAreReported := by
  intro i pos fl ff s _ hi he hf
  obtain ⟨hinputs, hbits⟩ := (finished_probeLocated pos fl (encode i) s).same
  obtain ⟨hend, hregs, hsamples⟩ := probeLocated_row pos fl (encode i) s
  obtain ⟨hdec, hmem, hscratch⟩ := probeLocated_frame pos fl (encode i) s
  exact ⟨_, exec_genuine (space_of_isValidKind hi) he hf, hend, hregs, hsamples, hdec, hmem, hinputs, hbits, hscratch⟩

/-- Settles O29: the search goes through its candidates in order. -/
theorem searchFindsTheFirstGenuineFrame : Obligations.SearchFindsTheFirstGenuineFrame := by
  intro S
  simp only [findFrame_eq_some_iff, findFrame_eq_none_iff, candidate_eq_some_iff_frameAt, candidate_eq_none_iff_frameAt, implies_true,
    true_and]
  rfl

/-- Settles O30: the walk's first step decides the first two corners, its second the third, and ten matches the last. -/
theorem genuineWalkCorners : Obligations.GenuineWalkCorners := by
  intro S h i fl ff
  refine ⟨fun hlong => Bool.eq_false_iff.mpr fun hg => absurd (genuine_fits hg) (Nat.not_le.mpr hlong), fun hend => ?_,
    fun hfits hcompare hlast => ?_, fun q hstart hchain => genuineFrom_chain 10 hstart hchain⟩
  · rw [genuine, Config.syncMatches, genuineFrom_last (by omega)]
    simp [hend]
  · rw [genuine, Config.syncMatches, genuineFrom_match hfits hcompare, genuineFrom_last hlast]
    rfl

/-- Settles O31: the probe tries the strides from 4 on and stops at the first that is confirmed. -/
theorem freeFormatProbeIsSmallestStride : Obligations.FreeFormatProbeIsSmallestStride := by
  intro S i h
  simp only [confirms_iff]
  obtain ⟨hnone, hall⟩ | ⟨k, hmin, hmax, hfits, hstops, hfound, hfirst⟩ := freeProbe_spec S i h
  · exact .inl ⟨hnone, fun k ⟨hmin, hmax, hfits, hstops⟩ => absurd (hall k hmin hmax hfits) (by simp [hstops])⟩
  · exact .inr ⟨k, hfound, ⟨hmin, hmax, hfits, hstops⟩,
      fun j hj ⟨hmin', _, _, hstops'⟩ => absurd (hfirst j hmin' hj) (by simp [hstops'])⟩

end Sys2Proof.Proofs
end

section
/-! Proofs about side information and part 3 of the main data: the checks and the regions, the bands of a short block, scalefactors,
the range and the length of a Huffman block, and the exact value of a requantised line (`42_sideinfo_huffman.md`). -/

namespace Sys2Proof.Machine
open Sys2Proof.Claims

/-! ### The checks of one granule and channel (R224) -/

section
variable {sfreq : Nat} {gi : GranuleInfo}

/-- The model's test of the three regions finds a non-empty one that selects table 4 or 14. -/
theorem selectsMissingTable_iff :
    [0, 1, 2].any (fun j => gi.regionLen sfreq j > 0 && [4, 14].contains (gi.tableSelect.getD j 0)) = true ↔
      ∃ j, j < 3 ∧ 0 < gi.regionLen sfreq j ∧ (gi.tableSelect.getD j 0 = 4 ∨ gi.tableSelect.getD j 0 = 14) := by
  have hmem (j : Nat) : j ∈ [0, 1, 2] ↔ j < 3 := List.mem_range (n := 3)
  simp only [List.any_eq_true, hmem, Bool.and_eq_true, decide_eq_true_eq, List.contains_iff_mem, List.mem_cons,
    List.not_mem_nil, or_false]

theorem check_of_corrupt (h : GranuleCorrupt sfreq gi) : gi.check sfreq = some .corrupt := by
  unfold GranuleInfo.check
  obtain hbig | hswitch | htable := h
  · exact if_pos hbig
  · rw [if_pos hswitch, ite_self]
  · rw [if_pos (selectsMissingTable_iff.mpr htable), ite_self, ite_self]

/-- A granule that is not CORRUPT can still be a mixed block at 8000 Hz. -/
theorem check_of_not_corrupt (h : ¬GranuleCorrupt sfreq gi) :
    gi.check sfreq = if gi.kind = .mixed ∧ sfreq = 8 then some .unsupported else none := by
  obtain ⟨hbig, hswitch, htable⟩ := by simpa only [GranuleCorrupt, not_or] using h
  rw [GranuleInfo.check, if_neg (show ¬gi.bigValues > Config.bigValuesMax from hbig), if_neg hswitch,
    if_neg (mt selectsMissingTable_iff.mp htable)]

theorem check_of_unsupported (h : ¬GranuleCorrupt sfreq gi) (hu : GranuleUnsupported sfreq gi) :
    gi.check sfreq = some .unsupported := by
  rw [check_of_not_corrupt h]
  exact if_pos hu

theorem check_eq_none_iff : gi.check sfreq = none ↔ ¬(GranuleCorrupt sfreq gi ∨ GranuleUnsupported sfreq gi) := by
  by_cases h : GranuleCorrupt sfreq gi
  · simp [check_of_corrupt h, h]
  · simp [check_of_not_corrupt h, h, GranuleUnsupported]

/-- R224's list of what a granule may not be. -/
theorem not_bad_iff :
    ¬(GranuleCorrupt sfreq gi ∨ GranuleUnsupported sfreq gi) ↔
      gi.bigValues ≤ 288 ∧ ¬(gi.windowSwitching = true ∧ gi.blockType = 0)
        ∧ (∀ j, j < 3 → 0 < gi.regionLen sfreq j → gi.tableSelect.getD j 0 ≠ 4 ∧ gi.tableSelect.getD j 0 ≠ 14)
        ∧ ¬(gi.kind = .mixed ∧ sfreq = 8) := by
  simp only [GranuleCorrupt, GranuleUnsupported, not_or, not_exists, not_and, not_lt, ne_eq, and_assoc]

end

/-! ### The checks of a frame's side information (R224) -/

section
variable {h : Word} {si : SideInfo} {fr : BitReader}

theorem sideCheck_overread (hpast : fr.limit < fr.pos) : sideCheck h si fr = some .corrupt :=
  if_pos (decide_eq_true hpast)

/-- Inside the frame the granules are checked before the main-data lengths. -/
theorem sideCheck_inside (hin : fr.pos ≤ fr.limit) :
    sideCheck h si fr = (si.granules.flatten.findSome? (GranuleInfo.check (hdrSfreq h))).or
      (if si.part23Total > fr.limit - fr.pos + 8 * si.mainDataBegin then some .corrupt else none) := by
  rw [sideCheck, if_neg (by simpa [BitReader.overread] using hin)]
  cases si.granules.flatten.findSome? (GranuleInfo.check (hdrSfreq h)) <;> rfl

/-- The first granule whose check gives a code decides. -/
theorem sideCheck_of_first {before after : List GranuleInfo} {gi : GranuleInfo} {code : ResultCode} (hin : fr.pos ≤ fr.limit)
    (hsplit : si.granules.flatten = before ++ gi :: after) (hbefore : ∀ g ∈ before, g.check (hdrSfreq h) = none)
    (hgi : gi.check (hdrSfreq h) = some code) : sideCheck h si fr = some code := by
  rw [sideCheck_inside hin, hsplit, List.findSome?_append, List.findSome?_eq_none_iff.mpr hbefore, Option.none_or,
    List.findSome?_cons_of_isSome (by simp [hgi]), hgi, Option.some_or]

/-- Where every granule passes, the main-data lengths decide. -/
theorem sideCheck_of_granules (hin : fr.pos ≤ fr.limit) (hgood : ∀ g ∈ si.granules.flatten, g.check (hdrSfreq h) = none) :
    sideCheck h si fr = if si.part23Total > fr.limit - fr.pos + 8 * si.mainDataBegin then some .corrupt else none := by
  rw [sideCheck_inside hin, List.findSome?_eq_none_iff.mpr hgood, Option.none_or]

theorem sideCheck_eq_none_iff :
    sideCheck h si fr = none ↔ fr.pos ≤ fr.limit ∧ (∀ g ∈ si.granules.flatten, g.check (hdrSfreq h) = none)
      ∧ si.part23Total ≤ fr.limit - fr.pos + 8 * si.mainDataBegin := by
  obtain hpast | hin := Nat.lt_or_ge fr.limit fr.pos
  · simp [sideCheck_overread hpast, hpast]
  · simp [sideCheck_inside hin, hin, Option.or_eq_none_iff]

end

/-! ### The regions of the big-value area (R230) -/

theorem region1Start_le_region2Start (sfreq : Nat) (gi : GranuleInfo) : gi.region1Start sfreq ≤ gi.region2Start sfreq :=
  le_min (le_max_right _ _) (min_le_right _ _)

theorem region2Start_le_bigEnd (sfreq : Nat) (gi : GranuleInfo) : gi.region2Start sfreq ≤ gi.bigEnd := min_le_right _ _

/-- Under window switching region 2 would start at line 576, which legal big values never pass. -/
theorem region2Start_of_windowSwitching {sfreq : Nat} {gi : GranuleInfo} (hswitch : gi.windowSwitching = true)
    (hlegal : gi.bigValues ≤ 288) : gi.region2Start sfreq = gi.bigEnd := by
  rw [GranuleInfo.region2Start, if_pos hswitch, GranuleInfo.bigEnd]
  exact min_eq_right (by omega)

/-! ### Bands (R223) -/

theorem bandStarts_getD_zero (a : Nat) (ws : List Nat) : (bandStarts a ws).getD 0 0 = a := by cases ws <;> rfl

/-- A band ends where the next one starts. -/
theorem bandStarts_getD_succ {ws : List Nat} {s : Nat} (hs : s < ws.length) (a d : Nat) :
    (bandStarts a ws).getD (s + 1) 0 = (bandStarts a ws).getD s 0 + ws.getD s d := by
  induction ws generalizing a s with
  | nil => exact absurd hs s.not_lt_zero
  | cons w ws ih =>
    cases s with
    | zero => exact bandStarts_getD_zero (a + w) ws
    | succ s => exact ih (Nat.lt_of_succ_lt_succ hs) (a + w)

theorem le_of_mem_bandStarts {a x : Nat} {ws : List Nat} (hx : x ∈ bandStarts a ws) : a ≤ x := by
  induction ws generalizing a with
  | nil => exact (List.mem_singleton.mp hx).ge
  | cons w ws ih =>
    obtain rfl | hx := List.mem_cons.mp hx
    · exact le_rfl
    · exact (Nat.le_add_right a w).trans (ih hx)

/-- Every start lies between the first and the end of the last band. -/
theorem bandStarts_getD_bounds {ws : List Nat} {s : Nat} (hs : s ≤ ws.length) (a : Nat) :
    a ≤ (bandStarts a ws).getD s 0 ∧ (bandStarts a ws).getD s 0 ≤ a + ws.sum := by
  induction ws generalizing a s with
  | nil => simp [Nat.le_zero.mp hs, bandStarts]
  | cons w ws ih =>
    cases s with
    | zero => simp [bandStarts]
    | succ s =>
      have hnext := ih (Nat.le_of_succ_le_succ hs) (a + w)
      simp only [bandStarts, List.getD_cons_succ, List.sum_cons]
      omega

/-- Every position below the end lies in a band. -/
theorem exists_band {ws : List Nat} {a x : Nat} (hlow : a ≤ x) (hhigh : x < a + ws.sum) :
    ∃ s < ws.length, (bandStarts a ws).getD s 0 ≤ x ∧ x < (bandStarts a ws).getD (s + 1) 0 := by
  induction ws generalizing a with
  | nil => exact absurd hhigh (Nat.not_lt.mpr hlow)
  | cons w ws ih =>
    obtain hx | hx := Nat.lt_or_ge x (a + w)
    · exact ⟨0, Nat.succ_pos _, hlow, by rwa [bandStarts, List.getD_cons_succ, bandStarts_getD_zero]⟩
    · obtain ⟨s, hs, hband⟩ := ih hx (by rwa [List.sum_cons, ← Nat.add_assoc] at hhigh)
      exact ⟨s + 1, Nat.succ_lt_succ hs, hband⟩

/-- The band that starts at or before a position and ends behind it is the one that holds it. -/
theorem bandAt_bandStarts {ws : List Nat} {a s x : Nat} (hs : s < ws.length) (hlow : (bandStarts a ws).getD s 0 ≤ x)
    (hhigh : x < (bandStarts a ws).getD (s + 1) 0) : bandAt (bandStarts a ws) x = s := by
  suffices hcount : ((bandStarts a ws).filter (fun b => b ≤ x)).length = s + 1 by rw [bandAt, hcount, Nat.add_sub_cancel]
  induction ws generalizing a s with
  | nil => exact absurd hs s.not_lt_zero
  | cons w ws ih =>
    have hstart := (bandStarts_getD_bounds hs.le a).1.trans hlow
    rw [bandStarts, List.filter_cons, if_pos (decide_eq_true hstart), List.length_cons]
    cases s with
    | zero =>
      rw [bandStarts, List.getD_cons_succ, bandStarts_getD_zero] at hhigh
      rw [List.filter_eq_nil_iff.mpr, List.length_nil]
      intro b hb
      simpa using hhigh.trans_le (le_of_mem_bandStarts hb)
    | succ s => rw [ih (Nat.lt_of_succ_lt_succ hs) hlow hhigh]

/-- Bands `k` times as wide start `k` times as far along: those of the three windows of a short block together (R223). -/
theorem map_bandStarts (k a : Nat) (ws : List Nat) : (bandStarts a ws).map (k * ·) = bandStarts (k * a) (ws.map (k * ·)) := by
  induction ws generalizing a with
  | nil => rfl
  | cons w ws ih =>
    rw [bandStarts, List.map_cons, ih, Nat.mul_add]
    rfl

/-- The bands of one window fill its 192 frequencies (R226). -/
theorem sum_shortWidths (sfreq : Nat) : (shortWidths sfreq).sum = 192 := by
  unfold shortWidths
  split <;> rfl

section
variable {sfreq : Nat}

theorem exists_shortBand {f : Nat} (hf : f < 192) :
    ∃ s < (shortWidths sfreq).length, (shortStarts sfreq).getD s 0 ≤ f ∧ f < (shortStarts sfreq).getD (s + 1) 0 :=
  exists_band f.zero_le (by rwa [sum_shortWidths, Nat.zero_add])

theorem shortStarts_getD_succ {s : Nat} (hs : s < (shortWidths sfreq).length) :
    (shortStarts sfreq).getD (s + 1) 0 = (shortStarts sfreq).getD s 0 + (shortWidths sfreq).getD s 1 :=
  bandStarts_getD_succ hs 0 1

theorem shortStarts_getD_le {s : Nat} (hs : s ≤ (shortWidths sfreq).length) : (shortStarts sfreq).getD s 0 ≤ 192 := by
  have hend := (bandStarts_getD_bounds hs 0).2
  rwa [sum_shortWidths, Nat.zero_add] at hend

/-- A line that stands among the three windows' lines of band `s`, each window's one after the other, lies in that band. -/
theorem bandAt_shortLine {s l : Nat} (hs : s < (shortWidths sfreq).length) (hlow : 3 * (shortStarts sfreq).getD s 0 ≤ l)
    (hhigh : l < 3 * (shortStarts sfreq).getD (s + 1) 0) : bandAt ((shortStarts sfreq).map (3 * ·)) l = s := by
  have hstart (k : Nat) : ((shortStarts sfreq).map (3 * ·)).getD k 0 = 3 * (shortStarts sfreq).getD k 0 :=
    List.getD_map (shortStarts sfreq) 0 (3 * ·)
  rw [← hstart] at hlow hhigh
  rw [shortStarts, map_bandStarts] at hlow hhigh ⊢
  exact bandAt_bandStarts (by rwa [List.length_map]) hlow hhigh

/-- The lines of the three windows stand inside the band. -/
theorem shortLine_lt_end {s w j : Nat} (hs : s < (shortWidths sfreq).length) (hw : w < 3) (hj : j < (shortWidths sfreq).getD s 1) :
    3 * (shortStarts sfreq).getD s 0 + w * (shortWidths sfreq).getD s 1 + j < 3 * (shortStarts sfreq).getD (s + 1) 0 := by
  have hwindow : w * (shortWidths sfreq).getD s 1 ≤ 2 * (shortWidths sfreq).getD s 1 := Nat.mul_le_mul_right _ (Nat.le_of_lt_succ hw)
  have hend := shortStarts_getD_succ hs
  omega

/-- Line `j` of window `w` in band `s` (R223). -/
theorem shortLine_of_band {s w j : Nat} (hs : s < (shortWidths sfreq).length) (hw : w < 3) (hj : j < (shortWidths sfreq).getD s 1) :
    shortLine sfreq (3 * (shortStarts sfreq).getD s 0 + w * (shortWidths sfreq).getD s 1 + j) =
      .short s w ((shortStarts sfreq).getD s 0 + j) := by
  have hline := shortLine_lt_end hs hw hj
  rw [shortLine, bandAt_shortLine hs (by omega) hline, Nat.add_assoc, Nat.add_sub_cancel_left, Nat.mul_comm w,
    Nat.mul_add_div (by omega), Nat.div_eq_of_lt hj, Nat.add_zero, Nat.mul_add_mod, Nat.mod_eq_of_lt hj]

end

/-! ### Scalefactors (R240) -/

/-- Reading a slot leaves the scalefactor of a long band that is another slot alone. -/
theorem readSlot_long_getD {slot : Slot} {s : Nat} (h : slot ≠ .long s) (n : Nat) (sf : Scalefactors) (r : BitReader) :
    (readSlot slot n sf r).1.long.getD s 0 = sf.long.getD s 0 := by
  cases slot with
  | long b => simp [readSlot, List.getElem?_set_ne (fun e : b = s => h (congrArg _ e))]
  | short b w => rfl

theorem readSlots_long_getD {slots : List (Slot × Nat)} {s : Nat} (h : ∀ p ∈ slots, p.1 ≠ .long s) (sf : Scalefactors)
    (r : BitReader) : (readSlots slots sf r).1.long.getD s 0 = sf.long.getD s 0 := by
  induction slots generalizing sf r with
  | nil => rfl
  | cons p slots ih =>
    rw [readSlots, ih (fun q hq => h q (List.mem_cons_of_mem p hq)), readSlot_long_getD (h p List.mem_cons_self)]

/-- A long block reads no scalefactor of a kept group. -/
theorem long_notMem_mpeg1Slots {keep : Nat → Bool} {s : Nat} (h : keep (scfsiGroup s) = true) :
    Slot.long s ∉ mpeg1Slots .long keep := by
  simp [mpeg1Slots, h]

/-! ### Codewords (R150, R255) -/

/-- A property of a list's entries and of the default is one of what `getD` returns. -/
theorem getD_of_forall_mem {α : Type} {P : α → Prop} {l : List α} {d : α} (h : ∀ x ∈ l, P x) (hd : P d) (i : Nat) :
    P (l.getD i d) := by
  rw [List.getD_eq_getElem?_getD]
  cases hx : l[i]? with
  | none => exact hd
  | some x => exact h x (List.mem_of_getElem? hx)

/-- The values of a code, leaf by leaf. -/
def leaves {α : Type} : PrefixCode α → List α
  | .leaf a => [a]
  | .node zero one => leaves zero ++ leaves one

theorem walk_node {α : Type} (zero one : PrefixCode α) (r : BitReader) :
    walk (.node zero one) r = walk (if r.rawBit.1 then one else zero) r.rawBit.2 := by
  rw [apply_ite (walk · r.rawBit.2)]
  rfl

theorem walk_mem_leaves {α : Type} (c : PrefixCode α) (r : BitReader) : (walk c r).1 ∈ leaves c := by
  induction c generalizing r with
  | leaf a => exact List.mem_singleton_self a
  | node zero one hzero hone =>
    rw [walk_node, leaves, List.mem_append]
    cases r.rawBit.1
    · exact .inl (hzero _)
    · exact .inr (hone _)

theorem leaves_mapCode {α β : Type} (f : α → β) (c : PrefixCode α) : leaves (mapCode f c) = (leaves c).map f := by
  induction c with
  | leaf a => rfl
  | node zero one hzero hone => rw [mapCode, leaves, leaves, hzero, hone, List.map_append]

theorem pos_le_walk_pos {α : Type} (c : PrefixCode α) (r : BitReader) : r.pos ≤ (walk c r).2.pos := by
  induction c generalizing r with
  | leaf a => exact le_rfl
  | node zero one hzero hone =>
    have hnext : r.pos ≤ r.rawBit.2.pos := by rw [rawBit_pos]; omega
    rw [walk_node]
    cases r.rawBit.1
    · exact hnext.trans (hzero _)
    · exact hnext.trans (hone _)

theorem pos_lt_walk_node_pos {α : Type} (zero one : PrefixCode α) (r : BitReader) : r.pos < (walk (.node zero one) r).2.pos := by
  have hnext : r.pos < r.rawBit.2.pos := by rw [rawBit_pos]; omega
  rw [walk_node]
  cases r.rawBit.1
  · exact hnext.trans_le (pos_le_walk_pos zero _)
  · exact hnext.trans_le (pos_le_walk_pos one _)

/-- Every coordinate of a codebook is in its range: given codebooks by their leaves, open ones by the model's cut (R150). -/
theorem le_of_mem_codebook (cb : Nat) : ∀ p ∈ leaves (codebook cb), p.1 ≤ codebookMax cb ∧ p.2 ≤ codebookMax cb := by
  unfold codebook
  split
  · decide
  · decide
  · decide
  · rw [leaves_mapCode]
    rintro _ hp
    obtain ⟨p, -, rfl⟩ := List.mem_map.mp hp
    exact ⟨min_le_right _ _, min_le_right _ _⟩

theorem codebookMax_le (cb : Nat) : codebookMax cb ≤ 15 := by
  unfold codebookMax
  split_ifs <;> decide

/-- The escape of a table has at most 13 bits (R150). -/
theorem linbits_le {t cb linbits : Nat} (h : huffTable t = some (cb, linbits)) : linbits ≤ 13 := by
  unfold huffTable at h
  split_ifs at h <;> cases h
  · exact Nat.zero_le _
  all_goals exact getD_of_forall_mem (P := (· ≤ 13)) (by decide) (by decide) _

/-! ### Quantised values (R251, R257, R259) -/

theorem escape_le {v linbits : Nat} (hv : v ≤ 15) (hl : linbits ≤ 13) (r : BitReader) : (escape v linbits r).1 ≤ 8206 := by
  have hbits := rawBits_lt r linbits
  have hpow : 2 ^ linbits ≤ 2 ^ 13 := Nat.pow_le_pow_right Nat.two_pos hl
  unfold escape
  split_ifs
  · change 15 + (r.rawBits linbits).1 ≤ 8206
    omega
  · change v ≤ 8206
    omega

@[simp] theorem natAbs_readSign (v : Nat) (r : BitReader) : (readSign v r).1.natAbs = v := by
  unfold readSign
  split_ifs with hv
  · exact hv.symm
  · change (if r.rawBit.1 then -(v : Int) else v).natAbs = v
    cases r.rawBit.1
    · exact Int.natAbs_natCast v
    · exact (Int.natAbs_neg v).trans (Int.natAbs_natCast v)

theorem decodePair_le (t : Nat) (r : BitReader) : (decodePair t r).1.1.natAbs ≤ 8206 ∧ (decodePair t r).1.2.natAbs ≤ 8206 := by
  unfold decodePair
  split
  · exact ⟨Nat.zero_le _, Nat.zero_le _⟩
  next cb linbits ht =>
    have hl := linbits_le ht
    obtain ⟨hx, hy⟩ := le_of_mem_codebook cb _ (walk_mem_leaves (codebook cb) r)
    have hmax := codebookMax_le cb
    simp only [readCoordinate, natAbs_readSign]
    exact ⟨escape_le (hx.trans hmax) hl _, escape_le (hy.trans hmax) hl _⟩

theorem bigPairs_le (sfreq : Nat) (gi : GranuleInfo) (n l : Nat) (r : BitReader) :
    ∀ x ∈ (bigPairs sfreq gi n l r).1, x.natAbs ≤ 8206 := by
  induction n generalizing l r with
  | zero => exact nofun
  | succ n ih =>
    obtain ⟨hx, hy⟩ := decodePair_le (gi.tableSelect.getD (gi.regionOf sfreq l) 0) r
    simp only [bigPairs, List.forall_mem_cons]
    exact ⟨hx, hy, ih _ _⟩

theorem quadOf_le (n : Nat) : ∀ v ∈ quadOf n, v ≤ 1 := by
  simp only [quadOf, List.forall_mem_cons]
  exact ⟨by omega, by omega, by omega, by omega, nofun⟩

theorem decodeQuadCode_tableA (r : BitReader) : decodeQuadCode false r = (quadOf (walk count1A r).1, (walk count1A r).2) := by
  simp [decodeQuadCode]

theorem decodeQuadCode_tableB (r : BitReader) : decodeQuadCode true r = (quadOf (15 - (r.rawBits 4).1), (r.rawBits 4).2) := by
  simp [decodeQuadCode]

theorem decodeQuadCode_le (tableB : Bool) (r : BitReader) : ∀ v ∈ (decodeQuadCode tableB r).1, v ≤ 1 := by
  cases tableB with
  | true =>
    rw [decodeQuadCode_tableB]
    exact quadOf_le _
  | false =>
    rw [decodeQuadCode_tableA]
    exact quadOf_le _

theorem applySigns_le {vs : List Nat} {b : Nat} (h : ∀ v ∈ vs, v ≤ b) (r : BitReader) :
    ∀ x ∈ (applySigns vs r).1, x.natAbs ≤ b := by
  induction vs generalizing r with
  | nil => exact nofun
  | cons v vs ih =>
    obtain ⟨hv, hvs⟩ := List.forall_mem_cons.mp h
    simp only [applySigns, List.forall_mem_cons, natAbs_readSign]
    exact ⟨hv, ih hvs _⟩

section
variable {tableB : Bool} {stop : Nat} {r : BitReader}

/-- A codeword that ends past the block ends the loop and is discarded (D25). -/
theorem quads_of_past (h : stop < (decodeQuadCode tableB r).2.pos) (n : Nat) : (quads tableB stop (n + 1) r).1 = [] :=
  congrArg Prod.fst (if_pos h)

/-- A codeword inside the block is followed by its signs and the quadruples behind it (R250). -/
theorem quads_of_inside (h : ¬stop < (decodeQuadCode tableB r).2.pos) (n : Nat) :
    let signed := applySigns (decodeQuadCode tableB r).1 (decodeQuadCode tableB r).2
    (quads tableB stop (n + 1) r).1 = signed.1 ++ (quads tableB stop n signed.2).1 :=
  congrArg Prod.fst (if_neg h)

end

theorem quads_le (tableB : Bool) (stop n : Nat) (r : BitReader) : ∀ x ∈ (quads tableB stop n r).1, x.natAbs ≤ 1 := by
  induction n generalizing r with
  | zero => exact nofun
  | succ n ih =>
    by_cases hpast : stop < (decodeQuadCode tableB r).2.pos
    · rw [quads_of_past hpast]
      exact nofun
    · rw [quads_of_inside hpast]
      exact List.forall_mem_append.mpr ⟨applySigns_le (decodeQuadCode_le tableB r) _, ih _⟩

/-- A quadruple's codeword has at least one bit. -/
theorem pos_lt_decodeQuadCode_pos (tableB : Bool) (r : BitReader) : r.pos < (decodeQuadCode tableB r).2.pos := by
  cases tableB with
  | true =>
    rw [decodeQuadCode_tableB, rawBits_pos]
    omega
  | false =>
    rw [decodeQuadCode_tableA, count1A]
    exact pos_lt_walk_node_pos _ _ r

/-- No quadruple fits behind the block's end. -/
theorem quads_past {stop : Nat} {r : BitReader} (h : stop ≤ r.pos) (tableB : Bool) (n : Nat) : (quads tableB stop n r).1 = [] := by
  cases n with
  | zero => rfl
  | succ n => exact quads_of_past (h.trans_lt (pos_lt_decodeQuadCode_pos tableB r)) n

/-- The decoded values of a block: its pairs, then its quadruples (R250). -/
def blockValues (sfreq : Nat) (gi : GranuleInfo) (start : Nat) (r : BitReader) : List Int :=
  let big := bigPairs sfreq gi gi.bigValues 0 r
  big.1 ++ (quads gi.count1Table (start + gi.part23Length) ((576 - gi.bigEnd) / 4) big.2).1

theorem huffmanBlock_eq (sfreq : Nat) (gi : GranuleInfo) (start : Nat) (r : BitReader) :
    (huffmanBlock sfreq gi start r).1 = tabulate 576 fun l => (blockValues sfreq gi start r).getD l 0 := rfl

/-- Each of the 576 values is one that was decoded, or 0. -/
theorem huffmanBlock_entry_le {sfreq : Nat} {gi : GranuleInfo} {start b : Nat} {r : BitReader}
    (h : ∀ x ∈ blockValues sfreq gi start r, x.natAbs ≤ b) (l : Nat) :
    (entry (huffmanBlock sfreq gi start r).1 l 0).natAbs ≤ b := by
  rw [huffmanBlock_eq, entry_tabulate]
  split_ifs
  · exact getD_of_forall_mem (P := fun x : Int => x.natAbs ≤ b) h (d := 0) b.zero_le l
  · exact b.zero_le

theorem blockValues_le (sfreq : Nat) (gi : GranuleInfo) (start : Nat) (r : BitReader) :
    ∀ x ∈ blockValues sfreq gi start r, x.natAbs ≤ 8206 :=
  List.forall_mem_append.mpr ⟨bigPairs_le sfreq gi _ _ r, fun x hx => (quads_le _ _ _ _ x hx).trans (by decide)⟩

theorem blockValues_empty {sfreq : Nat} {gi : GranuleInfo} {start : Nat} {r : BitReader} (hbig : gi.bigValues = 0)
    (hlen : gi.part23Length = 0) (h : start ≤ r.pos) : blockValues sfreq gi start r = [] := by
  rw [blockValues, hbig, hlen]
  exact quads_past h _ _

/-! ### Requantisation (R271) -/

/-- The exact value of a long line's rule with scalefac_scale 0 and preflag 0 (R271). -/
theorem exactValue_requantLong (operand : Nat → ℝ) {ms : Bool} {gi : GranuleInfo} {sf : Scalefactors} {s : Nat} {q : Int}
    (hscale : gi.scalefacScale = false) :
    exactValue operand (requantRule ms gi false sf (.long s) q).rhs =
      (q.sign : ℝ) * (q.natAbs : ℝ) ^ ((4 : ℝ) / 3) * 2 ^ (((gi.globalGain : ℝ) - 210) / 4)
        * 2 ^ (-(sf.long.getD s 0 : ℝ) / 2) := by
  simp [requantRule, Rule.rhs, requantRhs, signTerm, scaleTerm, exactValue, hscale]

/-- `pow43(8) = 16` (R270). -/
theorem eight_rpow_four_thirds : (8 : ℝ) ^ ((4 : ℝ) / 3) = 16 := by
  rw [show (8 : ℝ) = 2 ^ (3 : ℝ) by norm_num, ← Real.rpow_mul (by norm_num)]
  norm_num

end Sys2Proof.Machine

namespace Sys2Proof.Proofs
open Sys2Proof.Machine Sys2Proof.Claims

/-- Settles O34: a frame passes when each of R224's checks does. -/
theorem sideInfoChecksPassExactlyWhen : Obligations.SideInfoChecksPassExactlyWhen := by
  intro h si fr
  simp only [sideCheck_eq_none_iff, check_eq_none_iff, not_bad_iff]
  rfl

/-- Settles O60: the first granule that is not good decides, unless the side information already overruns the frame. -/
theorem firstFailingCheckGivesTheCode : Obligations.FirstFailingCheckGivesTheCode := by
  intro h si fr
  refine ⟨sideCheck_overread, fun hin before gi after hsplit hbefore => ?_, fun hin hgood => ?_⟩
  · have hpassed : ∀ g ∈ before, g.check (hdrSfreq h) = none := fun g hg => check_eq_none_iff.mpr (hbefore g hg)
    exact ⟨fun hc => sideCheck_of_first hin hsplit hpassed (check_of_corrupt hc),
      fun hc hu => sideCheck_of_first hin hsplit hpassed (check_of_unsupported hc hu)⟩
  · rw [sideCheck_of_granules hin fun g hg => check_eq_none_iff.mpr (hgood g hg)]
    exact ⟨fun hlong => if_pos hlong, fun hfits => if_neg hfits⟩

/-- Settles O35: the region boundaries rise and end at the last big value. -/
theorem regionsPartitionTheBigValues : Obligations.RegionsPartitionTheBigValues := by
  intro sfreq gi
  have hfirst := region1Start_le_region2Start sfreq gi
  have hsecond := region2Start_le_bigEnd sfreq gi
  refine ⟨?_, fun hswitch hlegal => ?_⟩
  · change gi.region1Start sfreq + (gi.region2Start sfreq - gi.region1Start sfreq) + (gi.bigEnd - gi.region2Start sfreq) = gi.bigEnd
    omega
  · simp [GranuleInfo.regionLen, region2Start_of_windowSwitching hswitch hlegal]

/-- Settles O36: a frequency lies in one band, and the band's lines are those of its three windows one after the other. -/
theorem shortLinesMapBack : Obligations.ShortLinesMapBack := by
  intro sfreq w f _ hw hf
  obtain ⟨s, hs, hlow, hhigh⟩ := exists_shortBand (sfreq := sfreq) hf
  have hband : bandAt (shortStarts sfreq) f = s := bandAt_bandStarts hs hlow hhigh
  have hend := shortStarts_getD_succ hs
  have hlast := shortStarts_getD_le (s := s + 1) hs
  have hj : f - (shortStarts sfreq).getD s 0 < (shortWidths sfreq).getD s 1 := by omega
  have hlt := shortLine_lt_end hs hw hj
  have hline := shortLine_of_band hs hw hj
  rw [Nat.add_sub_cancel' hlow] at hline
  simp only [lineAt, hband]
  exact ⟨by omega, hline, hlow, hhigh⟩

/-- Settles O37: the slots that granule 1 reads leave the kept group out. -/
theorem scfsiKeepsScalefactors : Obligations.ScfsiKeepsScalefactors := by
  intro si ch s sf r _ hlong0 hlong1 hbit
  have hkeep : scfsiKeep si 1 ch (scfsiGroup s) = true := by
    rw [scfsiKeep, hbit, decide_eq_true hlong0, decide_eq_true hlong1]
    rfl
  refine readSlots_long_getD (fun p hp => ?_) sf r
  obtain ⟨slot, hslot, rfl⟩ := List.mem_map.mp hp
  rintro rfl
  rw [hlong1] at hslot
  exact long_notMem_mpeg1Slots hkeep hslot

/-- Settles O39, from the ranges of pairs and of quadruples. -/
theorem quantisedValuesStayInRange : Obligations.QuantisedValuesStayInRange := fun sfreq gi start r =>
  huffmanBlock_entry_le (blockValues_le sfreq gi start r)

/-- Settles O40: a block of no bits has no room for a quadruple's codeword. -/
theorem huffmanBlockEndsAtItsLength : Obligations.HuffmanBlockEndsAtItsLength := by
  intro sfreq gi start r
  refine ⟨rfl, fun hbig hlen hstart l => ?_⟩
  have hnone : ∀ x ∈ blockValues sfreq gi start r, x.natAbs ≤ 0 := by
    rw [blockValues_empty hbig hlen hstart]
    exact nofun
  exact Int.natAbs_eq_zero.mp (Nat.le_zero.mp (huffmanBlock_entry_le hnone l))

/-- Settles O41, by R271's exact value at each example. -/
theorem requantisationExamples : Obligations.RequantisationExamples := by
  intro ms gi sf s operand hscale
  refine ⟨fun hgain hsf => ?_, fun hgain hsf => ?_, fun hgain hsf => ?_⟩
  all_goals rw [exactValue_requantLong operand hscale, hgain, hsf]
  · norm_num [eight_rpow_four_thirds]
  · norm_num
  · norm_num

end Sys2Proof.Proofs
end

section
/-! Proofs about stereo reconstruction: when it does nothing, where the intensity bands of a long granule lie, and the exact
MPEG-1 intensity coefficients (`43_stereo.md`). -/

namespace Sys2Proof.Machine
open Real (pi sin cos)

/-! ### Whether stereo processing runs (R115, R280) -/

/-- The mode extension is the bits that select MS stereo (5) and intensity stereo (4) in joint stereo (R110, R115). -/
theorem modeExtension_eq_zero_iff {h : Word} : h.extractLsb' 4 2 = 0 ↔ h.getLsbD 5 = false ∧ h.getLsbD 4 = false := by
  rw [BitVec.eq_of_getLsbD_eq_iff]
  simp [Nat.le_one_iff_eq_zero_or_eq_one, and_comm]

/-- Both kinds of stereo processing are off exactly outside joint stereo or under mode extension 0 (R115). -/
theorem hdrStereoOff_iff {h : Word} :
    (hdrMsOn h || hdrIntensityOn h) = false ↔ hdrMode h ≠ 1 ∨ h.extractLsb' 4 2 = 0 := by
  rw [modeExtension_eq_zero_iff]
  by_cases hjoint : hdrMode h = 1
  · simp [hdrMsOn, hdrIntensityOn, hjoint]
  · simp [hdrMsOn, hdrIntensityOn, hjoint]

theorem stereo_off {c : StereoCtx} (hoff : (c.msOn || c.intensityOn) = false) (x0 x1 : Vector Word 576) :
    stereo c x0 x1 = (x0, x1) := by
  rw [stereo, hoff]
  rfl

/-! ### The intensity bands of a long granule (R282) -/

/-- A running bound stays at or below `n` when it starts there and no element carries it past. -/
theorem foldl_le_iff {α : Type} {f : Nat → α → Nat} {P : α → Prop} {n : Nat} (hf : ∀ b x, f b x ≤ n ↔ b ≤ n ∧ P x)
    (xs : List α) (b : Nat) : xs.foldl f b ≤ n ↔ b ≤ n ∧ ∀ x ∈ xs, P x := by
  induction xs generalizing b with
  | nil => simp
  | cons x xs ih => rw [List.foldl_cons, ih, hf, List.forall_mem_cons, and_assoc]

/-- The bound is the first long band above every nonzero one. -/
theorem longBound_le_iff {c : StereoCtx} {s : Nat} : longBound c ≤ s ↔ ∀ t, .long t ∈ nonzeroLines c → t < s := by
  rw [longBound, foldl_le_iff (P := fun line => ∀ t, line = .long t → t < s)]
  · simp only [Nat.zero_le, true_and]
    exact ⟨fun hbelow t ht => hbelow _ ht t rfl, fun hbelow line hline t ht => hbelow t (ht ▸ hline)⟩
  · rintro b (t | ⟨t, w, f⟩)
    · simp
    · simp

theorem long_mem_nonzeroLines {c : StereoCtx} (hkind : c.kind = .long) {t : Nat} :
    .long t ∈ nonzeroLines c ↔ ∃ l < 576, entry c.q l 0 ≠ 0 ∧ bandAt (longStarts c.sfreq) l = t := by
  simp [nonzeroLines, lineOf, hkind, and_assoc]

theorem inIntensityBand_long {c : StereoCtx} (hkind : c.kind = .long) {s : Nat} :
    inIntensityBand (boundsOf c) (.long s) = true ↔ longBound c ≤ s := by
  simp [inIntensityBand, boundsOf, longExamined, hkind]

/-! ### The MPEG-1 intensity coefficients (R287) -/

/-- The angle of an intensity position (R287). -/
noncomputable def intensityAngle (p : Nat) : ℝ := pi * p / 12

/-- Sine and cosine are not negative in the first quadrant and never zero together, so both coefficients have a denominator. -/
theorem sin_add_cos_pos {θ : ℝ} (hlow : 0 ≤ θ) (hhigh : θ ≤ pi / 2) : 0 < sin θ + cos θ := by
  have hsin : 0 ≤ sin θ := Real.sin_nonneg_of_nonneg_of_le_pi hlow (by linarith [Real.pi_pos])
  have hcos : 0 ≤ cos θ := Real.cos_nonneg_of_neg_pi_div_two_le_of_le (by linarith [Real.pi_pos]) hhigh
  nlinarith [Real.sin_sq_add_cos_sq θ]

section
variable (operand : Nat → ℝ) (p : Nat)

theorem exactValue_intensityMpeg1_left :
    exactValue operand (intensityMpeg1 p).1 = sin (intensityAngle p) / (sin (intensityAngle p) + cos (intensityAngle p)) := by
  simp [intensityMpeg1, exactValue, intensityAngle]

theorem exactValue_intensityMpeg1_right :
    exactValue operand (intensityMpeg1 p).2 = cos (intensityAngle p) / (sin (intensityAngle p) + cos (intensityAngle p)) := by
  simp [intensityMpeg1, exactValue, intensityAngle]

end

theorem intensityAngle_zero : intensityAngle 0 = 0 := by simp [intensityAngle]

theorem intensityAngle_three : intensityAngle 3 = pi / 4 := by rw [intensityAngle]; push_cast; ring

theorem intensityAngle_six : intensityAngle 6 = pi / 2 := by rw [intensityAngle]; push_cast; ring

/-- The legal positions stay in the first quadrant. -/
theorem intensityAngle_mem {p : Nat} (hp : p ≤ 6) : 0 ≤ intensityAngle p ∧ intensityAngle p ≤ pi / 2 := by
  have hcast : (p : ℝ) ≤ 6 := by exact_mod_cast hp
  rw [← intensityAngle_six]
  exact ⟨by unfold intensityAngle; positivity, by unfold intensityAngle; push_cast; gcongr⟩

/-- The two coefficients share their denominator, and their numerators add up to it. -/
theorem intensityMpeg1_add_eq_one (operand : Nat → ℝ) {p : Nat} (hp : p ≤ 6) :
    exactValue operand (intensityMpeg1 p).1 + exactValue operand (intensityMpeg1 p).2 = 1 := by
  obtain ⟨hlow, hhigh⟩ := intensityAngle_mem hp
  rw [exactValue_intensityMpeg1_left, exactValue_intensityMpeg1_right, ← add_div]
  exact div_self (sin_add_cos_pos hlow hhigh).ne'

end Sys2Proof.Machine

namespace Sys2Proof.Proofs
open Sys2Proof.Machine Sys2Proof.Claims

/-- Settles O43: the bound of the long bands lies above every nonzero line's band. -/
theorem longIntensityBandsLieAboveTheSpectrum : Obligations.LongIntensityBandsLieAboveTheSpectrum := by
  intro c s hkind
  simp only [inIntensityBand_long hkind, longBound_le_iff, long_mem_nonzeroLines hkind]
  exact ⟨fun hbelow l hl hne => hbelow _ ⟨l, hl, hne, rfl⟩, fun hbelow t ⟨l, hl, hne, ht⟩ => ht ▸ hbelow l hl hne⟩

/-- Settles O44, by the angles 0, π/4 and π/2 at positions 0, 3 and 6. -/
theorem intensityCoefficientValues : Obligations.IntensityCoefficientValues := by
  intro operand
  refine ⟨fun p hp => intensityMpeg1_add_eq_one operand hp, ?_⟩
  have hhalf : √(2 : ℝ) / 2 / √2 = 2⁻¹ := by field_simp
  simp [exactValue_intensityMpeg1_left, exactValue_intensityMpeg1_right, intensityAngle_zero, intensityAngle_three,
    intensityAngle_six, hhalf]

/-- Settles O42: outside joint stereo, and under mode extension 0, neither kind of stereo is on. -/
theorem plainStereoIsUntouched : Obligations.PlainStereoIsUntouched := fun _ _ _ _ _ x0 x1 hplain =>
  stereo_off (hdrStereoOff_iff.mpr hplain) x0 x1

end Sys2Proof.Proofs
end

section
/-! Proofs about reorder, antialias, IMDCT and overlap-add: the butterflies, the exact IMDCT, the zero tail of the overlap, a mono
frame's channel 1, and a frame that codes nothing (`44_imdct.md`). -/

namespace Sys2Proof.Machine
open Real (pi cos)

/-! ### Antialias (R301-R303) -/

theorem entry_antialias (kind : BlockKind) (x : Vector Word 576) {l : Nat} (hl : l < 576) :
    entry (antialias kind x) l 0 = antialiasLine (antialiasLast kind) x l := entry_tabulate_lt hl

theorem antialiasLast_le (kind : BlockKind) : antialiasLast kind ≤ 31 := by
  cases kind <;> decide

section
variable {last sb i l : Nat} {x : Vector Word 576}

/-- The line `i` above boundary `18*sb` becomes the high output of its pair. -/
theorem antialiasLine_above (hmin : 1 ≤ sb) (hmax : sb ≤ last) (hi : i < 8) :
    antialiasLine last x (18 * sb + i) = evalRule (.antialiasHigh i) [entry x (18 * sb - 1 - i) 0, entry x (18 * sb + i) 0] := by
  have hdiv : (18 * sb + i) / 18 = sb := by omega
  have hmod : (18 * sb + i) % 18 = i := by omega
  simp only [antialiasLine, hdiv, hmod]
  exact if_pos ⟨hi, hmin, hmax⟩

/-- The line `i + 1` below boundary `18*sb` becomes the low output of its pair. -/
theorem antialiasLine_below (hmin : 1 ≤ sb) (hmax : sb ≤ last) (hi : i < 8) :
    antialiasLine last x (18 * sb - 1 - i) = evalRule (.antialiasLow i) [entry x (18 * sb - 1 - i) 0, entry x (18 * sb + i) 0] := by
  have hdiv : (18 * sb - 1 - i) / 18 = sb - 1 := by omega
  have hmod : (18 * sb - 1 - i) % 18 = 17 - i := by omega
  have hsb : sb - 1 + 1 = sb := by omega
  have hpair : 17 - (17 - i) = i := by omega
  simp only [antialiasLine, hdiv, hmod, hsb, hpair]
  rw [if_neg (by omega), if_pos (by omega)]

/-- A line in no pair keeps its value. -/
theorem antialiasLine_of_unpaired
    (hfree : ∀ sb i, 1 ≤ sb → sb ≤ last → i < 8 → l ≠ 18 * sb - 1 - i ∧ l ≠ 18 * sb + i) :
    antialiasLine last x l = entry x l 0 := by
  unfold antialiasLine
  dsimp only
  split_ifs with habove hbelow
  · obtain ⟨hi, hmin, hmax⟩ := habove
    exact absurd (by omega) (hfree _ _ hmin hmax hi).2
  · obtain ⟨hi, hmax⟩ := hbelow
    exact absurd (by omega) (hfree (l / 18 + 1) (17 - l % 18) (by omega) hmax (by omega)).1
  · rfl

end

theorem antialias_short (x : Vector Word 576) : antialias .short x = x := by
  refine vector_ext_entry 0 fun l hl => ?_
  rw [entry_antialias _ _ hl]
  exact antialiasLine_of_unpaired fun sb i hmin hmax => absurd (hmin.trans hmax) (by decide)

/-! ### The antialias coefficients (R302) -/

section
variable (operand : Nat → ℝ) {i : Nat}

theorem exactValue_aaC (hi : i < 8) : exactValue operand (aaC i) =
    ([-0.6, -0.535, -0.33, -0.185, -0.095, -0.041, -0.0142, -0.0037] : List ℝ).getD i 0 := by
  interval_cases i <;> norm_num [aaC, antialiasC, exactValue]

theorem exactValue_aaCs (i : Nat) :
    exactValue operand (aaCs i) = 1 / √(1 + exactValue operand (aaC i) ^ 2) := by
  simp [aaCs, aaNorm, exactValue, sq]

theorem exactValue_aaCa (i : Nat) :
    exactValue operand (aaCa i) = exactValue operand (aaC i) / √(1 + exactValue operand (aaC i) ^ 2) := by
  simp [aaCa, aaNorm, exactValue, sq]

theorem exactValue_antialiasLow (i : Nat) : exactValue operand (Rule.antialiasLow i).rhs =
    operand 0 * exactValue operand (aaCs i) - operand 1 * exactValue operand (aaCa i) := rfl

theorem exactValue_antialiasHigh (i : Nat) : exactValue operand (Rule.antialiasHigh i).rhs =
    operand 1 * exactValue operand (aaCs i) + operand 0 * exactValue operand (aaCa i) := rfl

/-! ### The exact IMDCT (R305) -/

theorem sumTerms_cons_cons (e e' : RExpr) (es : List RExpr) : sumTerms (e :: e' :: es) = .add e (sumTerms (e' :: es)) := rfl

theorem exactValue_sumTerms (es : List RExpr) : exactValue operand (sumTerms es) = (es.map (exactValue operand)).sum := by
  induction es with
  | nil => simp [sumTerms, exactValue]
  | cons e es ih =>
    cases es with
    | nil => simp [sumTerms]
    | cons e' es => rw [sumTerms_cons_cons, exactValue, ih, ← List.sum_cons, ← List.map_cons]

/-- The exact value of a sum whose terms are numbered from 0. -/
theorem exactValue_sumTerms_range (n : Nat) (term : Nat → RExpr) :
    exactValue operand (sumTerms ((List.range n).map term)) = ∑ k ∈ Finset.range n, exactValue operand (term k) := by
  rw [exactValue_sumTerms, List.map_map]
  rfl

theorem exactValue_imdct (n i : Nat) : exactValue operand (Rule.imdct n i).rhs =
    ∑ k ∈ Finset.range (n / 2), operand k * cos (pi * ((2 * i + 1 + n / 2) * (2 * k + 1) : Nat) / (2 * n : Nat)) := by
  simp only [Rule.rhs, imdctRhs, exactValue_sumTerms_range, exactValue, Int.cast_natCast]

end

/-! ### The zero tail of a window (R306, R308, R320) -/

/-- A start block's window is 0 from index 30 on. -/
theorem longZ_start_tail (X : List Word) {j : Nat} (hj : 30 ≤ j) : longZ 1 X j = 0 := by
  have hwindow : longWindow 1 j = none := by
    simp [longWindow, show ¬j < 18 by omega, show ¬j < 24 by omega, show ¬j < 30 by omega]
  rw [longZ, hwindow]

/-- No short window reaches index 30. -/
theorem shortZ_tail (Xw : Nat → List Word) {j : Nat} (hj : 30 ≤ j) : shortZ Xw j = 0 := by
  have hreach : shortReach j = [] := by
    rw [shortReach, List.map_eq_nil_iff, List.filter_eq_nil_iff]
    intro w hw
    simp only [List.mem_cons, List.not_mem_nil, or_false] at hw
    simp only [Bool.and_eq_true, decide_eq_true_eq]
    omega
  rw [shortZ, hreach]
  rfl

theorem entry_subbandZ_long {gi : GranuleInfo} {sb j : Nat} (hlong : longSubband gi.kind sb = true) (hj : j < 36) (sfreq : Nat)
    (x : Vector Word 576) :
    entry (subbandZ sfreq gi x sb) j 0 = longZ (if gi.kind = .mixed then 0 else gi.blockType) (longInputs x sb) j := by
  rw [subbandZ, if_pos hlong]
  exact entry_tabulate_lt hj

theorem entry_subbandZ_short {gi : GranuleInfo} {sb j : Nat} (hshort : longSubband gi.kind sb = false) (hj : j < 36) (sfreq : Nat)
    (x : Vector Word 576) : entry (subbandZ sfreq gi x sb) j 0 = shortZ (shortInputs sfreq x sb) j := by
  rw [subbandZ, if_neg (Bool.eq_false_iff.mp hshort)]
  exact entry_tabulate_lt hj

/-- The new overlap of a subband is the second half of its windowed values, whatever the old one was (R316). -/
theorem entry_transform_overlap (sfreq : Nat) (gi : GranuleInfo) (x ov : Vector Word 576) {sb i : Nat} (hsb : sb < 32) (hi : i < 18) :
    entry (transform sfreq gi x ov).2 (18 * sb + i) 0 = entry (subbandZ sfreq gi (antialias gi.kind x) sb) (18 + i) 0 := by
  have hdiv : (18 * sb + i) / 18 = sb := by omega
  have hmod : (18 * sb + i) % 18 = i := by omega
  simp only [transform, entry_tabulate_lt (show 18 * sb + i < 576 by omega), hdiv, hmod, entry_tabulate_lt hsb]

/-! ### A mono frame and channel 1 (R319) -/

section
variable {h : Word} (hmono : hdrChannels h = 1) (si : SideInfo) (c : Channel)
include hmono

theorem decodeGranule_mono_setChan1 (gr : Nat) (w : FrameWork) :
    decodeGranule h si gr { w with chan1 := c } = { decodeGranule h si gr w with chan1 := c } := by
  simp only [decodeGranule, granuleOut, if_pos hmono]
  rfl

theorem decodeGranule_mono_chan1 (gr : Nat) (w : FrameWork) : (decodeGranule h si gr w).chan1 = w.chan1 := by
  simp only [decodeGranule, granuleOut, if_pos hmono]
  rfl

theorem decodeGranules_mono_setChan1 (n gr : Nat) (w : FrameWork) :
    decodeGranules h si n gr { w with chan1 := c } = { decodeGranules h si n gr w with chan1 := c } := by
  induction n generalizing gr w with
  | zero => rfl
  | succ n ih => rw [decodeGranules, decodeGranule_mono_setChan1 hmono, ih]; rfl

theorem decodeGranules_mono_chan1 (n gr : Nat) (w : FrameWork) : (decodeGranules h si n gr w).chan1 = w.chan1 := by
  induction n generalizing gr w with
  | zero => rfl
  | succ n ih => rw [decodeGranules, ih, decodeGranule_mono_chan1 hmono]

end

/-! ### A block that codes nothing (R250, R270) -/

theorem readSlot_pos (slot : Slot) (n : Nat) (sf : Scalefactors) (r : BitReader) : (readSlot slot n sf r).2.pos = r.pos + n := by
  cases slot <;> rfl

theorem pos_le_readSlots_pos (slots : List (Slot × Nat)) (sf : Scalefactors) (r : BitReader) :
    r.pos ≤ (readSlots slots sf r).2.pos := by
  induction slots generalizing sf r with
  | nil => exact le_rfl
  | cons p slots ih =>
    calc r.pos ≤ (readSlot p.1 p.2 sf r).2.pos := by rw [readSlot_pos]; exact Nat.le_add_right _ _
      _ ≤ _ := ih _ _

/-- Part 2 never moves the cursor back. -/
theorem pos_le_readScalefactors_pos (h : Word) (si : SideInfo) (gr ch : Nat) (sf : Scalefactors) (r : BitReader) :
    r.pos ≤ (readScalefactors h si gr ch sf r).2.pos := by
  unfold readScalefactors
  split
  · exact pos_le_readSlots_pos _ sf r
  · exact pos_le_readSlots_pos _ sf r

theorem huffmanBlock_silent {gi : GranuleInfo} {start : Nat} {r : BitReader} (hbig : gi.bigValues = 0) (hlen : gi.part23Length = 0)
    (hstart : start ≤ r.pos) (sfreq : Nat) : (huffmanBlock sfreq gi start r).1 = Vector.replicate 576 0 := by
  rw [huffmanBlock_eq, blockValues_empty hbig hlen hstart]
  exact tabulate_const fun _ _ => rfl

theorem decodeBlock_silent {si : SideInfo} (hempty : Claims.EmptyGranules si) (h : Word) (gr ch : Nat) (sf : Scalefactors)
    (md : BitReader) : (decodeBlock h si gr ch sf md).1.xr = Vector.replicate 576 0 := by
  obtain ⟨hlen, hbig⟩ := hempty gr ch
  have hq := huffmanBlock_silent hbig hlen (pos_le_readScalefactors_pos h si gr ch sf md) (hdrSfreq h)
  simp only [decodeBlock, hq, requantise_zero]

/-! ### A frame that codes nothing (R320, R338) -/

/-- A granule's PCM words are conversions of its samples. -/
theorem mem_interleave {y0 y1 : List Word} {p : Half} (hp : p ∈ interleave y0 y1) : ∃ v, (v ∈ y0 ∨ v ∈ y1) ∧ p = pcmOf v := by
  induction y0 generalizing y1 with
  | nil => cases y1 <;> simp [interleave] at hp
  | cons a y0 ih =>
    cases y1 with
    | nil => simp [interleave] at hp
    | cons b y1 =>
      simp only [interleave, List.mem_cons] at hp
      obtain rfl | rfl | hp := hp
      · exact ⟨a, by simp⟩
      · exact ⟨b, by simp⟩
      · obtain ⟨v, hv, rfl⟩ := ih hp
        exact ⟨v, hv.imp (List.mem_cons_of_mem a) (List.mem_cons_of_mem b), rfl⟩

theorem mem_pcmWords {ys : List (List Word)} {p : Half} (hp : p ∈ pcmWords ys) : ∃ y ∈ ys, ∃ v ∈ y, p = pcmOf v := by
  match ys with
  | [y0] =>
    obtain ⟨v, hv, rfl⟩ := List.mem_map.mp hp
    exact ⟨y0, by simp, v, hv, rfl⟩
  | [y0, y1] =>
    obtain ⟨v, hv | hv, rfl⟩ := mem_interleave hp
    · exact ⟨y0, by simp, v, hv, rfl⟩
    · exact ⟨y1, by simp, v, hv, rfl⟩
  | [] | _ :: _ :: _ :: _ => simp [pcmWords] at hp

/-- The signal state of both channels and all PCM words so far are zero. -/
structure FrameWork.Silent (w : FrameWork) : Prop where
  chan0 : w.chan0 = .zero
  chan1 : w.chan1 = .zero
  pcm : ∀ p ∈ w.pcm, p = 0

section
variable {si : SideInfo} (hempty : Claims.EmptyGranules si) (h : Word)
include hempty

/-- A granule that codes nothing keeps the zero signal state and gives zero samples. -/
theorem granuleOut_silent (gr : Nat) {w : FrameWork} (hw : w.Silent) :
    (granuleOut h si gr w).1.Silent ∧ ∀ y ∈ (granuleOut h si gr w).2, y = List.replicate 576 0 := by
  unfold granuleOut
  split
  · simp only [granuleMono, decodeBlock_silent hempty, hw.chan0, channelOut_zero]
    exact ⟨⟨rfl, hw.chan1, hw.pcm⟩, List.forall_mem_singleton.mpr rfl⟩
  · simp only [granuleDual, decodeBlock_silent hempty, stereo_zero, hw.chan0, hw.chan1, channelOut_zero]
    exact ⟨⟨rfl, rfl, hw.pcm⟩, List.forall_mem_cons.mpr ⟨rfl, List.forall_mem_singleton.mpr rfl⟩⟩

theorem decodeGranule_silent (gr : Nat) {w : FrameWork} (hw : w.Silent) : (decodeGranule h si gr w).Silent := by
  obtain ⟨hout, hsamples⟩ := granuleOut_silent hempty h gr hw
  refine ⟨hout.chan0, hout.chan1, List.forall_mem_append.mpr ⟨hout.pcm, fun p hp => ?_⟩⟩
  obtain ⟨y, hy, v, hv, rfl⟩ := mem_pcmWords hp
  rw [hsamples y hy] at hv
  rw [List.eq_of_mem_replicate hv, pcmOf_zero]

theorem decodeGranules_silent (n gr : Nat) {w : FrameWork} (hw : w.Silent) : (decodeGranules h si n gr w).Silent := by
  induction n generalizing gr w with
  | zero => exact hw
  | succ n ih => exact ih (gr + 1) (decodeGranule_silent hempty h gr hw)

theorem decodeMainData_silent (md : List Byte) {s : State} (hchan0 : s.chan0 = .zero) (hchan1 : s.chan1 = .zero) :
    (decodeMainData h si md s).Silent :=
  decodeGranules_silent hempty h _ _ ⟨hchan0, hchan1, nofun⟩

end

/-! ### The frame DECODE takes (R200, R201) -/

/-- Locating the frame does not touch the window, and DECODE goes on with it. -/
theorem decodeCommandRun_located {s s1 : State} {off fl : Nat} (ha : s.argsOk = true) (hloc : Claims.located s = some (off, fl, s1))
    (nw : Bool) : s1.mem = s.mem ∧ decodeCommandRun nw s = decodeLocated nw off fl (s.slice.word off) s1 := by
  unfold Claims.located at hloc
  split at hloc
  next found hfast =>
    cases hloc
    exact ⟨rfl, decodeCommandRun_fast ha hfast nw⟩
  next hfast =>
    split at hloc
    next _ _ _ hfind =>
      cases hloc
      rw [decodeCommandRun_search ha hfast, searchAndRun_some (s := s.stateReset) hfind]
      exact ⟨rfl, rfl⟩
    next => exact nomatch hloc

/-- A Layer III frame that passes its checks with enough reservoir ends OK (R360). -/
theorem decodeLocated_ok (nw : Bool) (off fl : Nat) {h : Word} {s : State} (hl : hdrLayer h = 3)
    (hcheck : sideCheck h (Claims.sideInfoAt s off fl h).1 (Claims.sideInfoAt s off fl h).2 = none)
    (hres : (Claims.sideInfoAt s off fl h).1.mainDataBegin ≤ s.reservoir.length) :
    decodeLocated nw off fl h s = frameOk nw h (Claims.mainDataAt s off fl h)
      (decodeMainData h (Claims.sideInfoAt s off fl h).1 (Claims.mainDataAt s off fl h) s) (afterLocation off fl h s) := by
  obtain ⟨hside, -⟩ | ⟨c, hside, -⟩ | ⟨-, hlow, -⟩ | ⟨-, -, hrun⟩ := decodeLocated_layer3_cases nw off fl s hl
  · exact nomatch hcheck.symm.trans hside
  · exact nomatch hcheck.symm.trans hside
  · exact absurd hres (Nat.not_le.mpr hlow)
  · exact hrun

end Sys2Proof.Machine

namespace Sys2Proof.Proofs
open Sys2Proof.Machine Sys2Proof.Claims

/-- Settles O45: the boundaries' pairs are disjoint, so each line is the output of at most one butterfly. -/
theorem antialiasButterflies : Obligations.AntialiasButterflies := by
  intro x
  refine ⟨fun kind sb i hmin hmax hi => ?_, fun kind l hl hfree => ?_, antialias_short x, rfl, rfl, fun operand i hi => ?_⟩
  · have hlast := antialiasLast_le kind
    rw [entry_antialias _ _ (by omega), entry_antialias _ _ (by omega)]
    exact ⟨antialiasLine_below hmin hmax hi, antialiasLine_above hmin hmax hi⟩
  · rw [entry_antialias _ _ hl, antialiasLine_of_unpaired hfree]
  · rw [exactValue_antialiasLow, exactValue_antialiasHigh, exactValue_aaCs, exactValue_aaCa, exactValue_aaC operand hi]
    exact ⟨rfl, rfl⟩

/-- Settles O46: term by term, the two spellings of the angle agree. -/
theorem imdctIsRule305 : Obligations.ImdctIsRule305 := by
  intro Y n i hn _
  rw [exactValue_imdct]
  refine Finset.sum_congr rfl fun k _ => ?_
  congr 2
  obtain rfl | rfl := hn
  · push_cast
    ring
  · push_cast
    ring

/-- Settles O47: the new overlap is the windowed values from index 18 on, and the window is 0 from index 30 on. -/
theorem windowTailsAreZero : Obligations.WindowTailsAreZero := by
  intro sfreq gi x ov sb i hsb hmin hmax hcase
  rw [entry_transform_overlap sfreq gi x ov hsb hmax]
  obtain ⟨hkind, hstart⟩ | hkind | ⟨hkind, htwo⟩ := hcase
  · rw [entry_subbandZ_long (by rw [hkind]; rfl) (by omega), hkind, hstart]
    exact longZ_start_tail _ (by omega)
  · rw [entry_subbandZ_short (by rw [hkind]; rfl) (by omega)]
    exact shortZ_tail _ (by omega)
  · rw [entry_subbandZ_short (by rw [hkind]; exact decide_eq_false (by omega)) (by omega)]
    exact shortZ_tail _ (by omega)

/-- Settles O49, granule by granule. -/
theorem monoFramesLeaveChannelOneAlone : Obligations.MonoFramesLeaveChannelOneAlone := fun _ si md s c hmono =>
  ⟨decodeGranules_mono_setChan1 hmono si c _ _ (frameStart md s), decodeGranules_mono_chan1 hmono si _ _ (frameStart md s)⟩

/-- Settles O22: every granule of the frame keeps the silence. -/
theorem silenceDecodesToSilence : Obligations.SilenceDecodesToSilence := by
  intro s s1 off fl h hargs hloc hlayer hchan0 hchan1 hcheck hres hempty
  obtain ⟨hmem, hrun⟩ := decodeCommandRun_located hargs hloc false
  have hsilent := decodeMainData_silent hempty h (mainDataAt s1 off fl h) hchan0 hchan1
  have hpcm := List.eq_replicate_iff.mpr ⟨length_decodeMainData h _ (mainDataAt s1 off fl h) s1, hsilent.pcm⟩
  obtain ⟨-, hend, hsamples, -, -, ht0, ht1, -, hwritten, -⟩ := okRow false off fl h (mainDataAt s1 off fl h)
    (decodeMainData h (sideInfoAt s1 off fl h).1 (mainDataAt s1 off fl h) s1) s1
  rw [← decodeLocated_ok false off fl hlayer hcheck hres] at hend hsamples ht0 ht1 hwritten
  refine ⟨_, exec_decodeInstr false s, ?_⟩
  rw [hrun, hdrSamples_layer3 hlayer, ← hpcm]
  obtain ⟨hwords, hothers⟩ := hwritten
  exact ⟨hend, hsamples, ⟨hwords, fun a ha => hmem ▸ hothers a ha⟩, ht0.trans hsilent.chan0, ht1.trans hsilent.chan1⟩

end Sys2Proof.Proofs
end

section
/-! Proofs about synthesis and PCM conversion: the symmetry of the exact matrixed vector, and R335's rounding of a finite sample
(`45_synthesis.md`). -/

namespace Sys2Proof.Machine
open Real (pi cos)

/-! ### The exact matrixed vector (R331, R332) -/

theorem exactValue_matrixing (operand : Nat → ℝ) (i : Nat) : exactValue operand (Rule.matrixing i).rhs =
    ∑ k ∈ Finset.range 32, cos (pi * ((16 + i) * (2 * k + 1) : Nat) / 64) * operand k := by
  simp only [Rule.rhs, matrixRhs, exactValue_sumTerms_range, exactValue, Int.cast_natCast, Nat.cast_ofNat]

/-- When `16 + i` and `16 + j` add up to `c` times 64, the two angles of each operand add up to an odd multiple of `c * π`. -/
theorem matrixing_angle_reflect {i j c : Nat} (h : (16 + j) + (16 + i) = 64 * c) (k : Nat) :
    pi * ((16 + j) * (2 * k + 1) : Nat) / 64 = (2 * (c * k) + c : Nat) * pi - pi * ((16 + i) * (2 * k + 1) : Nat) / 64 := by
  have hj : (16 : ℝ) + j = 64 * c - (16 + i) := eq_sub_of_add_eq (by exact_mod_cast h)
  push_cast [hj]
  ring

/-- Both symmetries of R332: `c` is 1 about entry 16 and 2 about entry 48. -/
theorem exactValue_matrixing_reflect (operand : Nat → ℝ) {i j c : Nat} (h : (16 + j) + (16 + i) = 64 * c) :
    exactValue operand (Rule.matrixing j).rhs = (-1) ^ c * exactValue operand (Rule.matrixing i).rhs := by
  rw [exactValue_matrixing, exactValue_matrixing, Finset.mul_sum]
  refine Finset.sum_congr rfl fun k _ => ?_
  rw [matrixing_angle_reflect h, Real.cos_nat_mul_pi_sub, pow_add, (even_two_mul _).neg_one_pow, one_mul, mul_assoc]

/-! ### PCM conversion (R335) -/

theorem realRoundHalfAway_eq_sign_mul (x : ℝ) : realRoundHalfAway x = (SignType.sign x : ℤ) * ⌊|x| + 1 / 2⌋ := by
  rw [realRoundHalfAway]
  obtain hneg | rfl | hpos := lt_trichotomy x 0
  · simp [hneg]
  · norm_num
  · simp [hpos, hpos.le]

theorem floor_intCast_add_half (n : ℤ) : ⌊(n : ℝ) + 1 / 2⌋ = n := by
  rw [Int.floor_intCast_add]
  norm_num

/-- Over the common denominator `2 ^ k` the half is `2 ^ (k - 1)`, so the floor is one natural division. -/
theorem floor_div_two_pow_add_half (n : Nat) {k : Nat} (hk : k ≠ 0) :
    ⌊(n : ℝ) / 2 ^ k + 1 / 2⌋ = ((n + 2 ^ (k - 1)) / 2 ^ k : Nat) := by
  obtain ⟨k, rfl⟩ := Nat.exists_eq_add_one_of_ne_zero hk
  have hquot : (n : ℝ) / 2 ^ (k + 1) + 1 / 2 = (n + 2 ^ k : Nat) / (2 ^ (k + 1) : Nat) := by
    push_cast
    field_simp
    ring
  rw [hquot, Int.floor_div_natCast, Int.floor_natCast, Nat.add_sub_cancel, Int.natCast_ediv]

/-- The model's integer rounding of `m * 2 ^ e` is R335's real one. -/
theorem realRoundHalfAway_mul_zpow (m e : ℤ) : realRoundHalfAway (m * (2 : ℝ) ^ e) = roundHalfAway m e := by
  have hpow : (0 : ℝ) < 2 ^ e := zpow_pos two_pos e
  have hsign : (SignType.sign ((m : ℝ) * 2 ^ e) : ℤ) = m.sign := by
    rw [sign_mul, sign_pos hpow, mul_one, sign_intCast, Int.sign_eq_sign]
  rw [realRoundHalfAway_eq_sign_mul, hsign, abs_mul, abs_of_pos hpow, roundHalfAway]
  split_ifs with he
  · obtain ⟨k, rfl⟩ := Int.eq_ofNat_of_zero_le he
    have hint : |(m : ℝ)| * 2 ^ (k : ℤ) = (|m| * 2 ^ k : ℤ) := by push_cast; rw [zpow_natCast]
    rw [hint, floor_intCast_add_half, ← mul_assoc, Int.sign_mul_abs, Int.toNat_natCast]
  · obtain ⟨k, rfl⟩ := Int.exists_eq_neg_ofNat (not_le.mp he).le
    have hquot : |(m : ℝ)| * 2 ^ (-k : ℤ) = m.natAbs / 2 ^ k := by
      rw [zpow_neg, zpow_natCast, Nat.cast_natAbs, Int.cast_abs, div_eq_mul_inv]
    rw [hquot, floor_div_two_pow_add_half _ (by omega), neg_neg, Int.toNat_natCast]

theorem sat16_mem (v : ℤ) : -32768 ≤ sat16 v ∧ sat16 v ≤ 32767 := by
  unfold sat16
  split_ifs <;> omega

theorem toInt_ofInt_sat16 (v : ℤ) : (BitVec.ofInt 16 (sat16 v)).toInt = sat16 v := by
  obtain ⟨hlow, hhigh⟩ := sat16_mem v
  exact BitVec.toInt_ofInt_eq_self (by decide) (by omega) (by omega)

theorem pcmOf_finite {y : Word} {m e : ℤ} (h : binary32Value y = some (m, e)) :
    pcmOf y = BitVec.ofInt 16 (sat16 (roundHalfAway m (e + 15))) := by
  rw [pcmOf, h]

end Sys2Proof.Machine

namespace Sys2Proof.Proofs
open Sys2Proof.Machine Sys2Proof.Claims

/-- Settles O48: entries `32 - i` and `i` reflect with `c = 1`, entries `96 - i` and `i` with `c = 2`. -/
theorem matrixedVectorSymmetry : Obligations.MatrixedVectorSymmetry := by
  refine fun operand => ⟨fun i hi => ?_, fun i _ hi => ?_⟩
  · rw [exactValue_matrixing_reflect operand (i := i) (c := 1) (by omega), pow_one, neg_one_mul]
  · rw [exactValue_matrixing_reflect operand (i := i) (c := 2) (by omega), neg_one_sq, one_mul]

/-- Settles O50: `32768 * (m * 2 ^ e)` is `m * 2 ^ (e + 15)`, which the model rounds as R335 does. -/
theorem pcmConversionIsRule335 : Obligations.PcmConversionIsRule335 := by
  intro y x hx
  obtain ⟨⟨m, e⟩, hvalue, rfl⟩ := Option.map_eq_some_iff.mp hx
  have hscale : (32768 : ℝ) * (m * 2 ^ e) = m * 2 ^ (e + 15) := by
    rw [zpow_add₀ two_ne_zero]
    norm_num
    ring
  rw [pcmOf_finite hvalue, toInt_ofInt_sat16, hscale, realRoundHalfAway_mul_zpow]

end Sys2Proof.Proofs
end

section
/-! Proofs about the commands as a whole: the reservoir, what DECODE and PROBE read of the window and what they write of it, and runs
whose host keeps its duties (`46_reservoir_decode.md`). -/

namespace Sys2Proof.Machine

/-! ### Which bytes the reservoir restores and saves (R351, R353) -/

theorem reservoirRestore_eq (res : List Byte) (b : Nat) (fresh : List Byte) :
    reservoirRestore res b fresh = res.drop (res.length - min res.length b) ++ fresh := by
  rw [reservoirRestore, show res.length - min res.length b = res.length - b by omega]

theorem reservoirSave_eq (md : List Byte) (p : Nat) :
    reservoirSave md p = md.drop (md.length - min (md.length - p) 511) := by
  rw [reservoirSave, List.drop_eq_drop_iff, Config.resMax]
  omega

/-! ### Reading the window only inside the slice (R82, R363) -/

/-- `s` with another window content. -/
def State.withMem (m : Memory) (s : State) : State := { s with mem := m }

/-- Memory `m` holds the bytes of the slice of `s`. -/
def AgreesOnSlice (s : State) (m : Memory) : Prop := s.slice.Agree (s.withMem m).slice

theorem agreesOnSlice_self (s : State) : AgreesOnSlice s s.mem := ⟨rfl, fun _ _ => rfl⟩

section
variable {S T : Slice} (hag : S.Agree T) {off fl : Nat} (hfit : off + fl ≤ S.len)
include hag hfit

theorem frameReader_agree (h : Word) : frameReader S off fl h = frameReader T off fl h := by
  rw [frameReader, hag.bytes hfit, frameReader]

/-- The fresh bytes lie in the frame, or there are none. -/
theorem freshBytes_agree (siEnd : Nat) : freshBytes S off fl siEnd = freshBytes T off fl siEnd := by
  unfold freshBytes
  by_cases hin : siEnd / 8 ≤ fl
  · exact hag.bytes (by omega)
  · rw [Nat.sub_eq_zero_of_le (by omega)]
    rfl

end

/-- The fast path reads the first four bytes of a slice that has them, and the four after a frame only where the slice holds them
(R200). -/
theorem fastPath_agree {s : State} {m : Memory} (hag : AgreesOnSlice s m) : fastPath (s.withMem m) = fastPath s := by
  ext fl
  rw [fastPath_eq_some_iff, fastPath_eq_some_iff]
  refine and_congr_right fun hlen => ?_
  rw [← hag.word (p := 0) (Nat.le_of_lt hlen)]
  refine and_congr_right' (and_congr_right' (and_congr_right' (and_congr_right' (or_congr_right (and_congr_right fun hfits => ?_)))))
  rw [← hag.word (p := fl) hfits]

/-! ### What a command writes of the window (R336, R361) -/

/-- The window after a command that ends with these PCM words, or with none. -/
def Memory.withPcm (m : Memory) : Option (List Half) → Memory
  | none => m
  | some ws => m.write pcmBase (halfBytes ws)

theorem emitPcm_nowrite (ws : List Half) (s : State) : s.emitPcm true ws = s := rfl

theorem emitPcm_withMem (nw : Bool) (ws : List Half) (m : Memory) (s : State) :
    (s.withMem m).emitPcm nw ws = s.withMem (if nw then m else m.withPcm (some ws)) := by
  cases nw <;> rfl

/-- Each byte of the window is kept or has the value the PCM words give it. -/
theorem withPcm_read (ws : Option (List Half)) (m m' : Memory) (a : Nat) :
    ((m.withPcm ws).read a = m.read a ∧ (m'.withPcm ws).read a = m'.read a) ∨ (m'.withPcm ws).read a = (m.withPcm ws).read a := by
  cases ws with
  | none => exact .inl ⟨rfl, rfl⟩
  | some ws =>
    simp only [Memory.withPcm, read_write]
    split
    · exact .inr rfl
    · exact .inl ⟨rfl, rfl⟩

/-- From every memory that agrees on the slice of `s`, and with NOWRITE or without, `run` answers one state up to memory, and in memory
it writes the same PCM words, or nothing when NOWRITE. -/
def PcmApart (s : State) (run : Bool → State → State) : Prop :=
  ∃ ws, ∀ nw m, AgreesOnSlice s m →
    run nw (s.withMem m) = (run true s).withMem (if nw then m else m.withPcm ws)

namespace PcmApart

/-- An operation that neither reads nor writes the window. -/
theorem of_memFree {s : State} {run : Bool → State → State} (h : ∀ nw m, run nw (s.withMem m) = (run true s).withMem m) :
    PcmApart s run :=
  ⟨none, fun nw m _ => by rw [h nw m]; cases nw <;> rfl⟩

/-- It is enough to know an operation on the states that differ from `s` outside the slice at most. -/
theorem congr {s : State} {run run' : Bool → State → State} (h : PcmApart s run')
    (heq : ∀ nw m, AgreesOnSlice s m → run nw (s.withMem m) = run' nw (s.withMem m)) : PcmApart s run := by
  obtain ⟨ws, hws⟩ := h
  refine ⟨ws, fun nw m hag => ?_⟩
  rw [heq nw m hag, hws nw m hag, show run true s = run' true s from heq true s.mem (agreesOnSlice_self s)]

/-- An operation that comes first and does not touch the window. -/
theorem after {s : State} {run : Bool → State → State} (f : State → State) (hf : ∀ m, f (s.withMem m) = (f s).withMem m)
    (hag : ∀ m, AgreesOnSlice s m → AgreesOnSlice (f s) m) (h : PcmApart (f s) run) : PcmApart s fun nw u => run nw (f u) := by
  obtain ⟨ws, hws⟩ := h
  exact ⟨ws, fun nw m hm => (congrArg (run nw) (hf m)).trans (hws nw m (hag m hm))⟩

theorem frameUnsupported (s : State) : PcmApart s fun _ => frameUnsupported := of_memFree fun _ _ => rfl

theorem noFrame (s : State) : PcmApart s fun _ => noFrame := of_memFree fun _ _ => rfl

theorem frameCorrupt (h : Word) (s : State) : PcmApart s fun nw => frameCorrupt nw h := by
  refine ⟨some (zeroPcm h), fun nw m _ => ?_⟩
  simp only [Machine.frameCorrupt, emitPcm_withMem, emitPcm_nowrite]
  rfl

theorem frameUnderflow (h : Word) (md : List Byte) (s : State) : PcmApart s fun nw => frameUnderflow nw h md := by
  refine ⟨some (zeroPcm h), fun nw m _ => ?_⟩
  simp only [Machine.frameUnderflow, emitPcm_withMem, emitPcm_nowrite]
  generalize reservoirSave md 0 = saved
  rfl

theorem frameOk (h : Word) (md : List Byte) (w : FrameWork) (s : State) : PcmApart s fun nw => frameOk nw h md w := by
  refine ⟨some w.pcm, fun nw m _ => ?_⟩
  simp only [Machine.frameOk, emitPcm_withMem, emitPcm_nowrite]
  generalize reservoirSave md (bytesConsumed w.md.pos) = saved
  rfl

/-- The side information and the fresh bytes, all that a Layer III frame reads of the window, lie in the slice (R350, R360). -/
theorem decodeLayer3 {s : State} {off fl : Nat} (hfit : off + fl ≤ s.inLen.toNat) (h : Word) :
    PcmApart s fun nw => decodeLayer3 nw off fl h := by
  rcases hread : readSideInfo h (frameReader s.slice off fl h) with ⟨si, fr⟩
  have hread' m (hag : AgreesOnSlice s m) : readSideInfo h (frameReader (s.withMem m).slice off fl h) = (si, fr) := by
    rw [← frameReader_agree hag hfit, hread]
  cases hcheck : sideCheck h si fr with
  | some c =>
    cases c with
    | unsupported => exact (frameUnsupported s).congr fun nw m hag => by simp only [Machine.decodeLayer3, hread' m hag, hcheck]
    | ok | noFrame | corrupt | resUnderflow | illegalCmd | badArgs =>
      exact (frameCorrupt h s).congr fun nw m hag => by simp only [Machine.decodeLayer3, hread' m hag, hcheck]
  | none =>
    let md := reservoirRestore s.reservoir si.mainDataBegin (freshBytes s.slice off fl fr.pos)
    have hmd m (hag : AgreesOnSlice s m) :
        reservoirRestore (s.withMem m).reservoir si.mainDataBegin (freshBytes (s.withMem m).slice off fl fr.pos) = md := by
      rw [← freshBytes_agree hag hfit]
      rfl
    by_cases hres : reservoirUnderflow s.reservoir si.mainDataBegin = true
    · refine (frameUnderflow h md s).congr fun nw m hag => ?_
      simp only [Machine.decodeLayer3, hread' m hag, hcheck, hmd m hag]
      exact if_pos hres
    · refine (frameOk h md (decodeMainData h si md s) s).congr fun nw m hag => ?_
      simp only [Machine.decodeLayer3, hread' m hag, hcheck, hmd m hag]
      exact if_neg hres

/-- A located frame (R360). -/
theorem decodeLocated {s : State} {off fl : Nat} (hfit : off + fl ≤ s.inLen.toNat) (h : Word) :
    PcmApart s fun nw => decodeLocated nw off fl h := by
  by_cases hl : hdrLayer h = 3
  · have hlayer3 := decodeLayer3 (s := afterLocation off fl h s) hfit h
    refine (after (afterLocation off fl h) (fun _ => rfl) (fun _ => id) hlayer3).congr fun nw m _ => ?_
    rw [decodeLocated_eq, if_pos hl]
  · refine (after (afterLocation off fl h) (fun _ => rfl) (fun _ => id) (frameUnsupported _)).congr fun nw m _ => ?_
    rw [decodeLocated_eq, if_neg hl]

/-- A search finds the frame, and hands it to its command, from the slice alone (R190). -/
theorem searchAndRun {s : State} (mode : Bool → ScanMode)
    (hlocated : ∀ {off fl} ff h, off + fl ≤ s.inLen.toNat → PcmApart s fun nw => onLocated (mode nw) off fl ff h) :
    PcmApart s fun nw => searchAndRun (mode nw) := by
  have hfind m (hag : AgreesOnSlice s m) := findFrame_agree hag
  cases hfound : findFrame s.slice with
  | none => exact (noFrame s).congr fun nw m hag => searchAndRun_none ((hfind m hag).symm.trans hfound) _
  | some found =>
    obtain ⟨off, fl, ff⟩ := found
    obtain ⟨hoff, hcand, -⟩ := findFrame_some hfound
    refine (hlocated ff (s.slice.word off) (candidate_fits hcand)).congr fun nw m hag => ?_
    rw [searchAndRun_some ((hfind m hag).symm.trans hfound), hag.word (Nat.le_of_lt hoff)]

/-- PROBE (R210). -/
theorem searchProbe (s : State) : PcmApart s fun _ => Machine.searchAndRun .probe :=
  searchAndRun (fun _ => .probe) fun _ _ _ => of_memFree fun _ _ => rfl

/-- The search of DECODE and DECODE.nw (R201, R360). -/
theorem searchDecode (s : State) : PcmApart s fun nw => Machine.searchAndRun (.decode nw) :=
  searchAndRun .decode fun {off fl} ff h hfit =>
    after (run := fun nw => Machine.decodeLocated nw off fl h) (fun u => { u with freeFormat := ff }) (fun _ => rfl) (fun _ => id)
      (decodeLocated (s := { s with freeFormat := ff }) hfit h)

/-- DECODE and DECODE.nw (R360, R361). -/
theorem decodeCommandRun (s : State) : PcmApart s decodeCommandRun := by
  cases hargs : s.argsOk with
  | false =>
    exact (of_memFree (run := fun _ => State.raiseResult .badArgs) fun _ _ => rfl).congr fun nw m _ =>
      decodeCommandRun_badArgs (s := s.withMem m) hargs nw
  | true =>
    cases hfast : fastPath s with
    | some fl =>
      obtain ⟨hlen, -, -, -, hfit⟩ := fastPath_some hfast
      refine (decodeLocated (off := 0) ((Nat.zero_add fl).trans_le hfit) (s.slice.word 0)).congr fun nw m hag => ?_
      rw [decodeCommandRun_fast (s := s.withMem m) hargs ((fastPath_agree hag).trans hfast), hag.word (p := 0) (Nat.le_of_lt hlen)]
    | none =>
      exact (after State.stateReset (fun _ => rfl) (fun _ => id) (searchDecode s.stateReset)).congr fun nw m hag =>
        decodeCommandRun_search (s := s.withMem m) hargs ((fastPath_agree hag).trans hfast) nw

/-- From two memories that agree on the slice come one state up to memory, and bytes kept in both or written alike (R82, R363). -/
theorem reads_only_slice {s : State} {run : Bool → State → State} (h : PcmApart s run) (nw : Bool) {m : Memory}
    (hag : AgreesOnSlice s m) :
    run nw (s.withMem m) = (run nw s).withMem (run nw (s.withMem m)).mem
      ∧ ∀ a, ((run nw s).mem.read a = s.mem.read a ∧ (run nw (s.withMem m)).mem.read a = m.read a)
        ∨ (run nw (s.withMem m)).mem.read a = (run nw s).mem.read a := by
  obtain ⟨ws, hws⟩ := h
  have hself : run nw s = (run true s).withMem (if nw then s.mem else s.mem.withPcm ws) := hws nw s.mem (agreesOnSlice_self s)
  rw [hws nw m hag, hself]
  refine ⟨rfl, fun a => ?_⟩
  cases nw with
  | true => exact .inl ⟨rfl, rfl⟩
  | false => exact withPcm_read ws s.mem m a

/-- With NOWRITE memory stays, and nothing else differs (R361). -/
theorem nowrite {s : State} {run : Bool → State → State} (h : PcmApart s run) : run true s = (run false s).withMem s.mem := by
  obtain ⟨ws, hws⟩ := h
  have hself nw : run nw s = (run true s).withMem (if nw then s.mem else s.mem.withPcm ws) := hws nw s.mem (agreesOnSlice_self s)
  rw [hself false]
  exact hself true

end PcmApart

/-! ### Runs whose host keeps its duties (R440) -/

/-- The induction over a run, once: `P n` says enough for `n` more steps when each step answers and leaves `P` for the steps after it. -/
theorem run_next_of_kept {P : Nat → State → Prop} (hstep : ∀ n s, P (n + 1) s → ∃ t, step s = .next t ∧ P n t) {n : Nat}
    {s : State} (h : P n s) : ∃ t, Sys2Proof.core.run n s = .next t := by
  induction n generalizing s with
  | zero => exact ⟨s, rfl⟩
  | succ n ih =>
    obtain ⟨t, ht, hP⟩ := hstep n s h
    rw [run_succ ht]
    exact ih hP

/-- Each access that one of the next `n` steps takes is admitted in the state whose step takes it. -/
def AdmittedFor (n : Nat) (s : State) : Prop :=
  ∀ k u op, k < n → Sys2Proof.core.run k s = .next u → u.nextAccess = some op → op.admitted u.busy = true

theorem AdmittedFor.step {n : Nat} {s : State} (h : AdmittedFor (n + 1) s) : ∃ t, step s = .next t ∧ AdmittedFor n t := by
  obtain ⟨t, ht, -⟩ := step_next fun op => h 0 s op (Nat.succ_pos n) rfl
  exact ⟨t, ht, fun k u op hk hrun => h (k + 1) u op (Nat.succ_lt_succ hk) ((run_succ ht k).trans hrun)⟩

/-- The access a step takes is the first of the host's program. -/
theorem bus_of_nextAccess {s : State} {op : HostOp} (h : s.nextAccess = some op) : ∃ rest, s.bus = op :: rest := by
  unfold State.nextAccess at h
  split at h
  · exact nomatch h
  · split_ifs at h <;> cases h <;> exact ⟨_, ‹_›⟩

/-- A program that keeps its duties still does where fewer commands may be running. -/
theorem keepsDuties_mono {b c : Bool} {ops : List HostOp} (h : keepsDuties b ops = true) (hle : c = true → b = true) :
    keepsDuties c ops = true := by
  cases b with
  | true => exact keepsDuties_of_busy h c
  | false =>
    cases c with
    | true => exact absurd (hle rfl) Bool.false_ne_true
    | false => exact h

/-- A host program that keeps its duties is not stopped, and what is left of it keeps them too. -/
theorem step_keepsDuties {s : State} (h : keepsDuties s.busy s.bus = true) :
    ∃ t, step s = .next t ∧ keepsDuties t.busy t.bus = true := by
  have hadmitted op (hop : s.nextAccess = some op) : op.admitted s.busy = true := by
    obtain ⟨rest, hbus⟩ := bus_of_nextAccess hop
    rw [hbus, keepsDuties, Bool.and_eq_true] at h
    obtain ⟨hfirst, -⟩ := h
    exact hfirst
  obtain ⟨t, ht, ⟨hbus, hengine⟩ | ⟨op, rest, hbus, hrest, hwait, hother⟩⟩ := step_next hadmitted
  · refine ⟨t, ht, ?_⟩
    rw [hbus]
    obtain hnil | hbusy := hengine
    · rw [hnil]
      rfl
    · exact keepsDuties_mono h fun _ => hbusy
  · rw [hbus, keepsDuties, Bool.and_eq_true] at h
    obtain ⟨-, hlater⟩ := h
    refine ⟨t, ht, ?_⟩
    rw [hrest]
    refine keepsDuties_mono hlater fun hbusy => hother (fun hop => ?_) hbusy
    exact absurd (hwait hop) (by simp [hbusy])

end Sys2Proof.Machine

namespace Sys2Proof.Proofs
open Sys2Proof.Machine Sys2Proof.Claims

/-- Settles O13: one step is not stopped and keeps what the next needs, for both forms of the host's duty. -/
theorem admittedRunsNeverStop : Obligations.AdmittedRunsNeverStop := fun s n =>
  ⟨run_next_of_kept (P := AdmittedFor) (n := n) (s := s) fun _ _ h => h.step,
    run_next_of_kept (P := fun _ u => keepsDuties u.busy u.bus = true) (n := n) (s := s) fun _ _ h => step_keepsDuties h⟩

/-- Settles O19: the frame's PCM words are the one thing NOWRITE takes away. -/
theorem decodeNwDiffersOnlyInPcm : Obligations.DecodeNwDiffersOnlyInPcm := by
  intro s t ht
  cases ht
  exact congrArg Host.Outcome.next (PcmApart.decodeCommandRun s).nowrite

/-- Settles O20, for the two forms of DECODE and for PROBE. -/
theorem commandsReadOnlyTheSlice : Obligations.CommandsReadOnlyTheSlice := by
  intro i s m hi hm
  have hag : AgreesOnSlice s m := ⟨rfl, fun p hp => (hm p hp).symm⟩
  obtain rfl | rfl | rfl := hi
  · exact ⟨_, _, rfl, rfl, (PcmApart.decodeCommandRun s).reads_only_slice false hag⟩
  · exact ⟨_, _, rfl, rfl, (PcmApart.decodeCommandRun s).reads_only_slice true hag⟩
  · cases hargs : s.argsOk with
    | false => exact ⟨_, _, exec_probe_badArgs hargs, exec_probe_badArgs hargs, rfl, fun _ => .inl ⟨rfl, rfl⟩⟩
    | true => exact ⟨_, _, exec_probe_search hargs, exec_probe_search hargs, (PcmApart.searchProbe s).reads_only_slice false hag⟩

/-- Settles O51: both drop what stands before the last bytes kept. -/
theorem reservoirKeepsTheLastBytes : Obligations.ReservoirKeepsTheLastBytes := fun res fresh b p =>
  ⟨reservoirRestore_eq res b fresh, length_reservoirRestore res b fresh, length_reservoirSave fresh p, reservoirSave_eq fresh p⟩

/-- Settles O15: `state_reset()`, then the end of a command with OK. -/
theorem resetCommandEffect : Obligations.ResetCommandEffect := fun s => exec_command .reset s rfl

end Sys2Proof.Proofs
end

section
/-! Proofs about how commands end: every command word's instruction completes, with DONE set, and leaves the host's registers and the
window outside PCM_BUF alone (`60_exceptions.md`). -/

namespace Sys2Proof.Machine

/-- What `Finished` says but for the GETBITS registers, so that GETBITS meets it too (R34, R82, R411). -/
structure Completed (s t : State) : Prop extends Kept s t where
  done : t.done = true
  idle : t.engine = .idle
  mem : ∀ a, (a < pcmBase ∨ pcmBase + 2 * Config.pcmWords ≤ a) → t.mem.read a = s.mem.read a

theorem Finished.completed {s t : State} (h : Finished s t) : Completed s t := { h with }

/-- Raising a result ends a command that has not touched the window (R34, R400). -/
theorem Kept.completed_raiseResult {s u : State} (h : Kept s u) (hmem : u.mem = s.mem) (code : ResultCode) :
    Completed s (u.raiseResult code) :=
  { h with done := rfl, idle := rfl, mem := fun _ _ => congrArg (Memory.read · _) hmem }

theorem Kept.sameInputs {s t : State} (h : Kept s t) : Claims.SameInputs s t :=
  ⟨h.cmd, h.overrun, h.irqEn, h.inOff, h.inLen, h.brLimit, h.bus, h.busData⟩

theorem kept_refl (s : State) : Kept s s := ⟨rfl, rfl, rfl, rfl, rfl, rfl, rfl, rfl⟩

/-- What RESET changes is DecoderState (R380). -/
theorem kept_stateReset (s : State) : Kept s s.stateReset := { kept_refl s with }

/-- What GETBITS changes is its value and its cursor (R167). -/
theorem kept_bitRegs (s : State) (data pos : Word) : Kept s { s with brData := data, brPos := pos } := { kept_refl s with }

/-- Every command word's instruction completes, whatever its result (R411). -/
theorem exec_command_completed {i : Instr} (hi : i.space = .command) (s : State) : ∃ t, exec i s = .next t ∧ Completed s t := by
  have hraise code : Completed s (s.raiseResult code) := (kept_refl s).completed_raiseResult rfl code
  cases i with
  | reset => exact ⟨_, exec_command .reset s hi, (kept_stateReset s).completed_raiseResult rfl .ok⟩
  | decode => exact ⟨_, exec_decodeInstr false s, (finished_decodeCommandRun false s).completed⟩
  | decodeNw => exact ⟨_, exec_decodeInstr true s, (finished_decodeCommandRun true s).completed⟩
  | probe =>
    cases hargs : s.argsOk with
    | false => exact ⟨_, exec_probe_badArgs hargs, hraise .badArgs⟩
    | true => exact ⟨_, exec_probe_search hargs, (finished_searchAndRun .probe s).completed⟩
  | getbits n =>
    have hkept := kept_bitRegs s (BitVec.ofNat 32 (s.bitReader.getBits n.toNat).1) (s.brPos + BitVec.ofNat 32 n.toNat)
    exact ⟨_, exec_command (.getbits n) s hi, hkept.completed_raiseResult rfl .ok⟩
  | illegal w => exact ⟨_, exec_command (.illegal w) s hi, hraise .illegalCmd⟩
  | _ => exact nomatch hi

end Sys2Proof.Machine

namespace Sys2Proof.Proofs
open Sys2Proof.Machine Sys2Proof.Claims

/-- Settles O14: the end of every command is `Completed`, and an idle engine is BUSY = 0. -/
theorem everyCommandCompletes : Obligations.EveryCommandCompletes := by
  intro i s hi
  obtain ⟨t, hexec, hcompleted⟩ := exec_command_completed hi s
  have hbusy : t.busy = false := by rw [State.busy, hcompleted.idle]; rfl
  exact ⟨t, hexec, hcompleted.done, hbusy, hcompleted.sameInputs, hcompleted.mem⟩

end Sys2Proof.Proofs
end

section
/-! Proofs about power-on reset: what the host and the bit reader find in the machine before its first step
(`70_reset_and_hazards.md`). -/

namespace Sys2Proof.Machine

/-- After power-on reset every offset but that of ID reads 0 (R31, R430): the registers one by one, then the reserved offsets. -/
theorem readReg_reset (off : Nat) : State.reset.readReg off = if off = 0x44 then 0x4D504144 else 0 := by
  by_cases hreg : off ∈ (List.range 18).map (4 * ·)
  · have hregisters : ∀ o ∈ (List.range 18).map (4 * ·), State.reset.readReg o = if o = 0x44 then 0x4D504144 else 0 := by decide
    exact hregisters off hreg
  · have hne : off ≠ 0x44 := fun h => hreg (h ▸ by decide)
    rw [readReg_reserved State.reset hreg, if_neg hne]

theorem decoderReset_reset : Claims.DecoderReset State.reset := ⟨rfl, rfl, rfl, rfl, rfl⟩

end Sys2Proof.Machine

namespace Sys2Proof.Proofs
open Sys2Proof.Machine Sys2Proof.Claims

/-- Settles O9: the registers by `readReg_reset`; with no byte of the window written and none of the main data valid, each read of
either is a free value. -/
theorem powerOnResetState : Obligations.PowerOnResetState := by
  have hstatus : State.reset.statusWord = 0 := readReg_reset 0x04
  have hbit (n p : Nat) : ({ mainReader State.reset.mainData n with pos := p }).rawBit.1 = Config.drawBit n :=
    congrArg Prod.fst (rawBit_past { mainReader State.reset.mainData n with pos := p } (Nat.zero_le p))
  exact ⟨readReg_reset, hstatus, rfl, rfl, decoderReset_reset, read_nil, fun n p => ⟨rfl, hbit n p⟩⟩

end Sys2Proof.Proofs
end
